-- ==== Sys2Proof/Word.lean ====
section
/-! DEFINITION. The word types of the model, each named once: bytes, host words, byte strings, bit strings and
slot numbers (spec/00_scope.md R9, R11; spec/30_encoding.md R65). -/

namespace Sys2Proof

/-- An 8-bit unsigned value (R9). -/
abbrev Byte := BitVec 8

/-- A 32-bit value on the host port, and a command word (R12, R63). -/
abbrev Word := BitVec 32

/-- A finite sequence of bytes; element 0 is byte 0 (R9). -/
abbrev Bytes := List Byte

/-- A finite sequence of bits; element 0 is bit 0, the first bit (R9). -/
abbrev Bits := List Bool

/-- The number of a seed slot, 0 to 15 (R65). -/
abbrev Slot := Fin 16

end Sys2Proof
end

