-- ==== Sys2Proof/Config.lean ====
section
/-! DEFINITION. What is fixed for the machine (spec/00_scope.md R6, R7; spec/10_state.md R22) and the values the
spec leaves open, as constants nothing can evaluate (spec/93_implementation_defined.md U1, U2). -/

namespace Sys2Proof

/-- How one CSPRNG attempt ends (R112): `Ok(b)` with exactly 32 bytes, or one of the three ways it counts as
`Fail`: an answer of fewer than 32 bytes, a signalled error, no answer within `RNG_TIMEOUT`. -/
inductive RngAnswer where
  | ok (b : Vector Byte 32)
  | short (delivered : Fin 32)
  | error
  | timeout
  deriving DecidableEq, Repr, Inhabited

namespace Config

/-- The constant of the ID register, ASCII "AIP1" (R22). -/
def idValue : Word := 0x41495031#32

/-- `ENT_BYTES` (R6). -/
def entBytes : Nat := 32
/-- `CS_BITS` (R6): 256 / 32 at encode, 264 / 33 at decode (R89). -/
def csBits : Nat := 8
/-- `MN_BITS` (R6). -/
def mnBits : Nat := 264
/-- `GROUP_BITS` (R6). -/
def groupBits : Nat := 11
/-- `MN_WORDS` (R6). -/
def mnWords : Nat := 24
/-- `WL_SIZE` (R6). -/
def wlSize : Nat := 2048
/-- `SEED_BYTES` (R6), also `SLOT_BYTES` (R7). -/
def seedBytes : Nat := 64
/-- `MSG_MAX` (R7). -/
def msgMax : Nat := 256
/-- `BITCAP` (R7). -/
def bitCap : Nat := 512
/-- `ENTRY_BYTES` (R7). -/
def entryBytes : Nat := 32

/-- `BASE`, the address at which the platform places the register map: any value (R46, U5; assumption 13). -/
opaque base : Nat

/-- What the byte at a LUT offset holds after the given power-up, until the host writes it: any value
(R41, R136, U1). A free value: nothing constrains it (assumption 5). -/
opaque lutPowerUp (powerUps offset : Nat) : Byte

/-- How the n-th CSPRNG attempt past the environment's listed events ends: any answer (R112, U2).
A free value: nothing constrains it (assumption 3). -/
opaque rngAnswer (draws : Nat) : RngAnswer

end Config

end Sys2Proof
end

