-- ==== Sys2Proof/Machine/Bits.lean ====
section
/-! DEFINITION. The pure functions on bytes, bits and unsigned integers (spec/00_scope.md R10;
spec/41_bit_codec.md R75 to R77; spec/43_mnemonic.md R87; spec/45_derivation.md R106). -/

namespace Sys2Proof.Machine

open Sys2Proof

/-- `zeros(n)`. -/
def zeros (n : Nat) : Bytes := List.replicate n 0#8

/-- `n` zero bits. -/
def zeroBits (n : Nat) : Bits := List.replicate n false

/-- `ascii("...")`: the ASCII codes of the characters, no terminator (R9). -/
def ascii (t : String) : Bytes := t.toList.map fun c => BitVec.ofNat 8 c.toNat

/-- `uint(s)`: the bits as a big-endian unsigned integer (R10). -/
def uint : Bits → Nat
  | [] => 0
  | b :: s => b.toNat * 2 ^ s.length + uint s

/-- `bitsN(v)`: the n-bit big-endian bit string of v (R10). -/
def bitsN (n v : Nat) : Bits := (List.range n).map fun i => v.testBit (n - 1 - i)

/-- The 8 bits of a byte, most significant first (R10). -/
def byteBits (b : Byte) : Bits := (List.range 8).map fun j => b.getLsbD (7 - j)

/-- `BytesToBits(b)` (R75). -/
def bytesToBits (b : Bytes) : Bits := b.flatMap byteBits

/-- `BitsToBytes(s)`: byte i is `uint(take(drop(s, 8i), 8))` (R76); the callers check that the length is a multiple
of 8. -/
def bitsToBytes (s : Bits) : Bytes :=
  (List.range (s.length / 8)).map fun i => BitVec.ofNat 8 (uint ((s.drop (8 * i)).take 8))

/-- `EqualBits(a, b)`: same length and the same bits (R77). -/
def equalBits (a b : Bits) : Bool :=
  a.length == b.length && (List.range a.length).all fun i => a.getD i false == b.getD i false

/-- `Group(s, k)`: the k-th 11-bit big-endian group (R87). -/
def group (s : Bits) (k : Nat) : Nat := uint ((s.drop (Config.groupBits * k)).take Config.groupBits)

/-- `Join(i_0, ..., i_23)` (R87). -/
def join (is : List Nat) : Bits := is.flatMap (bitsN Config.groupBits)

/-- The big-endian encoding of v in n bytes (R84, R102). -/
def beBytes (n v : Nat) : Bytes := (List.range n).map fun i => BitVec.ofNat 8 (v >>> (8 * (n - 1 - i)))

/-- The ASCII code of a lower-case hexadecimal digit (R106). -/
def hexDigit (n : Nat) : Byte := (ascii "0123456789abcdef").getD n 0#8

/-- `hex8(v)`: 8 lower-case hexadecimal characters, most significant nibble first (R54, R106). -/
def hex8 (v : Word) : Bytes := (List.range 8).map fun j => hexDigit (v.extractLsb' (28 - 4 * j) 4).toNat

end Sys2Proof.Machine
end

