-- ==== Sys2Proof/Machine/State.lean ====
section
/-! DEFINITION. The state of the machine: every register, buffer and hidden field of spec/10_state.md, the ports of
R18, and what the environment does next. Plain data throughout. -/

namespace Sys2Proof.Machine

open Sys2Proof

/-- The byte buffers MSG, BITA, BITB, SK, MN and LUT as one sparse memory: pairs of register-map offset and byte,
offsets strictly rising, no pair equal to what its unlisted offset reads as (R46, R47). -/
abbrev Memory := List Host.Cell

/-- The error names of R119, one per row of R120's table with a nonzero code. -/
inductive ErrorName where
  | length
  | wordlistLength
  | entropyLength
  | masterSeedLength
  | seedLength
  | mnemonicLength
  | mnemonicBitLength
  | bufferCapacity
  | checksumLength
  | encodingRange
  | wordNotFound
  | checksumMismatch
  | entropyGeneration
  | illegalCommand
  deriving DecidableEq, Repr

/-- One staged write `REG <- v` of a command's pseudocode (R11, R124). No command can name the LUT, CTRL or WL_COUNT
here: the engine never writes them (R41, R116). -/
inductive Write where
  | sk (i : Slot) (data : Bytes)
  | sklen (i : Slot) (n : BitVec 7)
  | msg (data : Bytes)
  | msglen (n : BitVec 9)
  | bita (data : Bytes)
  | bitalen (n : BitVec 10)
  | bitb (data : Bytes)
  | bitblen (n : BitVec 10)
  | idx (k : Fin 24) (v : BitVec 16)
  | mn (k : Fin 24) (entry : Bytes)
  | mnCount (n : BitVec 5)
  | arg (v : Word)
  | eqFlag (b : Bool)
  deriving DecidableEq, Repr

/-- What an execute step leaves for the complete step: a list of writes or an error record (R42, R123). -/
inductive Staged where
  | writes (ws : List Write)
  | error (e : ErrorName) (info : Word)
  deriving DecidableEq, Repr

/-- One access of the host port: a byte offset of 17 bits and a size in bytes; only size 4 is answered OKAY
(R12, R18(b), R48). -/
inductive Access where
  | read (off : BitVec 17) (size : Nat)
  | write (off : BitVec 17) (size : Nat) (v : Word)
  deriving DecidableEq, Repr

/-- The port's answer to an access: OKAY or ERROR, with data for a read (R18(b)). -/
inductive Response where
  | readOkay (data : Word)
  | readError (data : Word)
  | writeOkay
  | writeError
  deriving DecidableEq, Repr

/-- What happens next outside or inside the block: the agents of R16 and the inputs of R18, in the one total order of
R57 (assumption 1). -/
inductive Event where
  /-- The host performs an access. -/
  | host (a : Access)
  /-- The engine gets a turn: it takes its next step, unless R57 puts it off (assumption 2). -/
  | engine
  /-- The CSPRNG attempt under way ends (R112). -/
  | rng (a : RngAnswer)
  /-- The CSPRNG answers a request that timed out or was abandoned: discarded (R112, R136). -/
  | rngStale (a : RngAnswer)
  /-- The reset input is asserted (`true`) or released (`false`) (R18(a)). -/
  | rst (level : Bool)
  /-- The block is powered up (R136). -/
  | powerUp
  deriving DecidableEq, Repr

/-- The state of the block and of what it is connected to. -/
structure State where
  /-- CTRL.IRQEN (R23). -/
  irqen : Bool
  /-- STATUS.BUSY, the hidden `busy` (R24, R42). -/
  busy : Bool
  /-- STATUS.DONE (R24). -/
  done : Bool
  /-- STATUS.ERR (R24). -/
  err : Bool
  /-- STATUS.EQ (R24). -/
  eqFlag : Bool
  /-- STATUS.CMDREJ (R24). -/
  cmdrej : Bool
  /-- STATUS.WBUSY (R24). -/
  wbusy : Bool
  /-- STATUS.ERRCODE (R24, R120). -/
  errcode : Byte
  /-- CMD (R26). -/
  cmd : Word
  /-- ERRINFO (R27). -/
  errinfo : Word
  /-- ARG (R29). -/
  arg : Word
  /-- WL_COUNT (R30). -/
  wlCount : BitVec 12
  /-- MSGLEN (R31). -/
  msglen : BitVec 9
  /-- BITALEN (R32). -/
  bitalen : BitVec 10
  /-- BITBLEN (R32). -/
  bitblen : BitVec 10
  /-- MN_COUNT (R33). -/
  mnCount : BitVec 5
  /-- SKLEN[0..15] (R34). -/
  sklen : Vector (BitVec 7) 16
  /-- IDX[0..23] (R35). -/
  idx : Vector (BitVec 16) 24
  /-- MSG, BITA, BITB, SK, MN and LUT (R36 to R41). -/
  mem : Memory
  /-- The accepted command word, or none (R42). -/
  inflight : Option Word
  /-- What the in-flight command has staged, or none (R42). -/
  staged : Option Staged
  /-- CSPRNG attempts of the in-flight GENENT (R42). -/
  attempts : Fin 4
  /-- A CSPRNG request is outstanding (R42). -/
  rngPending : Bool
  /-- The level of the reset input (R18(a)). -/
  rst : Bool
  /-- The host port's answer to the last access, or none yet (R18(b); assumption 9). -/
  resp : Option Response
  /-- The model's own: an engine step has taken effect since the last host access (R57; assumption 2). -/
  turnTaken : Bool
  /-- The model's own: what happens next, in order (assumption 1). -/
  env : List Event
  /-- The model's own: how many free CSPRNG answers were taken (assumption 3). -/
  draws : Nat
  /-- The model's own: how many power-ups before this one (assumption 5). -/
  powerUps : Nat
  deriving DecidableEq, Repr

/-- The machine right after power-up and reset (R45): every register and buffer at the value R45 states, nothing of
the LUT written, the environment's list empty. -/
def State.reset : State where
  irqen := false
  busy := false
  done := false
  err := false
  eqFlag := false
  cmdrej := false
  wbusy := false
  errcode := 0#8
  cmd := 0#32
  errinfo := 0#32
  arg := 0#32
  wlCount := 0#12
  msglen := 0#9
  bitalen := 0#10
  bitblen := 0#10
  mnCount := 0#5
  sklen := Vector.replicate 16 0#7
  idx := Vector.replicate 24 0#16
  mem := []
  inflight := none
  staged := none
  attempts := 0
  rngPending := false
  rst := false
  resp := none
  turnTaken := false
  env := []
  draws := 0
  powerUps := 0

/-- Reasons a step stops with a fault. There are none: R121 (no error disables the block, latches a fault or needs a
reset); a bad host access is answered ERROR on the port and the machine goes on (R48 to R50; assumption 11). Nothing
raises a fault, and that is neither safe nor unsafe: the spec gives every step an effect. -/
inductive Fault where
  deriving DecidableEq, Repr

/-- Reasons a step has no meaning. -/
inductive Refusal where
  /-- Raised only by a dispatch arm of an instruction without a meaning; there is none left. Safe: the model stops
  where the hardware goes on. -/
  | notModelled (mnemonic : String)
  deriving DecidableEq, Repr

/-- The outcome of a meaning or of a step. -/
abbrev Result := Host.Outcome State Fault Refusal

end Sys2Proof.Machine
end

