-- ==== Sys2Proof/Machine/Ops.lean ====
section
/-! DEFINITION. The named operations over memory and registers, staging, and what the spec's "trap entry" and "trap
return" are here: error completion and the next issue (spec/20_memory.md, spec/60_exceptions.md R122 to R127,
spec/70_reset_and_hazards.md R136). -/

namespace Sys2Proof.Machine

open Sys2Proof

/-! ### Where the buffers lie (R47) -/

/-- MSG (R36). -/
def msgBase : Nat := 0x100
/-- BITA (R37). -/
def bitaBase : Nat := 0x200
/-- BITB (R37). -/
def bitbBase : Nat := 0x240
/-- `SK[i]` (R38). -/
def skBase (i : Slot) : Nat := 0x400 + 64 * i.val
/-- `MN[k]` (R40). -/
def mnBase (k : Nat) : Nat := 0x800 + 32 * k
/-- `LUT[j]` (R41). -/
def lutBase (j : Nat) : Nat := 0x10000 + 32 * j

/-- The offset lies in the LUT (R41, R47). -/
def isLut (a : Nat) : Bool := decide (0x10000 ≤ a) && decide (a < 0x20000)

/-- The offset lies in MSG, BITA, BITB, SK, MN or the LUT (R47). -/
def isBuffer (a : Nat) : Bool :=
  (decide (0x100 ≤ a) && decide (a < 0x280)) || (decide (0x400 ≤ a) && decide (a < 0xB00)) || isLut a

/-- The offset is the LEN byte of a word entry of MN or the LUT (R39). -/
def isLenByte (a : Nat) : Bool :=
  ((decide (0x800 ≤ a) && decide (a < 0xB00)) || isLut a) && decide (a % 32 = 0)

/-- The bits a byte of a buffer has: LEN bytes have bits [4:0] only (R39, R52). -/
def byteMask (a : Nat) : Byte := if isLenByte a then 0x1F#8 else 0xFF#8

/-! ### The memory -/

/-- What an unlisted offset holds: 0 in the buffers reset clears, no value in the LUT, which reset leaves
UNSPECIFIED (R45). -/
def background (a : Nat) : Option Byte := if isLut a then none else some 0#8

/-- The byte listed at an offset. -/
def Memory.lookup (m : Memory) (a : Nat) : Option Byte :=
  match m with
  | [] => none
  | (b, v) :: rest => if b = a then some v else Memory.lookup rest a

/-- The byte an offset holds, or none where nothing was written and reset states no value. -/
def Memory.load (m : Memory) (a : Nat) : Option Byte :=
  match Memory.lookup m a with
  | some v => some v
  | none => background a

/-- The pair put in at its place among rising offsets. -/
def Memory.insert (m : Memory) (a : Nat) (v : Byte) : Memory :=
  match m with
  | [] => [(a, v)]
  | (b, w) :: rest =>
    if a < b then (a, v) :: (b, w) :: rest
    else if a = b then (a, v) :: rest
    else (b, w) :: Memory.insert rest a v

/-- The offset no longer listed. -/
def Memory.erase (m : Memory) (a : Nat) : Memory := m.filter fun c => c.1 != a

/-- A byte written: its LEN mask applied (R39), nothing outside the buffers, and the canonical form kept. -/
def Memory.store (m : Memory) (a : Nat) (v : Byte) : Memory :=
  if isBuffer a then
    if background a = some (v &&& byteMask a) then Memory.erase m a else Memory.insert m a (v &&& byteMask a)
  else m

/-- The listed offsets rise strictly. -/
def Memory.rising : Memory → Bool
  | [] => true
  | c :: rest => (rest.all fun d => decide (c.1 < d.1)) && Memory.rising rest

/-- A listed pair lies in a buffer, differs from what its unlisted offset holds, and has no bit its byte lacks. -/
def cellOk (c : Host.Cell) : Bool :=
  isBuffer c.1 && (background c.1 != some c.2) && (c.2 &&& byteMask c.1 == c.2)

/-- The canonical form of the memory. -/
def Memory.wf (m : Memory) : Bool := Memory.rising m && m.all cellOk

/-- The LUT's part of the memory, which reset keeps (R136). -/
def Memory.lutOnly (m : Memory) : Memory := m.filter fun c => isLut c.1

/-! ### Bytes of the buffers -/

/-- The byte at an offset. A LUT byte nothing has written since power-up is the free value of U1, its reserved LEN
bits read as 0 (R41, R45; assumption 5). -/
def byteAt (s : State) (a : Nat) : Byte :=
  match s.mem.load a with
  | some v => v
  | none => Config.lutPowerUp s.powerUps a &&& byteMask a

/-- One byte written. -/
def storeByte (s : State) (a : Nat) (v : Byte) : State := { s with mem := s.mem.store a v }

/-- n bytes from an offset on. -/
def readBytes (s : State) (base n : Nat) : Bytes := (List.range n).map fun i => byteAt s (base + i)

/-- The first n bytes of the data written from an offset on, 0 past the data's end. -/
def writeBytes (s : State) (base n : Nat) (data : Bytes) : State :=
  (List.range n).foldl (fun s i => storeByte s (base + i) (data.getD i 0#8)) s

/-! ### Registers -/

/-- `SKLEN[i]` (R34). -/
def sklenAt (s : State) (i : Slot) : BitVec 7 := s.sklen[i.val]

/-- `IDX[k]` (R35). -/
def idxAt (s : State) (k : Fin 24) : BitVec 16 := s.idx[k.val]

/-! ### Staged writes and errors -/

/-- `REG <- v` taking effect (R11, R124). -/
def applyWrite (s : State) (w : Write) : State :=
  match w with
  | .sk i data => writeBytes s (skBase i) Config.seedBytes data
  | .sklen i n => { s with sklen := s.sklen.set i.val n }
  | .msg data => writeBytes s msgBase Config.msgMax data
  | .msglen n => { s with msglen := n }
  | .bita data => writeBytes s bitaBase (Config.bitCap / 8) data
  | .bitalen n => { s with bitalen := n }
  | .bitb data => writeBytes s bitbBase (Config.bitCap / 8) data
  | .bitblen n => { s with bitblen := n }
  | .idx k v => { s with idx := s.idx.set k.val v }
  | .mn k entry => writeBytes s (mnBase k.val) Config.entryBytes entry
  | .mnCount n => { s with mnCount := n }
  | .arg v => { s with arg := v }
  | .eqFlag b => { s with eqFlag := b }

/-- Every write of a list, in order. -/
def applyWrites (s : State) (ws : List Write) : State := ws.foldl applyWrite s

/-- `PackA(s)` (R74). -/
def packA (s : Bits) : List Write :=
  [.bita (bitsToBytes (s ++ zeroBits (Config.bitCap - s.length))), .bitalen (BitVec.ofNat 10 s.length)]

/-- `PackB(s)` (R74). -/
def packB (s : Bits) : List Write :=
  [.bitb (bitsToBytes (s ++ zeroBits (Config.bitCap - s.length))), .bitblen (BitVec.ofNat 10 s.length)]

/-- `code(E)` (R120). -/
def ErrorName.code : ErrorName → Byte
  | .length => 0x10#8
  | .wordlistLength => 0x11#8
  | .entropyLength => 0x12#8
  | .masterSeedLength => 0x13#8
  | .seedLength => 0x14#8
  | .mnemonicLength => 0x15#8
  | .mnemonicBitLength => 0x16#8
  | .bufferCapacity => 0x17#8
  | .checksumLength => 0x18#8
  | .encodingRange => 0x20#8
  | .wordNotFound => 0x30#8
  | .checksumMismatch => 0x40#8
  | .entropyGeneration => 0x50#8
  | .illegalCommand => 0xF0#8

/-- The command's pseudocode ran to its end: its writes are staged (R123). -/
def stage (ws : List Write) (s : State) : State := { s with staged := some (.writes ws) }

/-- `raise E(info)`: the error record is staged in place of any write (R13, R123). -/
def raise (e : ErrorName) (info : Word) (s : State) : State := { s with staged := some (.error e info) }

/-- The issue step (R122): an accepted write of v to CMD. -/
def issue (v : Word) (s : State) : State :=
  { s with
    cmd := v, inflight := some v, busy := true
    done := false, err := false, errcode := 0#8, errinfo := 0#32
    attempts := 0, staged := none }

/-- The engine is idle again and DONE is set: the part common to both completions (R124, R125). -/
def finish (s : State) : State := { s with busy := false, inflight := none, staged := none, done := true }

/-- The complete step (R124, R125): staged writes are applied, or the error record is reported and nothing else
changes. With nothing staged there is nothing to complete. -/
def complete (s : State) : State :=
  match s.staged with
  | none => s
  | some (.writes ws) => finish (applyWrites s ws)
  | some (.error e info) => { finish s with err := true, errcode := e.code, errinfo := info }

/-! ### Reset (R136) -/

/-- The reset event: every piece of state at its value of R45, the in-flight command and an outstanding CSPRNG request
abandoned, the LUT kept. What is outside the block stays (R136; assumption 10). -/
def resetBlock (s : State) : State :=
  { State.reset with
    mem := s.mem.lutOnly, rst := s.rst, resp := s.resp, turnTaken := s.turnTaken, env := s.env, draws := s.draws
    powerUps := s.powerUps }

/-- Power-up: a reset after which every LUT byte is an arbitrary value (R136; assumption 5). -/
def powerUp (s : State) : State := { resetBlock s with mem := [], powerUps := s.powerUps + 1 }

end Sys2Proof.Machine
end

