-- ==== Sys2Proof/Machine/Operands.lean ====
section
/-! DEFINITION. The operand forms: the buffer views of spec/00_scope.md R14, word entries (spec/10_state.md R39), the
reverse lookup (spec/43_mnemonic.md R88) and the index checks. The views are used only after their capacity checks
(spec/41_bit_codec.md R72). -/

namespace Sys2Proof.Machine

open Sys2Proof

/-- MSG as a byte string of 256 bytes (R36). -/
def msgBytes (s : State) : Bytes := readBytes s msgBase Config.msgMax

/-- `MSGB = take(MSG, MSGLEN)` (R14). -/
def msgb (s : State) : Bytes := (msgBytes s).take s.msglen.toNat

/-- `SK[i]` as a byte string of 64 bytes (R38). -/
def slotBytes (s : State) (i : Slot) : Bytes := readBytes s (skBase i) Config.seedBytes

/-- `SKB(i) = take(SK[i], SKLEN[i])` (R14). -/
def skb (s : State) (i : Slot) : Bytes := (slotBytes s i).take (sklenAt s i).toNat

/-- The bit string of a length packed most-significant-bit first from an offset: bit j is bit `7 - (j mod 8)` of byte
`floor(j/8)` (R14, R37). -/
def packedBits (s : State) (base len : Nat) : Bits :=
  (List.range len).map fun j => (byteAt s (base + j / 8)).getLsbD (7 - j % 8)

/-- `BITS_A` (R14). -/
def bitsA (s : State) : Bits := packedBits s bitaBase s.bitalen.toNat

/-- `BITS_B` (R14). -/
def bitsB (s : State) : Bits := packedBits s bitbBase s.bitblen.toNat

/-- The 32 bytes of the word entry at an offset (R39). -/
def entryAt (s : State) (base : Nat) : Bytes := readBytes s base Config.entryBytes

/-- `word(E)` of the entry at an offset: its character bytes 1 to LEN, LEN being bits [4:0] of byte 0 (R14, R39). -/
def wordAt (s : State) (base : Nat) : Bytes := readBytes s (base + 1) ((byteAt s base).toNat % 32)

/-- `word(MN[k])`. -/
def mnWord (s : State) (k : Nat) : Bytes := wordAt s (mnBase k)

/-- `word(LUT[j])`. -/
def lutWord (s : State) (j : Nat) : Bytes := wordAt s (lutBase j)

/-- `Position(w)`: the least j with `word(LUT[j]) = w`, byte for byte with equal lengths (R88). -/
def position (s : State) (w : Bytes) : Option Nat := (List.range Config.wlSize).find? fun j => lutWord s j == w

/-- The least k with `IDX[k] > 2047`, if any (R92, R95). -/
def firstBadIndex (s : State) : Option (Fin 24) :=
  (List.finRange 24).find? fun k => decide (2047 < (idxAt s k).toNat)

/-- The least k whose word `word(MN[k])` is absent from the LUT, if any (R94, R97). -/
def firstAbsentWord (s : State) : Option (Fin 24) :=
  (List.finRange 24).find? fun k => (position s (mnWord s k.val)).isNone

/-- `p_k`, the position of `word(MN[k])`; used once every word is known to be present (R94, R97). -/
def wordPosition (s : State) (k : Fin 24) : Nat := (position s (mnWord s k.val)).getD 0

end Sys2Proof.Machine
end

