-- ==== Sys2Proof/Machine/BitCodec.lean ====
section
/-! DEFINITION. BYTES2BITS, BITS2BYTES and EQBITS (spec/41_bit_codec.md). -/

namespace Sys2Proof.Machine

open Sys2Proof

/-- BYTES2BITS (R78). -/
def execBytes2bits (s : State) : Result :=
  if 64 < s.msglen.toNat then .next (raise .bufferCapacity 0#32 s)
  else .next (stage (packA (bytesToBits (msgb s))) s)

/-- BITS2BYTES (R79). -/
def execBits2bytes (s : State) : Result :=
  if 512 < s.bitalen.toNat then .next (raise .bufferCapacity 0#32 s)
  else if s.bitalen.toNat % 8 ≠ 0 then .next (raise .length 0#32 s)
  else
    let b := bitsToBytes (bitsA s)
    .next (stage [.msg (b ++ zeros (256 - b.length)), .msglen (BitVec.ofNat 9 (s.bitalen.toNat / 8))] s)

/-- EQBITS (R80). -/
def execEqbits (s : State) : Result :=
  if 512 < s.bitalen.toNat ∨ 512 < s.bitblen.toNat then .next (raise .bufferCapacity 0#32 s)
  else .next (stage [.eqFlag (equalBits (bitsA s) (bitsB s))] s)

end Sys2Proof.Machine
end

