-- ==== Sys2Proof/Machine/Sha256.lean ====
section
/-! DEFINITION. SHA-256, the checksum's hash HASH256 (spec/42_checksum.md R82, R84), and `Checksum` (R81). -/

namespace Sys2Proof.Machine

open Sys2Proof

/-- `s0` of the message schedule (R84). -/
def shaSched0 (x : Word) : Word := x.rotateRight 7 ^^^ x.rotateRight 18 ^^^ (x >>> 3)
/-- `s1` of the message schedule (R84). -/
def shaSched1 (x : Word) : Word := x.rotateRight 17 ^^^ x.rotateRight 19 ^^^ (x >>> 10)
/-- `S0` of the rounds (R84). -/
def shaSum0 (x : Word) : Word := x.rotateRight 2 ^^^ x.rotateRight 13 ^^^ x.rotateRight 22
/-- `S1` of the rounds (R84). -/
def shaSum1 (x : Word) : Word := x.rotateRight 6 ^^^ x.rotateRight 11 ^^^ x.rotateRight 25
/-- `Ch` (R84). -/
def shaCh (x y z : Word) : Word := (x &&& y) ^^^ (~~~x &&& z)
/-- `Maj` (R84). -/
def shaMaj (x y z : Word) : Word := (x &&& y) ^^^ (x &&& z) ^^^ (y &&& z)

/-- The round constants `K[0..63]`, eight per line as in R84. -/
def shaK : List Word :=
  [0x428a2f98#32, 0x71374491#32, 0xb5c0fbcf#32, 0xe9b5dba5#32, 0x3956c25b#32, 0x59f111f1#32, 0x923f82a4#32, 0xab1c5ed5#32,
   0xd807aa98#32, 0x12835b01#32, 0x243185be#32, 0x550c7dc3#32, 0x72be5d74#32, 0x80deb1fe#32, 0x9bdc06a7#32, 0xc19bf174#32,
   0xe49b69c1#32, 0xefbe4786#32, 0x0fc19dc6#32, 0x240ca1cc#32, 0x2de92c6f#32, 0x4a7484aa#32, 0x5cb0a9dc#32, 0x76f988da#32,
   0x983e5152#32, 0xa831c66d#32, 0xb00327c8#32, 0xbf597fc7#32, 0xc6e00bf3#32, 0xd5a79147#32, 0x06ca6351#32, 0x14292967#32,
   0x27b70a85#32, 0x2e1b2138#32, 0x4d2c6dfc#32, 0x53380d13#32, 0x650a7354#32, 0x766a0abb#32, 0x81c2c92e#32, 0x92722c85#32,
   0xa2bfe8a1#32, 0xa81a664b#32, 0xc24b8b70#32, 0xc76c51a3#32, 0xd192e819#32, 0xd6990624#32, 0xf40e3585#32, 0x106aa070#32,
   0x19a4c116#32, 0x1e376c08#32, 0x2748774c#32, 0x34b0bcb5#32, 0x391c0cb3#32, 0x4ed8aa4a#32, 0x5b9cca4f#32, 0x682e6ff3#32,
   0x748f82ee#32, 0x78a5636f#32, 0x84c87814#32, 0x8cc70208#32, 0x90befffa#32, 0xa4506ceb#32, 0xbef9a3f7#32, 0xc67178f2#32]

/-- The eight working words (R84). -/
structure ShaState where
  a : Word
  b : Word
  c : Word
  d : Word
  e : Word
  f : Word
  g : Word
  h : Word
  deriving DecidableEq, Repr

/-- The initial `H0..H7` (R84). -/
def shaInit : ShaState :=
  ⟨0x6a09e667#32, 0xbb67ae85#32, 0x3c6ef372#32, 0xa54ff53a#32, 0x510e527f#32, 0x9b05688c#32, 0x1f83d9ab#32, 0x5be0cd19#32⟩

/-- `be32` of the first four bytes (R84). -/
def be32 (b : Bytes) : Word := b.getD 0 0#8 ++ b.getD 1 0#8 ++ b.getD 2 0#8 ++ b.getD 3 0#8

/-- n further words of the schedule, the list held newest first: its elements 1, 6, 14 and 15 are `W[t-2]`, `W[t-7]`,
`W[t-15]` and `W[t-16]` (R84). -/
def shaExtend : Nat → List Word → List Word
  | 0, w => w
  | n + 1, w =>
    shaExtend n ((shaSched1 (w.getD 1 0#32) + w.getD 6 0#32 + shaSched0 (w.getD 14 0#32) + w.getD 15 0#32) :: w)

/-- `W[0..63]` of a 64-byte block (R84). -/
def shaSchedule (block : Bytes) : List Word :=
  (shaExtend 48 ((List.range 16).map fun t => be32 (block.drop (4 * t))).reverse).reverse

/-- One round with the words `K[t]` and `W[t]` (R84). -/
def shaRound (s : ShaState) (kw : Word × Word) : ShaState :=
  let t1 := s.h + shaSum1 s.e + shaCh s.e s.f s.g + kw.1 + kw.2
  let t2 := shaSum0 s.a + shaMaj s.a s.b s.c
  ⟨t1 + t2, s.a, s.b, s.c, s.d + t1, s.e, s.f, s.g⟩

/-- One block: 64 rounds, then the sums with the previous state (R84). -/
def shaBlock (s : ShaState) (block : Bytes) : ShaState :=
  let t := (shaK.zip (shaSchedule block)).foldl shaRound s
  ⟨s.a + t.a, s.b + t.b, s.c + t.c, s.d + t.d, s.e + t.e, s.f + t.f, s.g + t.g, s.h + t.h⟩

/-- `b ++ [0x80] ++ zeros(k) ++ be64(8·len(b))`, k least that makes the length a multiple of 64 (R84). -/
def shaPad (b : Bytes) : Bytes :=
  b ++ [0x80#8] ++ zeros ((64 - (b.length + 9) % 64) % 64) ++ beBytes 8 (8 * b.length)

/-- The first n 64-byte blocks of m, in order. -/
def shaBlocks : Nat → Bytes → ShaState → ShaState
  | 0, _, s => s
  | n + 1, m, s => shaBlocks n (m.drop 64) (shaBlock s (m.take 64))

/-- `be32(H0) ++ ... ++ be32(H7)` (R84). -/
def shaDigest (s : ShaState) : Bytes :=
  [s.a, s.b, s.c, s.d, s.e, s.f, s.g, s.h].flatMap fun w => beBytes 4 w.toNat

/-- `SHA256(b)` (R84). -/
def sha256 (b : Bytes) : Bytes :=
  let m := shaPad b
  shaDigest (shaBlocks (m.length / 64) m shaInit)

/-- `Checksum(b, n)`: the first n bits of the hash (R81). -/
def checksum (b : Bytes) (n : Nat) : Bits := (bytesToBits (sha256 b)).take n

/-- `MnBits(e)`: the entropy bits followed by the checksum bits (R86). -/
def mnBits (e : Bytes) : Bits := bytesToBits e ++ checksum e Config.csBits

end Sys2Proof.Machine
end

