-- ==== Sys2Proof/Machine/Checksum.lean ====
section
/-! DEFINITION. CHECKSUM (spec/42_checksum.md). -/

namespace Sys2Proof.Machine

open Sys2Proof

/-- CHECKSUM (R83). -/
def execChecksum (n : BitVec 9) (s : State) : Result :=
  if 256 < s.msglen.toNat then .next (raise .bufferCapacity 0#32 s)
  else if 256 < n.toNat then .next (raise .checksumLength 0#32 s)
  else .next (stage (packB (checksum (msgb s) n.toNat)) s)

end Sys2Proof.Machine
end

