-- ==== Sys2Proof/Machine/Control.lean ====
section
/-! DEFINITION. NOP and ZEROIZE (spec/47_control.md). -/

namespace Sys2Proof.Machine

open Sys2Proof

/-- NOP: nothing is staged but the completion itself (R115). -/
def execNop (s : State) : Result := .next (stage [] s)

/-- What ZEROIZE writes (R116). -/
def zeroizeWrites : List Write :=
  (List.finRange 16).flatMap (fun i => [Write.sk i (zeros 64), Write.sklen i 0#7])
    ++ [.msg (zeros 256), .msglen 0#9, .bita (zeros 64), .bitalen 0#10, .bitb (zeros 64), .bitblen 0#10]
    ++ (List.finRange 24).flatMap (fun k => [Write.idx k 0#16, Write.mn k (zeros 32)])
    ++ [.mnCount 0#5, .arg 0#32, .eqFlag false]

/-- ZEROIZE (R116). -/
def execZeroize (s : State) : Result := .next (stage zeroizeWrites s)

end Sys2Proof.Machine
end

