-- ==== Sys2Proof/Machine/Kmac.lean ====
section
/-! DEFINITION. Keccak-f[1600], the sponge, KMAC256 and the PRF (spec/44_prf.md R99, R102 to R104). -/

namespace Sys2Proof.Machine

open Sys2Proof

/-- A 64-bit lane (R103). -/
abbrev Lane := BitVec 64

/-- Five things indexed mod 5 (R104). -/
structure Five (α : Type) where
  v0 : α
  v1 : α
  v2 : α
  v3 : α
  v4 : α
  deriving DecidableEq, Repr

/-- The entry at an index mod 5. -/
def Five.get {α : Type} (r : Five α) (i : Nat) : α :=
  match i % 5 with
  | 0 => r.v0
  | 1 => r.v1
  | 2 => r.v2
  | 3 => r.v3
  | _ => r.v4

/-- The five values of a function. -/
def Five.ofFn {α : Type} (f : Nat → α) : Five α := ⟨f 0, f 1, f 2, f 3, f 4⟩

/-- The 25 lanes: entry y, then x, is `A[x][y]`. -/
abbrev Lanes := Five (Five Lane)

/-- `A[x][y]`, both indices mod 5 (R104). -/
def Five.lane (A : Lanes) (x y : Nat) : Lane := (A.get y).get x

/-- The lanes `A[x][y] = f x y`. -/
def lanesOf (f : Nat → Nat → Lane) : Lanes := Five.ofFn fun y => Five.ofFn fun x => f x y

/-- theta (R104). -/
def theta (A : Lanes) : Lanes :=
  let C : Five Lane := Five.ofFn fun x => A.lane x 0 ^^^ A.lane x 1 ^^^ A.lane x 2 ^^^ A.lane x 3 ^^^ A.lane x 4
  let D : Five Lane := Five.ofFn fun x => C.get (x + 4) ^^^ (C.get (x + 1)).rotateLeft 1
  lanesOf fun x y => A.lane x y ^^^ D.get x

/-- The rotation offsets `R[x][y]`: row y, column x, as R104 prints them. -/
def rotationOffsets : Five (Five Nat) :=
  ⟨⟨0, 1, 62, 28, 27⟩,
   ⟨36, 44, 6, 55, 20⟩,
   ⟨3, 10, 43, 25, 39⟩,
   ⟨41, 45, 15, 21, 8⟩,
   ⟨18, 2, 61, 56, 14⟩⟩

/-- rho and pi: `B[y][2x+3y] = ROT(A[x][y], R[x][y])` (R104), read from its target: `B[u][v]` comes from
`x = u + 3v`, `y = u`, for which `2x + 3y = 5u + 6v = v` mod 5. -/
def rhoPi (A : Lanes) : Lanes :=
  lanesOf fun u v => (A.lane (u + 3 * v) u).rotateLeft ((rotationOffsets.get u).get (u + 3 * v))

/-- chi (R104). -/
def chi (B : Lanes) : Lanes :=
  lanesOf fun x y => B.lane x y ^^^ (~~~(B.lane (x + 1) y) &&& B.lane (x + 2) y)

/-- iota (R104). -/
def iota (A : Lanes) (rc : Lane) : Lanes := { A with v0 := { A.v0 with v0 := A.v0.v0 ^^^ rc } }

/-- The round constants `RC[0..23]`, four per line as in R104. -/
def roundConstants : List Lane :=
  [0x0000000000000001#64, 0x0000000000008082#64, 0x800000000000808A#64, 0x8000000080008000#64,
   0x000000000000808B#64, 0x0000000080000001#64, 0x8000000080008081#64, 0x8000000000008009#64,
   0x000000000000008A#64, 0x0000000000000088#64, 0x0000000080008009#64, 0x000000008000000A#64,
   0x000000008000808B#64, 0x800000000000008B#64, 0x8000000000008089#64, 0x8000000000008003#64,
   0x8000000000008002#64, 0x8000000000000080#64, 0x000000000000800A#64, 0x800000008000000A#64,
   0x8000000080008081#64, 0x8000000000008080#64, 0x0000000080000001#64, 0x8000000080008008#64]

/-- `KeccakF1600(A)`: 24 rounds (R104). -/
def keccakF1600 (A : Lanes) : Lanes :=
  roundConstants.foldl (fun A rc => iota (chi (rhoPi (theta A))) rc) A

/-- `le64` read from the first eight bytes: byte j is bits [8j+7:8j] (R103). -/
def le64 (b : Bytes) : Lane :=
  b.getD 7 0#8 ++ b.getD 6 0#8 ++ b.getD 5 0#8 ++ b.getD 4 0#8 ++ b.getD 3 0#8 ++ b.getD 2 0#8 ++ b.getD 1 0#8
    ++ b.getD 0 0#8

/-- The eight bytes of a lane, least significant first (R103). -/
def lane64Bytes (v : Lane) : Bytes := (List.range 8).map fun j => v.extractLsb' (8 * j) 8

/-- The rate of the sponge in bytes (R103). -/
def rate : Nat := 136

/-- One block absorbed: lanes 0 to 16 exclusive-or its words, then the permutation (R103). -/
def absorb (A : Lanes) (block : Bytes) : Lanes :=
  keccakF1600 (lanesOf fun x y =>
    if x + 5 * y < 17 then A.lane x y ^^^ le64 (block.drop (8 * (x + 5 * y))) else A.lane x y)

/-- The first n blocks of q absorbed in order. -/
def absorbBlocks : Nat → Bytes → Lanes → Lanes
  | 0, _, A => A
  | n + 1, q, A => absorbBlocks n (q.drop rate) (absorb A (q.take rate))

/-- `P ++ [0x04] ++ zeros(k)` with the last byte's top bit set (R103). -/
def spongePad (p : Bytes) : Bytes :=
  let q := p ++ [0x04#8] ++ zeros ((rate - (p.length + 1) % rate) % rate)
  q.dropLast ++ [q.getLastD 0#8 ||| 0x80#8]

/-- The first m bytes of lanes 0 to 16 (R103); `m <= 136`. -/
def squeeze (A : Lanes) (m : Nat) : Bytes :=
  ((List.range 17).flatMap fun i => lane64Bytes (A.lane (i % 5) (i / 5))).take m

/-- `Sponge136(P, m)` (R103). -/
def sponge136 (p : Bytes) (m : Nat) : Bytes :=
  let q := spongePad p
  squeeze (absorbBlocks (q.length / rate) q (lanesOf fun _ _ => 0#64)) m

/-- The least n >= 1 with `x < 2^(8n)` (R102). -/
def byteCount (x : Nat) : Nat := Nat.log2 x / 8 + 1

/-- `left_encode(x)` (R102). -/
def leftEncode (x : Nat) : Bytes := BitVec.ofNat 8 (byteCount x) :: beBytes (byteCount x) x

/-- `right_encode(x)` (R102). -/
def rightEncode (x : Nat) : Bytes := beBytes (byteCount x) x ++ [BitVec.ofNat 8 (byteCount x)]

/-- `encode_string(Z)` (R102). -/
def encodeString (z : Bytes) : Bytes := leftEncode (8 * z.length) ++ z

/-- `bytepad(Z, w)` (R102). -/
def bytepad (z : Bytes) (w : Nat) : Bytes :=
  let y := leftEncode w ++ z
  y ++ zeros ((w - y.length % w) % w)

/-- `cSHAKE256(Y, L, N, S)` with N non-empty (R102). -/
def cShake256 (y : Bytes) (l : Nat) (n s : Bytes) : Bytes :=
  sponge136 (bytepad (encodeString n ++ encodeString s) rate ++ y) (l / 8)

/-- `KMAC256(K, X, L, S)` (R102). -/
def kmac256 (k x : Bytes) (l : Nat) (s : Bytes) : Bytes :=
  cShake256 (bytepad (encodeString k) rate ++ x ++ rightEncode l) l (ascii "KMAC") s

/-- `PRF(k, x) = KMAC256(k, x, 512, ascii("ABELIANPRF"))` (R99). -/
def prf (k x : Bytes) : Bytes := kmac256 k x 512 (ascii "ABELIANPRF")

end Sys2Proof.Machine
end

