-- ==== Sys2Proof/Machine/Derivation.lean ====
section
/-! DEFINITION. The PRF command (spec/44_prf.md) and the seed derivation tree (spec/45_derivation.md). -/

namespace Sys2Proof.Machine

open Sys2Proof

/-- `LABEL_MASTER` (R105). -/
def labelMaster : Bytes := ascii "AccountMasterSeed"

/-- `LABEL_ACCT[0..4]`, in the fixed order (R105). -/
def labelsAcct : List Bytes :=
  [ascii "CoinSpendKeyRootSeed", ascii "CoinSerialNumberKeyRootSeed", ascii "CoinDetectorRootKey",
   ascii "CoinValueKeyRootSeed", ascii "CoinValueKeyRootSeedAut"]

/-- `LABEL_PRROOT` (R105). -/
def labelPrRoot : Bytes := ascii "PublicRandRootSeed"

/-- `SK[dst] <- v; SKLEN[dst] <- 64` for a 64-byte value (R38). -/
def seedWrites (dst : Slot) (v : Bytes) : List Write := [.sk dst v, .sklen dst 64#7]

/-- PRF (R101). -/
def execPrf (dst src : Slot) (s : State) : Result :=
  if 64 < (sklenAt s src).toNat then .next (raise .bufferCapacity 0#32 s)
  else if 256 < s.msglen.toNat then .next (raise .bufferCapacity 0#32 s)
  else .next (stage (seedWrites dst (prf (skb s src) (msgb s))) s)

/-- DMASTER (R107). -/
def execDmaster (dst src : Slot) (s : State) : Result :=
  if (sklenAt s src).toNat ≠ 32 then .next (raise .entropyLength 0#32 s)
  else if 256 < s.msglen.toNat then .next (raise .bufferCapacity 0#32 s)
  else .next (stage (seedWrites dst (prf (skb s src) (labelMaster ++ msgb s))) s)

/-- The slot `dst + i`, for the i-th output of DACCT (R108). -/
def slotAfter (dst : Slot) (i : Nat) : Slot := Fin.ofNat 16 (dst.val + i)

/-- The account root seed of label i from master seed m (R108). -/
def accountSeed (m : Bytes) (i : Nat) : Bytes := prf m (labelsAcct.getD i [])

/-- DACCT (R108). The decoder already rejects `dst > 11` (R68), and so does the meaning of a term that did not pass
through it (assumption 14). -/
def execDacct (dst src : Slot) (s : State) : Result :=
  if 11 < dst.val then .next (raise .illegalCommand 3#32 s)
  else if (sklenAt s src).toNat ≠ 64 then .next (raise .masterSeedLength 0#32 s)
  else
    let m := skb s src
    .next (stage ((List.range 5).flatMap fun i => seedWrites (slotAfter dst i) (accountSeed m i)) s)

/-- DPRROOT (R109). -/
def execDprroot (dst src : Slot) (s : State) : Result :=
  if (sklenAt s src).toNat ≠ 64 then .next (raise .masterSeedLength 0#32 s)
  else .next (stage (seedWrites dst (prf (skb s src) labelPrRoot)) s)

/-- DPRAND (R110). -/
def execDprand (dst src : Slot) (s : State) : Result :=
  if (sklenAt s src).toNat ≠ 64 then .next (raise .seedLength 0#32 s)
  else .next (stage (seedWrites dst (prf (skb s src) (hex8 s.arg))) s)

end Sys2Proof.Machine
end

