-- ==== Sys2Proof/Syntax.lean ====
section
/-! DEFINITION. The commands: one constructor per row of spec/opcode_table.json, with the operands its row marks
(spec/30_encoding.md R64, R65, R67). -/

namespace Sys2Proof

/-- A command. Slots are the DST and SRC fields, `n` is AUX (R64). -/
inductive Instr where
  | nop
  | bytes2bits
  | bits2bytes
  | eqbits
  | checksum (n : BitVec 9)
  | ent2bits (src : Slot)
  | bits2idx
  | idx2words
  | encode (src : Slot)
  | words2idx
  | idx2bits
  | bits2ent (dst : Slot)
  | decode (dst : Slot)
  | prf (dst src : Slot)
  | dmaster (dst src : Slot)
  | dacct (dst src : Slot)
  | dprroot (dst src : Slot)
  | dprand (dst src : Slot)
  | genent (dst : Slot)
  | zeroize
  deriving DecidableEq, Repr

/-- The operation codes of R67, one per row. -/
inductive Opcode where
  | nop | bytes2bits | bits2bytes | eqbits | checksum | ent2bits | bits2idx | idx2words | encode | words2idx
  | idx2bits | bits2ent | decode | prf | dmaster | dacct | dprroot | dprand | genent | zeroize
  deriving DecidableEq, Repr

end Sys2Proof
end

