-- ==== Sys2Proof/WellFormed.lean ====
section
/-! DEFINITION. Which terms of `Instr` are commands of the hardware. Every operand field admits each of its values,
but for DACCT's destination (spec/30_encoding.md R67). -/

namespace Sys2Proof

/-- DACCT requires `dst <= 11`, so that its five outputs fit in slots dst..dst+4 (R67); no other command restricts
its fields beyond their widths. -/
def Instr.wellFormed : Instr → Bool
  | .dacct dst _ => decide (dst.val ≤ 11)
  | .nop | .bytes2bits | .bits2bytes | .eqbits | .checksum _ | .ent2bits _ | .bits2idx | .idx2words | .encode _
  | .words2idx | .idx2bits | .bits2ent _ | .decode _ | .prf _ _ | .dmaster _ _ | .dprroot _ _ | .dprand _ _
  | .genent _ | .zeroize => true

/-- The command is one the hardware has. -/
abbrev WellFormed (i : Instr) : Prop := i.wellFormed = true

end Sys2Proof
end

