-- ==== Sys2Proof/Decode.lean ====
section
/-! DEFINITION. The command word: its fields, the opcode map, the decoder with its three rejections, and after it the
encoder and the command syntax (spec/30_encoding.md R63 to R68, R70). -/

namespace Sys2Proof

/-! ### Fields (R64) -/

/-- OPC, bits [7:0]. -/
def fieldOpc (w : Word) : Byte := w.extractLsb' 0 8
/-- DST, bits [11:8], as a slot number (R65). -/
def fieldDst (w : Word) : Slot := Fin.ofNat 16 (w.extractLsb' 8 4).toNat
/-- SRC, bits [15:12], as a slot number (R65). -/
def fieldSrc (w : Word) : Slot := Fin.ofNat 16 (w.extractLsb' 12 4).toNat
/-- AUX, bits [24:16]. -/
def fieldAux (w : Word) : BitVec 9 := w.extractLsb' 16 9
/-- RSV, bits [31:25]. -/
def fieldRsv (w : Word) : BitVec 7 := w.extractLsb' 25 7

/-! ### The opcode map (R67) -/

/-- The OPC column. -/
def Opcode.code : Opcode → Byte
  | .nop => 0x00#8
  | .bytes2bits => 0x01#8
  | .bits2bytes => 0x02#8
  | .eqbits => 0x03#8
  | .checksum => 0x10#8
  | .ent2bits => 0x20#8
  | .bits2idx => 0x21#8
  | .idx2words => 0x22#8
  | .encode => 0x23#8
  | .words2idx => 0x24#8
  | .idx2bits => 0x25#8
  | .bits2ent => 0x26#8
  | .decode => 0x27#8
  | .prf => 0x30#8
  | .dmaster => 0x31#8
  | .dacct => 0x32#8
  | .dprroot => 0x33#8
  | .dprand => 0x34#8
  | .genent => 0x40#8
  | .zeroize => 0xFF#8

/-- Every row of the map, in its order. -/
def Opcode.all : List Opcode :=
  [.nop, .bytes2bits, .bits2bytes, .eqbits, .checksum, .ent2bits, .bits2idx, .idx2words, .encode, .words2idx,
   .idx2bits, .bits2ent, .decode, .prf, .dmaster, .dacct, .dprroot, .dprand, .genent, .zeroize]

/-- The DST column: is the field an operand? -/
def Opcode.usesDst : Opcode → Bool
  | .bits2ent | .decode | .prf | .dmaster | .dacct | .dprroot | .dprand | .genent => true
  | .nop | .bytes2bits | .bits2bytes | .eqbits | .checksum | .ent2bits | .bits2idx | .idx2words | .encode
  | .words2idx | .idx2bits | .zeroize => false

/-- The SRC column: is the field an operand? -/
def Opcode.usesSrc : Opcode → Bool
  | .ent2bits | .encode | .prf | .dmaster | .dacct | .dprroot | .dprand => true
  | .nop | .bytes2bits | .bits2bytes | .eqbits | .checksum | .bits2idx | .idx2words | .words2idx | .idx2bits
  | .bits2ent | .decode | .genent | .zeroize => false

/-- The AUX column: is the field an operand? -/
def Opcode.usesAux : Opcode → Bool
  | .checksum => true
  | .nop | .bytes2bits | .bits2bytes | .eqbits | .ent2bits | .bits2idx | .idx2words | .encode | .words2idx
  | .idx2bits | .bits2ent | .decode | .prf | .dmaster | .dacct | .dprroot | .dprand | .genent | .zeroize => false

/-- The match and the mask of each row, as R67 and the opcode table give them. -/
def opcodeTable : List (Word × Word) :=
  [(0x00000000#32, 0xFFFFFFFF#32), (0x00000001#32, 0xFFFFFFFF#32), (0x00000002#32, 0xFFFFFFFF#32),
   (0x00000003#32, 0xFFFFFFFF#32), (0x00000010#32, 0xFE00FFFF#32), (0x00000020#32, 0xFFFF0FFF#32),
   (0x00000021#32, 0xFFFFFFFF#32), (0x00000022#32, 0xFFFFFFFF#32), (0x00000023#32, 0xFFFF0FFF#32),
   (0x00000024#32, 0xFFFFFFFF#32), (0x00000025#32, 0xFFFFFFFF#32), (0x00000026#32, 0xFFFFF0FF#32),
   (0x00000027#32, 0xFFFFF0FF#32), (0x00000030#32, 0xFFFF00FF#32), (0x00000031#32, 0xFFFF00FF#32),
   (0x00000032#32, 0xFFFF00FF#32), (0x00000033#32, 0xFFFF00FF#32), (0x00000034#32, 0xFFFF00FF#32),
   (0x00000040#32, 0xFFFFF0FF#32), (0x000000FF#32, 0xFFFFFFFF#32)]

/-- The row whose OPC column holds the byte, if any. -/
def Opcode.ofCode (b : Byte) : Option Opcode := Opcode.all.find? fun o => o.code == b

/-- The command of a row with the given field values. -/
def Opcode.instr (o : Opcode) (dst src : Slot) (aux : BitVec 9) : Instr :=
  match o with
  | .nop => .nop
  | .bytes2bits => .bytes2bits
  | .bits2bytes => .bits2bytes
  | .eqbits => .eqbits
  | .checksum => .checksum aux
  | .ent2bits => .ent2bits src
  | .bits2idx => .bits2idx
  | .idx2words => .idx2words
  | .encode => .encode src
  | .words2idx => .words2idx
  | .idx2bits => .idx2bits
  | .bits2ent => .bits2ent dst
  | .decode => .decode dst
  | .prf => .prf dst src
  | .dmaster => .dmaster dst src
  | .dacct => .dacct dst src
  | .dprroot => .dprroot dst src
  | .dprand => .dprand dst src
  | .genent => .genent dst
  | .zeroize => .zeroize

/-! ### Decoding (R68) -/

/-- Why a word is no command: the three cases of R68. -/
inductive DecodeError where
  /-- OPC is not in the map. -/
  | unknownOpcode
  /-- RSV or a field the row marks 0 is nonzero. -/
  | reservedField
  /-- DACCT with `dst > 11`. -/
  | dacctDestination
  deriving DecidableEq, Repr

/-- The `info` that IllegalCommandError carries for the case (R68). -/
def DecodeError.info : DecodeError → Word
  | .unknownOpcode => 1#32
  | .reservedField => 2#32
  | .dacctDestination => 3#32

/-- RSV is nonzero, or a field the row marks 0 is (R66). -/
def reservedFieldSet (o : Opcode) (w : Word) : Bool :=
  fieldRsv w != 0#7 || (!o.usesDst && fieldDst w != 0) || (!o.usesSrc && fieldSrc w != 0)
    || (!o.usesAux && fieldAux w != 0#9)

/-- The command a word selects, or the first of R68's cases that makes it illegal. -/
def decode (w : Word) : Except DecodeError Instr :=
  match Opcode.ofCode (fieldOpc w) with
  | none => .error .unknownOpcode
  | some o =>
    if reservedFieldSet o w then .error .reservedField
    else
      let i := o.instr (fieldDst w) (fieldSrc w) (fieldAux w)
      if i.wellFormed then .ok i else .error .dacctDestination

/-! ### Encoding (R70) -/

/-- `zext_32(n) << 16 | S << 12 | D << 8 | OPC` (R70). -/
def assemble (o : Opcode) (dst src : Slot) (aux : BitVec 9) : Word :=
  (aux.setWidth 32 <<< 16) ||| (BitVec.ofNat 32 src.val <<< 12) ||| (BitVec.ofNat 32 dst.val <<< 8)
    ||| o.code.setWidth 32

/-- The command word of a command; fields it does not use are 0 (R66, R70). -/
def encode : Instr → Word
  | .nop => assemble .nop 0 0 0#9
  | .bytes2bits => assemble .bytes2bits 0 0 0#9
  | .bits2bytes => assemble .bits2bytes 0 0 0#9
  | .eqbits => assemble .eqbits 0 0 0#9
  | .checksum n => assemble .checksum 0 0 n
  | .ent2bits src => assemble .ent2bits 0 src 0#9
  | .bits2idx => assemble .bits2idx 0 0 0#9
  | .idx2words => assemble .idx2words 0 0 0#9
  | .encode src => assemble .encode 0 src 0#9
  | .words2idx => assemble .words2idx 0 0 0#9
  | .idx2bits => assemble .idx2bits 0 0 0#9
  | .bits2ent dst => assemble .bits2ent dst 0 0#9
  | .decode dst => assemble .decode dst 0 0#9
  | .prf dst src => assemble .prf dst src 0#9
  | .dmaster dst src => assemble .dmaster dst src 0#9
  | .dacct dst src => assemble .dacct dst src 0#9
  | .dprroot dst src => assemble .dprroot dst src 0#9
  | .dprand dst src => assemble .dprand dst src 0#9
  | .genent dst => assemble .genent dst 0 0#9
  | .zeroize => assemble .zeroize 0 0 0#9

/-! ### The table's numbering -/

/-- The command the decoder reads from a table row's bits: the row has one 32-bit word, bit 0 least significant, and
every bit above `nbits` is 0 (R63). -/
def decodeTableWord (nbits w : Nat) : Option Instr :=
  match decode (BitVec.ofNat 32 (w % 2 ^ nbits)) with
  | .ok i => some i
  | .error _ => none

/-! ### Command syntax (R70) -/

/-- `s0` to `s15`. -/
def slotText (s : Slot) : String := "s" ++ toString s.val

/-- The command as the assembler writes it: lower-case mnemonic, destination first. -/
def Instr.assembly : Instr → String
  | .nop => "nop"
  | .bytes2bits => "bytes2bits"
  | .bits2bytes => "bits2bytes"
  | .eqbits => "eqbits"
  | .checksum n => "checksum #" ++ toString n.toNat
  | .ent2bits src => "ent2bits " ++ slotText src
  | .bits2idx => "bits2idx"
  | .idx2words => "idx2words"
  | .encode src => "encode " ++ slotText src
  | .words2idx => "words2idx"
  | .idx2bits => "idx2bits"
  | .bits2ent dst => "bits2ent " ++ slotText dst
  | .decode dst => "decode " ++ slotText dst
  | .prf dst src => "prf " ++ slotText dst ++ ", " ++ slotText src
  | .dmaster dst src => "dmaster " ++ slotText dst ++ ", " ++ slotText src
  | .dacct dst src => "dacct " ++ slotText dst ++ ", " ++ slotText src
  | .dprroot dst src => "dprroot " ++ slotText dst ++ ", " ++ slotText src
  | .dprand dst src => "dprand " ++ slotText dst ++ ", " ++ slotText src
  | .genent dst => "genent " ++ slotText dst
  | .zeroize => "zeroize"

end Sys2Proof
end

