-- ==== Sys2Proof/Machine/Mnemonic.lean ====
section
/-! DEFINITION. The mnemonic codec's commands (spec/43_mnemonic.md). -/

namespace Sys2Proof.Machine

open Sys2Proof

/-- `IDX[k] <- zext_16(f k)` for k in 0..23. -/
def idxWrites (f : Fin 24 → Nat) : List Write := (List.finRange 24).map fun k => .idx k (BitVec.ofNat 16 (f k))

/-- `MN[k] <- LUT[f k]`, whole entries, for k in 0..23, and `MN_COUNT <- 24` (R92, R93). -/
def wordWrites (s : State) (f : Fin 24 → Nat) : List Write :=
  (List.finRange 24).map (fun k => Write.mn k (entryAt s (lutBase (f k)))) ++ [.mnCount 24#5]

/-- `SK[dst] <- e ++ zeros(32); SKLEN[dst] <- 32` (R38, R96, R97, R113). -/
def entropyWrites (dst : Slot) (e : Bytes) : List Write := [.sk dst (e ++ zeros 32), .sklen dst 32#7]

/-- ENT2BITS (R90). -/
def execEnt2bits (src : Slot) (s : State) : Result :=
  if (sklenAt s src).toNat ≠ 32 then .next (raise .entropyLength 0#32 s)
  else .next (stage (packA (mnBits (skb s src))) s)

/-- BITS2IDX (R91). -/
def execBits2idx (s : State) : Result :=
  if s.bitalen.toNat ≠ 264 then .next (raise .mnemonicBitLength 0#32 s)
  else .next (stage (idxWrites fun k => group (bitsA s) k.val) s)

/-- IDX2WORDS (R92). -/
def execIdx2words (s : State) : Result :=
  if s.wlCount.toNat ≠ 2048 then .next (raise .wordlistLength 0#32 s)
  else
    match firstBadIndex s with
    | some k => .next (raise .encodingRange (BitVec.ofNat 32 k.val) s)
    | none => .next (stage (wordWrites s fun k => (idxAt s k).toNat) s)

/-- ENCODE (R93). -/
def execEncode (src : Slot) (s : State) : Result :=
  if s.wlCount.toNat ≠ 2048 then .next (raise .wordlistLength 0#32 s)
  else if (sklenAt s src).toNat ≠ 32 then .next (raise .entropyLength 0#32 s)
  else
    let b := mnBits (skb s src)
    .next (stage (packA b ++ idxWrites (fun k => group b k.val) ++ wordWrites s (fun k => group b k.val)) s)

/-- WORDS2IDX (R94). -/
def execWords2idx (s : State) : Result :=
  if s.wlCount.toNat ≠ 2048 then .next (raise .wordlistLength 0#32 s)
  else if s.mnCount.toNat ≠ 24 then .next (raise .mnemonicLength 0#32 s)
  else
    match firstAbsentWord s with
    | some k => .next (raise .wordNotFound (BitVec.ofNat 32 k.val) s)
    | none => .next (stage (idxWrites (wordPosition s)) s)

/-- IDX2BITS (R95). -/
def execIdx2bits (s : State) : Result :=
  match firstBadIndex s with
  | some k => .next (raise .encodingRange (BitVec.ofNat 32 k.val) s)
  | none => .next (stage (packA (join ((List.finRange 24).map fun k => (idxAt s k).toNat))) s)

/-- BITS2ENT (R96). -/
def execBits2ent (dst : Slot) (s : State) : Result :=
  if s.bitalen.toNat ≠ 264 then .next (raise .mnemonicBitLength 0#32 s)
  else
    let csl := 264 / 33
    let e := bitsToBytes ((bitsA s).take (264 - csl))
    if equalBits (checksum e csl) ((bitsA s).drop (264 - csl)) then .next (stage (entropyWrites dst e) s)
    else .next (raise .checksumMismatch 0#32 s)

/-- DECODE (R97). -/
def execDecode (dst : Slot) (s : State) : Result :=
  if s.wlCount.toNat ≠ 2048 then .next (raise .wordlistLength 0#32 s)
  else if s.mnCount.toNat ≠ 24 then .next (raise .mnemonicLength 0#32 s)
  else
    match firstAbsentWord s with
    | some k => .next (raise .wordNotFound (BitVec.ofNat 32 k.val) s)
    | none =>
      let b := join ((List.finRange 24).map (wordPosition s))
      let e := bitsToBytes (b.take 256)
      if equalBits (checksum e 8) (b.drop 256) then
        .next (stage (idxWrites (wordPosition s) ++ packA b ++ entropyWrites dst e) s)
      else .next (raise .checksumMismatch 0#32 s)

end Sys2Proof.Machine
end

