-- ==== Sys2Proof/Machine/Entropy.lean ====
section
/-! DEFINITION. GENENT and the CSPRNG port (spec/46_entropy.md). An attempt starts with the engine's request, which
`execGenent` makes, and ends with the CSPRNG's answer or the timeout, which `rngAnswered` takes (assumption 6). -/

namespace Sys2Proof.Machine

open Sys2Proof

/-- `Ok(b)` as the 32 bytes, `Fail` as none: a short read, a signalled error and a timeout are all `Fail` (R112). -/
def rngResult : RngAnswer → Option Bytes
  | .ok b => some b.toList
  | .short _ => none
  | .error => none
  | .timeout => none

/-- GENENT's head of loop (R113): the third failure is behind it, or one more attempt's request goes out. While a
request is outstanding the engine waits for its answer (R114). -/
def execGenent (_dst : Slot) (s : State) : Result :=
  if s.rngPending then .next s
  else if s.attempts = 3 then .next (raise .entropyGeneration 3#32 s)
  else .next { s with attempts := s.attempts + 1, rngPending := true }

/-- The slot the in-flight GENENT names, if the in-flight command is one. -/
def genentSlot (s : State) : Option Slot :=
  match s.inflight with
  | none => none
  | some w =>
    match decode w with
    | .ok (.genent dst) => some dst
    | _ => none

/-- The outstanding attempt ends with an answer (R113, R114): `Ok(b)` stages the slot's writes; `Fail` leaves the loop
to its next attempt, and after the third attempt stages EntropyGenerationError(3). With no request outstanding the
answer is discarded (R112, R136). -/
def rngAnswered (a : RngAnswer) (s : State) : State :=
  if s.rngPending then
    match genentSlot s with
    | none => { s with rngPending := false }
    | some dst =>
      match rngResult a with
      | some b => stage (entropyWrites dst b) { s with rngPending := false }
      | none =>
        if s.attempts = 3 then raise .entropyGeneration 3#32 { s with rngPending := false }
        else { s with rngPending := false }
  else s

end Sys2Proof.Machine
end

