-- ==== Sys2Proof/Machine/Dispatch.lean ====
section
/-! DEFINITION. The execute step of each command, one arm per constructor. -/

namespace Sys2Proof.Machine

open Sys2Proof

def exec (i : Instr) (s : State) : Host.Outcome State Fault Refusal :=
  match i with
  | .nop => Sys2Proof.Machine.execNop s
  | .bytes2bits => Sys2Proof.Machine.execBytes2bits s
  | .bits2bytes => Sys2Proof.Machine.execBits2bytes s
  | .eqbits => Sys2Proof.Machine.execEqbits s
  | .checksum n => Sys2Proof.Machine.execChecksum n s
  | .ent2bits src => Sys2Proof.Machine.execEnt2bits src s
  | .bits2idx => Sys2Proof.Machine.execBits2idx s
  | .idx2words => Sys2Proof.Machine.execIdx2words s
  | .encode src => Sys2Proof.Machine.execEncode src s
  | .words2idx => Sys2Proof.Machine.execWords2idx s
  | .idx2bits => Sys2Proof.Machine.execIdx2bits s
  | .bits2ent dst => Sys2Proof.Machine.execBits2ent dst s
  | .decode dst => Sys2Proof.Machine.execDecode dst s
  | .prf dst src => Sys2Proof.Machine.execPrf dst src s
  | .dmaster dst src => Sys2Proof.Machine.execDmaster dst src s
  | .dacct dst src => Sys2Proof.Machine.execDacct dst src s
  | .dprroot dst src => Sys2Proof.Machine.execDprroot dst src s
  | .dprand dst src => Sys2Proof.Machine.execDprand dst src s
  | .genent dst => Sys2Proof.Machine.execGenent dst s
  | .zeroize => Sys2Proof.Machine.execZeroize s

end Sys2Proof.Machine
end

