-- ==== Sys2Proof/Machine/Flags.lean ====
section
/-! DEFINITION. STATUS, CTRL and ACK as words, and the interrupt output (spec/10_state.md R23 to R25, R43;
spec/60_exceptions.md R128). -/

namespace Sys2Proof.Machine

open Sys2Proof

/-- A flag at a bit position of a word. -/
def flagBit (b : Bool) (pos : Nat) : Word := (BitVec.ofBool b).setWidth 32 <<< pos

/-- STATUS as read: BUSY, DONE, ERR, EQ, CMDREJ, WBUSY in bits 0 to 5, ERRCODE in bits [15:8], the rest 0 (R24). -/
def statusWord (s : State) : Word :=
  flagBit s.busy 0 ||| flagBit s.done 1 ||| flagBit s.err 2 ||| flagBit s.eqFlag 3 ||| flagBit s.cmdrej 4
    ||| flagBit s.wbusy 5 ||| (s.errcode.setWidth 32 <<< 8)

/-- CTRL as read: IRQEN in bit 0, the rest 0 (R23). -/
def ctrlWord (s : State) : Word := flagBit s.irqen 0

/-- A write to CTRL: bit 0 is IRQEN, the rest is ignored (R23). -/
def writeCtrl (v : Word) (s : State) : State := { s with irqen := v.getLsbD 0 }

/-- A write to ACK: bits 0, 1 and 2 clear DONE, CMDREJ and WBUSY; a 0 bit leaves its flag, the rest is ignored
(R25). -/
def writeAck (v : Word) (s : State) : State :=
  { s with
    done := s.done && !v.getLsbD 0
    cmdrej := s.cmdrej && !v.getLsbD 1
    wbusy := s.wbusy && !v.getLsbD 2 }

/-- The interrupt output: the level DONE and IRQEN (R128). -/
def irq (s : State) : Bool := s.done && s.irqen

end Sys2Proof.Machine
end

