-- ==== Sys2Proof/Machine/HostPort.lean ====
section
/-! DEFINITION. The host register port: the address map, reads, writes and their answers (spec/20_memory.md R46 to
R55; spec/10_state.md R22 to R35; spec/70_reset_and_hazards.md R136, R139). -/

namespace Sys2Proof.Machine

open Sys2Proof

/-- What a 32-bit aligned offset selects (R47). -/
inductive Target where
  | id | ctrl | status | ack | cmd | errinfo | arg | wlCount | msglen | bitalen | bitblen | mnCount
  | sklen (i : Slot)
  | idx (k : Fin 24)
  | buffer (base : Nat)
  deriving DecidableEq, Repr

/-- The address map of R47; none where the offset is unmapped. -/
def target (off : Nat) : Option Target :=
  if off = 0x000 then some .id
  else if off = 0x004 then some .ctrl
  else if off = 0x008 then some .status
  else if off = 0x00C then some .ack
  else if off = 0x010 then some .cmd
  else if off = 0x014 then some .errinfo
  else if off = 0x018 then some .arg
  else if off = 0x01C then some .wlCount
  else if off = 0x020 then some .msglen
  else if off = 0x024 then some .bitalen
  else if off = 0x028 then some .bitblen
  else if off = 0x02C then some .mnCount
  else if 0x040 ≤ off ∧ off < 0x080 then some (.sklen (Fin.ofNat 16 ((off - 0x040) / 4)))
  else if 0x080 ≤ off ∧ off < 0x0E0 then some (.idx (Fin.ofNat 24 ((off - 0x080) / 4)))
  else if isBuffer off then some (.buffer off)
  else none

/-- The target of an access, or none where it is answered ERROR: `rst` asserted (R136), a size other than 32 bits
(R48), an offset that is no multiple of 4 (R49), an unmapped offset (R50). -/
def accessTarget (s : State) (off : BitVec 17) (size : Nat) : Option Target :=
  if s.rst then none
  else if size ≠ 4 then none
  else if off.toNat % 4 ≠ 0 then none
  else target off.toNat

/-- The word at an offset of a byte buffer, byte 0 in bits [7:0] (R52). -/
def readLanes (s : State) (a : Nat) : Word :=
  byteAt s (a + 3) ++ byteAt s (a + 2) ++ byteAt s (a + 1) ++ byteAt s a

/-- A word written to an offset of a byte buffer, bits [7:0] to byte 0 (R52). -/
def writeLanes (a : Nat) (v : Word) (s : State) : State :=
  writeBytes s a 4 [v.extractLsb' 0 8, v.extractLsb' 8 8, v.extractLsb' 16 8, v.extractLsb' 24 8]

/-- What a read returns (R22 to R35, R51, R52): narrow registers zero-extended (R28), ACK 0. No read changes anything
(R55). -/
def readTarget (s : State) : Target → Word
  | .id => Config.idValue
  | .ctrl => ctrlWord s
  | .status => statusWord s
  | .ack => 0#32
  | .cmd => s.cmd
  | .errinfo => s.errinfo
  | .arg => s.arg
  | .wlCount => s.wlCount.setWidth 32
  | .msglen => s.msglen.setWidth 32
  | .bitalen => s.bitalen.setWidth 32
  | .bitblen => s.bitblen.setWidth 32
  | .mnCount => s.mnCount.setWidth 32
  | .sklen i => (sklenAt s i).setWidth 32
  | .idx k => (idxAt s k).setWidth 32
  | .buffer a => readLanes s a

/-- A write to CMD: issue while idle (R122), rejected with CMDREJ while busy (R26, R139(a)). -/
def writeCmd (v : Word) (s : State) : State := if s.busy then { s with cmdrej := true } else issue v s

/-- A write to a data or parameter register: dropped with WBUSY while busy (R139(c)). -/
def whenIdle (f : State → State) (s : State) : State := if s.busy then { s with wbusy := true } else f s

/-- What a write does (R22 to R35, R51, R52, R139): narrow registers keep their low bits (R28), read-only registers
ignore it, CTRL and ACK take it even while busy. -/
def writeTarget (v : Word) (s : State) : Target → State
  | .id => s
  | .ctrl => writeCtrl v s
  | .status => s
  | .ack => writeAck v s
  | .cmd => writeCmd v s
  | .errinfo => s
  | .arg => whenIdle (fun s => { s with arg := v }) s
  | .wlCount => whenIdle (fun s => { s with wlCount := v.setWidth 12 }) s
  | .msglen => whenIdle (fun s => { s with msglen := v.setWidth 9 }) s
  | .bitalen => whenIdle (fun s => { s with bitalen := v.setWidth 10 }) s
  | .bitblen => whenIdle (fun s => { s with bitblen := v.setWidth 10 }) s
  | .mnCount => whenIdle (fun s => { s with mnCount := v.setWidth 5 }) s
  | .sklen i => whenIdle (fun s => { s with sklen := s.sklen.set i.val (v.setWidth 7) }) s
  | .idx k => whenIdle (fun s => { s with idx := s.idx.set k.val (v.setWidth 16) }) s
  | .buffer a => whenIdle (writeLanes a v) s

/-- The platform address of an offset of the map; the block itself sees offsets only (R46; assumption 13). -/
def platformAddress (off : BitVec 17) : Nat := Config.base + off.toNat

/-- One host access performed and answered (R57). An ERROR answer carries data 0 for a read and goes with no change of
the block (R48 to R50, R136). -/
def hostAccess (a : Access) (s : State) : State :=
  match a with
  | .read off size =>
    match accessTarget s off size with
    | none => { s with resp := some (.readError 0#32) }
    | some t => { s with resp := some (.readOkay (readTarget s t)) }
  | .write off size v =>
    match accessTarget s off size with
    | none => { s with resp := some .writeError }
    | some t => { writeTarget v s t with resp := some .writeOkay }

end Sys2Proof.Machine
end

