-- ==== Sys2Proof/Machine/Engine.lean ====
section
/-! DEFINITION. The engine's steps, the events around it, and what happens when no event is listed
(spec/00_scope.md R16; spec/60_exceptions.md R123 to R125; spec/70_reset_and_hazards.md R136, R142). -/

namespace Sys2Proof.Machine

open Sys2Proof

/-- An execute step (R123): the in-flight word is decoded; an illegal word stages IllegalCommandError with its info
(R68), a command runs. A busy engine without a word is no reachable state (assumption 7) and does nothing. -/
def executeStep (s : State) : Result :=
  match s.inflight with
  | none => .next s
  | some w =>
    match decode w with
    | .error e => .next (raise .illegalCommand e.info s)
    | .ok i => exec i s

/-- The engine's next step: none while idle, the complete step once something is staged, else an execute step
(R16, R123 to R125). -/
def engineStep (s : State) : Result :=
  if s.busy then
    match s.staged with
    | some _ => .next (complete s)
    | none => executeStep s
  else .next s

/-- The event is a host access. -/
def Event.isAccess : Event → Bool
  | .host _ => true
  | .engine => false
  | .rng _ => false
  | .rngStale _ => false
  | .rst _ => false
  | .powerUp => false

/-- R57 puts the engine's turn off: an engine step has taken effect since the last host access, and another access is
to come (assumption 2). -/
def turnWithheld (s : State) : Bool := s.turnTaken && s.env.any Event.isAccess

/-- The engine's turn among the listed events. Nothing happens while it is idle or waits for the CSPRNG (R114); between
two host accesses at most one of its steps takes effect (R57). -/
def engineTurn (s : State) : Result :=
  if s.busy && !s.rngPending then
    if turnWithheld s then .next s else engineStep { s with turnTaken := true }
  else .next s

/-- One event takes place. A host access opens the engine's next turn; the answer that ends a CSPRNG attempt belongs to
the attempt's one engine step, which has then taken effect (R57, R114; assumption 2). -/
def eventStep (e : Event) (s : State) : Result :=
  match e with
  | .host a => .next (hostAccess a { s with turnTaken := false })
  | .engine => engineTurn s
  | .rng a => .next (rngAnswered a { s with turnTaken := s.turnTaken || s.rngPending })
  | .rngStale _ => .next s
  | .rst level => .next (if level then resetBlock { s with rst := true } else { s with rst := false })
  | .powerUp => .next (powerUp s)

/-- No event is listed: an outstanding CSPRNG request gets the next free answer (U2, assumption 3), and otherwise the
engine takes its next step, as the fairness assumption of R142 says it does. No host access is to come, so R57 puts no
turn off. -/
def quietStep (s : State) : Result :=
  if s.rngPending then .next (rngAnswered (Config.rngAnswer s.draws) { s with draws := s.draws + 1 })
  else engineStep s

/-- What a command word needs to be the next thing the engine executes: the state an accepted issue of it leaves
(R122), outside reset, with no CSPRNG request outstanding and the engine's turn next, no step of its having taken
effect since the write (assumption 4). -/
def placeCommand (w : Word) (s : State) : State :=
  { issue w s with
    rst := false, rngPending := false, turnTaken := false
    env := match s.env with
      | [] => []
      | e :: rest => .engine :: e :: rest }

end Sys2Proof.Machine
end

