-- ==== Sys2Proof/Machine/Step.lean ====
section
/-! DEFINITION. One step of the machine: the next event of the environment's list, or the block on its own
(spec/00_scope.md R16; spec/20_memory.md R57). -/

namespace Sys2Proof.Machine

open Sys2Proof

/-- One step: the head of the list takes place, and an empty list leaves the move to the block (assumption 1). -/
def step (s : State) : Host.Outcome State Fault Refusal :=
  match s.env with
  | [] => quietStep s
  | e :: rest => eventStep e { s with env := rest }

/-- The state in which the command word with bits w is the next the engine executes. The block fetches nothing
(R21): a command comes in by a host write to CMD, and this stands for its accepted issue (assumption 4). -/
def State.withFetchWord (s : State) (nbits w : Nat) : State := placeCommand (BitVec.ofNat 32 (w % 2 ^ nbits)) s

end Sys2Proof.Machine
end

