-- ==== Sys2Proof/Safety.lean ====
section
/-! DEFINITION. What holds of every state a run reaches, and the terms the statements are put in. -/

namespace Sys2Proof.Machine

open Sys2Proof

/-- The invariant of the block. The memory is in canonical form; BUSY goes with a word in flight, which CMD holds
(R26, R122); a busy engine shows DONE, ERR, ERRCODE and ERRINFO clear (R122); without ERR there is no code or
information word (R24, R27, R120) and with it the code is one of R120's; staging and an outstanding CSPRNG request
happen only in flight, the request only for GENENT before anything is staged and after at least one attempt (R42, R113);
the block in reset is idle (R136). -/
structure BlockInvariant (s : State) : Prop where
  memory : s.mem.wf = true
  busy_inflight : s.busy = s.inflight.isSome
  inflight_cmd : ∀ w, s.inflight = some w → s.cmd = w
  busy_flags : s.busy = true → s.done = false ∧ s.err = false
  no_error : s.err = false → s.errcode = 0#8 ∧ s.errinfo = 0#32
  error_code : s.err = true → ∃ e : ErrorName, s.errcode = e.code
  staged_busy : s.staged.isSome = true → s.busy = true
  pending : s.rngPending = true →
    s.staged = none ∧ s.attempts ≠ 0 ∧ ∃ dst w, s.inflight = some w ∧ decode w = .ok (.genent dst)
  reset_idle : s.rst = true → s.busy = false

/-- The state after k steps, if no step stopped. -/
def runSteps : Nat → State → Option State
  | 0, s => some s
  | k + 1, s =>
    match step s with
    | .next t => runSteps k t
    | .fault _ => none
    | .refused _ => none

/-- A word read by the host: what `MemRead(off, 4)` answers (R12). -/
def memRead (s : State) (off : BitVec 17) : Option Response := (hostAccess (.read off 4) s).resp

/-- A word written by the host: what `MemWrite(off, 4, v)` leaves (R12). -/
def memWrite (s : State) (off : BitVec 17) (v : Word) : State := hostAccess (.write off 4 v) s

/-- Completed without error, slot dst alone was written: it holds v, SKLEN is n (R38, R124). -/
structure SlotWritten (s t : State) (dst : Slot) (v : Bytes) (n : BitVec 7) : Prop where
  registers : t = { finish s with sklen := s.sklen.set dst.val n, mem := t.mem }
  slot : slotBytes t dst = v
  others : ∀ a, ¬(skBase dst ≤ a ∧ a < skBase dst + 64) → byteAt t a = byteAt s a

/-- Completed without error, BITA alone was written: the bit string b and then zeros, BITALEN its length (R74, R124). -/
structure BitaWritten (s t : State) (b : Bits) : Prop where
  registers : t = { finish s with bitalen := t.bitalen, mem := t.mem }
  length : t.bitalen.toNat = b.length
  bits : packedBits t bitaBase 512 = b ++ zeroBits (512 - b.length)
  others : ∀ a, ¬(0x200 ≤ a ∧ a < 0x240) → byteAt t a = byteAt s a

/-- Completed without error, BITB alone was written: the bit string b and then zeros, BITBLEN its length (R74, R124). -/
structure BitbWritten (s t : State) (b : Bits) : Prop where
  registers : t = { finish s with bitblen := t.bitblen, mem := t.mem }
  length : t.bitblen.toNat = b.length
  bits : packedBits t bitbBase 512 = b ++ zeroBits (512 - b.length)
  others : ∀ a, ¬(0x240 ≤ a ∧ a < 0x280) → byteAt t a = byteAt s a

/-- Each word of MN stands in the LUT and f gives its least position there (R88). -/
def Positions (s : State) (f : Fin 24 → Nat) : Prop :=
  ∀ k : Fin 24, f k < 2048 ∧ lutWord s (f k) = mnWord s k.val ∧ ∀ j, j < f k → lutWord s j ≠ mnWord s k.val

/-- Word k of MN is the first that no LUT entry holds (R94, R97). -/
def FirstAbsent (s : State) (k : Fin 24) : Prop :=
  (∀ j, j < 2048 → lutWord s j ≠ mnWord s k.val) ∧
    ∀ k' : Fin 24, k' < k → ∃ j, j < 2048 ∧ lutWord s j = mnWord s k'.val

/-- Index register k is the first above 2047 (R92, R95). -/
def FirstOutOfRange (s : State) (k : Fin 24) : Prop :=
  2047 < (idxAt s k).toNat ∧ ∀ k' : Fin 24, k' < k → (idxAt s k').toNat ≤ 2047

/-- A 17-bit offset that the address map lists, by its ranges (R47). -/
def Mapped (off : Nat) : Prop :=
  off < 0x30 ∨ (0x40 ≤ off ∧ off < 0x80) ∨ (0x80 ≤ off ∧ off < 0xE0) ∨ (0x100 ≤ off ∧ off < 0x280) ∨
    (0x400 ≤ off ∧ off < 0xB00) ∨ (0x10000 ≤ off ∧ off < 0x20000)

/-- An offset of a data or parameter register or buffer (R139(c)). -/
def DataOffset (off : Nat) : Prop := 0x18 ≤ off ∧ Mapped off

end Sys2Proof.Machine
end

