-- ==== Sys2Proof/Certificates/Slice0/Obligations.lean ====
section
/-! DEFINITION. The statements for the provers. A command's result is read after its execute step and the complete
step that follows: `exec i s = .next t` gives what the execute step stages, `complete t` the state after the commit
(R123, R124). Where nothing else is said, `{ finish s with ... }` fixes every field but those listed, and the bytes of
memory are fixed by the clauses on `byteAt`. -/

open Sys2Proof Sys2Proof.Machine

/-! ### Encoding -/

/-- R64, R67, R70: the decoder reads back what the encoder writes, for every command and every operand. -/
def Obligations.DecodeReadsBackEncode : Prop := ∀ i : Instr, WellFormed i → decode (encode i) = .ok i

/-- R63, R66: a word that decodes is the word its command encodes to, so no bit of it is dropped. -/
def Obligations.EncodeReadsBackDecode : Prop :=
  ∀ (w : Word) (i : Instr), decode w = .ok i → WellFormed i ∧ encode i = w

/-- R67: a word decodes exactly where some row's mask and match accept it, DACCT's destination 12 to 15 apart. -/
def Obligations.DecodableWordsAreTheTables : Prop :=
  ∀ w : Word, (∃ i, decode w = .ok i) ↔
    (∃ r ∈ opcodeTable, w &&& r.2 = r.1) ∧ ¬(w &&& 0xFF#32 = 0x32#32 ∧ 11 < (w >>> 8 &&& 0xF#32).toNat)

/-- R68: an illegal word in flight stages IllegalCommandError and nothing else: info 1 for an OPC outside the map,
info 2 for a nonzero RSV or unused field, info 3 for DACCT with dst above 11. -/
def Obligations.IllegalWordsRaise : Prop :=
  ∀ (s : State) (w : Word), s.busy = true → s.staged = none → s.inflight = some w →
    ((∀ r ∈ opcodeTable, w &&& 0xFF#32 ≠ r.1) → engineStep s = .next (raise .illegalCommand 1#32 s)) ∧
    (∀ r ∈ opcodeTable, w &&& 0xFF#32 = r.1 → w &&& r.2 ≠ r.1 →
      engineStep s = .next (raise .illegalCommand 2#32 s)) ∧
    (w &&& 0xFFFF00FF#32 = 0x32#32 → 11 < (w >>> 8 &&& 0xF#32).toNat →
      engineStep s = .next (raise .illegalCommand 3#32 s))

/-- R67, R70: words written out from the encoding decode to the commands they stand for. -/
def Obligations.SampleWordsDecode : Prop :=
  decode 0x00000000#32 = .ok .nop ∧ decode 0x00000001#32 = .ok .bytes2bits ∧ decode 0x00080010#32 = .ok (.checksum 8#9) ∧
  decode 0x00003023#32 = .ok (.encode 3) ∧ decode 0x00000326#32 = .ok (.bits2ent 3) ∧
  decode 0x00001230#32 = .ok (.prf 2 1) ∧ decode 0x00007834#32 = .ok (.dprand 8 7) ∧
  decode 0x00000540#32 = .ok (.genent 5) ∧ decode 0x000000FF#32 = .ok .zeroize

/-! ### Steps -/

/-- R123, R124, R125, R57: what a step does with the head of the events. The engine's turn of a busy engine that waits
for no answer is its next step: the execute step of the command in flight while nothing is staged, then the complete
step. It is so when no event is listed, and at a listed turn unless R57 puts it off: while an engine step has taken
effect since the last host access and another access is to come, a turn changes nothing. A host access, and it alone,
opens the next turn. That a list of events says whose turn it is, is the model's choice (assumptions 1, 2). -/
def Obligations.StepRunsTheDecodedCommand : Prop :=
  (∀ s : State, s.busy = true → s.rngPending = false →
    (s.env = [] → step s = engineStep s ∧
      (∀ w i, s.staged = none → s.inflight = some w → decode w = .ok i → step s = exec i s) ∧
      ∀ st, s.staged = some st → step s = .next (complete s)) ∧
    ∀ rest, s.env = .engine :: rest →
      ((s.turnTaken = false ∨ ∀ a, .host a ∉ rest) →
        step s = engineStep { s with env := rest, turnTaken := true } ∧
        (∀ w i, s.staged = none → s.inflight = some w → decode w = .ok i →
          step s = exec i { s with env := rest, turnTaken := true }) ∧
        ∀ st, s.staged = some st → step s = .next (complete { s with env := rest, turnTaken := true })) ∧
      (s.turnTaken = true → (∃ a, .host a ∈ rest) → step s = .next { s with env := rest })) ∧
  (∀ (s : State) (rest : List Event), s.busy = false →
    (s.env = [] → s.rngPending = false → step s = .next s) ∧
    (s.env = .engine :: rest → step s = .next { s with env := rest })) ∧
  (∀ (s : State) (a : Access) (rest : List Event), s.env = .host a :: rest →
    step s = .next (hostAccess a { s with env := rest, turnTaken := false })) ∧
  ∀ s t : State, s.turnTaken = true → step s = .next t → t.turnTaken = true ∨ ∃ a, s.env.head? = some (.host a)

/-- A placed command word is the next thing the machine runs: the model's own placement (assumption 4). -/
def Obligations.PlacedWordRunsNext : Prop :=
  ∀ (s : State) (nbits w : Nat) (i : Instr), decodeTableWord nbits w = some i →
    (s.env = [] → step (s.withFetchWord nbits w) = exec i (s.withFetchWord nbits w)) ∧
    (s.env ≠ [] → step (s.withFetchWord nbits w) =
      exec i { s.withFetchWord nbits w with env := s.env, turnTaken := true })

/-- R121: no step stops: every state has a next one. -/
def Obligations.EveryStepHasANext : Prop := ∀ s : State, ∃ t, step s = .next t

/-- R45: the state after reset meets the invariant. -/
def Obligations.ResetMeetsInvariant : Prop := BlockInvariant State.reset

/-- Every step keeps the invariant, from every state that meets it. -/
def Obligations.StepKeepsInvariant : Prop := ∀ s t : State, BlockInvariant s → step s = .next t → BlockInvariant t

/-- R122, R26: a write to CMD while idle stores the word and issues it; while busy it is rejected, sets CMDREJ and
changes nothing else of the block; a read returns the last accepted word, 0 after reset. -/
def Obligations.CmdWriteIssuesOrIsRejected : Prop :=
  (∀ (s : State) (v : Word), s.rst = false →
    (s.busy = false → memWrite s 0x010#17 v =
      { s with
        cmd := v, inflight := some v, busy := true, done := false, err := false, errcode := 0#8, errinfo := 0#32
        attempts := 0, staged := none, resp := some .writeOkay }) ∧
    (s.busy = true → memWrite s 0x010#17 v = { s with cmdrej := true, resp := some .writeOkay }) ∧
    memRead s 0x010#17 = some (.readOkay s.cmd)) ∧
  State.reset.cmd = 0#32

/-- R139(c): a write to a data or parameter register while busy is dropped and sets WBUSY. -/
def Obligations.DataWriteWhileBusyIsDropped : Prop :=
  ∀ (s : State) (off : BitVec 17) (v : Word), s.rst = false → s.busy = true → off.toNat % 4 = 0 →
    DataOffset off.toNat → memWrite s off v = { s with wbusy := true, resp := some .writeOkay }

/-- R60, R139: while a command is in flight no host access changes anything but IRQEN, DONE, CMDREJ, WBUSY and the
port's answer, so its operands are those of the issue. -/
def Obligations.OperandsFrozenWhileBusy : Prop :=
  ∀ (a : Access) (s : State), s.busy = true →
    hostAccess a s =
      { s with
        irqen := (hostAccess a s).irqen, done := (hostAccess a s).done, cmdrej := (hostAccess a s).cmdrej
        wbusy := (hostAccess a s).wbusy, resp := (hostAccess a s).resp }

/-- R48, R49, R50: an access of another size, misaligned or unmapped gets an ERROR answer, data 0, and changes nothing
of the block; R136: so does every access while `rst` is asserted. -/
def Obligations.BadAccessIsAnsweredError : Prop :=
  ∀ (s : State) (off : BitVec 17) (size : Nat) (v : Word),
    (s.rst = true ∨ size ≠ 4 ∨ off.toNat % 4 ≠ 0 ∨ ¬Mapped off.toNat) →
      hostAccess (.read off size) s = { s with resp := some (.readError 0#32) } ∧
      hostAccess (.write off size v) s = { s with resp := some .writeError }

/-- R47, R55: every other access is answered OKAY, and a read changes nothing of the block. -/
def Obligations.GoodAccessIsAnsweredOkay : Prop :=
  ∀ (s : State) (off : BitVec 17) (v : Word), s.rst = false → off.toNat % 4 = 0 → Mapped off.toNat →
    (∃ d, hostAccess (.read off 4) s = { s with resp := some (.readOkay d) }) ∧
    (hostAccess (.write off 4 v) s).resp = some .writeOkay

/-- R24: what a read of STATUS returns, bit by bit. -/
def Obligations.StatusReadsItsFlags : Prop :=
  ∀ s : State, s.rst = false → ∃ v : Word, memRead s 0x008#17 = some (.readOkay v) ∧
    v.getLsbD 0 = s.busy ∧ v.getLsbD 1 = s.done ∧ v.getLsbD 2 = s.err ∧ v.getLsbD 3 = s.eqFlag ∧
    v.getLsbD 4 = s.cmdrej ∧ v.getLsbD 5 = s.wbusy ∧ v.getLsbD 6 = false ∧ v.getLsbD 7 = false ∧
    (∀ j, j < 8 → v.getLsbD (8 + j) = s.errcode.getLsbD j) ∧ ∀ j, 16 ≤ j → v.getLsbD j = false

/-- R22, R27, R51: ID reads its constant, ACK 0, ERRINFO its register, and writes to ID, STATUS and ERRINFO are answered
OKAY and change nothing, busy or not. -/
def Obligations.ReadOnlyRegistersIgnoreWrites : Prop :=
  ∀ (s : State) (v : Word), s.rst = false →
    memRead s 0x000#17 = some (.readOkay 0x41495031#32) ∧ memRead s 0x00C#17 = some (.readOkay 0#32) ∧
    memRead s 0x014#17 = some (.readOkay s.errinfo) ∧
    ∀ off ∈ [0x000#17, 0x008#17, 0x014#17], memWrite s off v = { s with resp := some .writeOkay }

/-- R25: a write to ACK clears exactly the flags whose bits are 1, busy or not, and ACK reads 0. -/
def Obligations.AckClearsItsFlags : Prop :=
  ∀ (s : State) (v : Word), s.rst = false →
    memWrite s 0x00C#17 v =
      { s with
        done := if v.getLsbD 0 then false else s.done
        cmdrej := if v.getLsbD 1 then false else s.cmdrej
        wbusy := if v.getLsbD 2 then false else s.wbusy
        resp := some .writeOkay } ∧
    memRead s 0x00C#17 = some (.readOkay 0#32)

/-- R28, R29, R139(e): what each parameter register reads as, busy or not: its field with zeros above. While idle a
write stores the low bits of what is written, all 32 of them in ARG, in that register, changes no other, and reads
back. -/
def Obligations.NarrowRegistersKeepLowBits : Prop :=
  (∀ s : State, s.rst = false →
    memRead s 0x018#17 = some (.readOkay s.arg) ∧
    memRead s 0x01C#17 = some (.readOkay (BitVec.ofNat 32 s.wlCount.toNat)) ∧
    memRead s 0x020#17 = some (.readOkay (BitVec.ofNat 32 s.msglen.toNat)) ∧
    memRead s 0x024#17 = some (.readOkay (BitVec.ofNat 32 s.bitalen.toNat)) ∧
    memRead s 0x028#17 = some (.readOkay (BitVec.ofNat 32 s.bitblen.toNat)) ∧
    memRead s 0x02C#17 = some (.readOkay (BitVec.ofNat 32 s.mnCount.toNat)) ∧
    (∀ i : Slot, memRead s (BitVec.ofNat 17 (0x040 + 4 * i.val)) =
      some (.readOkay (BitVec.ofNat 32 (sklenAt s i).toNat))) ∧
    ∀ k : Fin 24, memRead s (BitVec.ofNat 17 (0x080 + 4 * k.val)) =
      some (.readOkay (BitVec.ofNat 32 (idxAt s k).toNat))) ∧
  (∀ (s : State) (v : Word), s.rst = false → s.busy = false →
    memWrite s 0x018#17 v = { s with arg := v, resp := some .writeOkay } ∧
    memWrite s 0x01C#17 v = { s with wlCount := BitVec.ofNat 12 v.toNat, resp := some .writeOkay } ∧
    memWrite s 0x020#17 v = { s with msglen := BitVec.ofNat 9 v.toNat, resp := some .writeOkay } ∧
    memWrite s 0x024#17 v = { s with bitalen := BitVec.ofNat 10 v.toNat, resp := some .writeOkay } ∧
    memWrite s 0x028#17 v = { s with bitblen := BitVec.ofNat 10 v.toNat, resp := some .writeOkay } ∧
    memWrite s 0x02C#17 v = { s with mnCount := BitVec.ofNat 5 v.toNat, resp := some .writeOkay } ∧
    (∀ i : Slot, memWrite s (BitVec.ofNat 17 (0x040 + 4 * i.val)) v =
      { s with sklen := s.sklen.set i.val (BitVec.ofNat 7 v.toNat), resp := some .writeOkay }) ∧
    ∀ k : Fin 24, memWrite s (BitVec.ofNat 17 (0x080 + 4 * k.val)) v =
      { s with idx := s.idx.set k.val (BitVec.ofNat 16 v.toNat), resp := some .writeOkay }) ∧
  ∀ (s : State) (v : Word), s.rst = false → s.busy = false →
    memRead (memWrite s 0x018#17 v) 0x018#17 = some (.readOkay v) ∧
    memRead (memWrite s 0x01C#17 v) 0x01C#17 = some (.readOkay (BitVec.ofNat 32 (v.toNat % 2 ^ 12))) ∧
    memRead (memWrite s 0x020#17 v) 0x020#17 = some (.readOkay (BitVec.ofNat 32 (v.toNat % 2 ^ 9))) ∧
    memRead (memWrite s 0x024#17 v) 0x024#17 = some (.readOkay (BitVec.ofNat 32 (v.toNat % 2 ^ 10))) ∧
    memRead (memWrite s 0x028#17 v) 0x028#17 = some (.readOkay (BitVec.ofNat 32 (v.toNat % 2 ^ 10))) ∧
    memRead (memWrite s 0x02C#17 v) 0x02C#17 = some (.readOkay (BitVec.ofNat 32 (v.toNat % 2 ^ 5))) ∧
    (∀ i : Slot, memRead (memWrite s (BitVec.ofNat 17 (0x040 + 4 * i.val)) v) (BitVec.ofNat 17 (0x040 + 4 * i.val)) =
      some (.readOkay (BitVec.ofNat 32 (v.toNat % 2 ^ 7)))) ∧
    ∀ k : Fin 24, memRead (memWrite s (BitVec.ofNat 17 (0x080 + 4 * k.val)) v) (BitVec.ofNat 17 (0x080 + 4 * k.val)) =
      some (.readOkay (BitVec.ofNat 32 (v.toNat % 2 ^ 16)))

/-- R52: a read of a byte buffer's word, busy or not, returns its four bytes with the first in bits [7:0]; while a command
is in flight these are the committed bytes (R56, R139(e)). A word written while idle puts bits [7:0] to its first byte
and so on, the reserved bits of a LEN byte apart, and every other byte and register stays. -/
def Obligations.BufferWordsHaveLittleEndianLanes : Prop :=
  (∀ (s : State) (off : BitVec 17), s.rst = false → off.toNat % 4 = 0 → isBuffer off.toNat = true →
    memRead s off = some (.readOkay
      ((byteAt s off.toNat).setWidth 32 ||| (byteAt s (off.toNat + 1)).setWidth 32 <<< 8 |||
        (byteAt s (off.toNat + 2)).setWidth 32 <<< 16 ||| (byteAt s (off.toNat + 3)).setWidth 32 <<< 24))) ∧
  ∀ (s : State) (off : BitVec 17) (v : Word), s.rst = false → s.busy = false → off.toNat % 4 = 0 →
    isBuffer off.toNat = true →
    (∀ j, j < 4 → byteAt (memWrite s off v) (off.toNat + j) =
      BitVec.ofNat 8 (v.toNat >>> (8 * j)) &&& byteMask (off.toNat + j)) ∧
    (∀ a, ¬(off.toNat ≤ a ∧ a < off.toNat + 4) → byteAt (memWrite s off v) a = byteAt s a) ∧
    memWrite s off v = { s with mem := (memWrite s off v).mem, resp := some .writeOkay }

/-! ### Completion, errors, interrupt, reset -/

/-- R125: an error record's completion reports it and changes nothing else; so for every command and every error it
raises, each data register, buffer, length and EQ is as it was before the command. -/
def Obligations.ErrorCompletionChangesNoData : Prop :=
  (∀ (s : State) (e : ErrorName) (info : Word), s.busy = true → s.staged = some (.error e info) →
    engineStep s = .next
      { s with
        busy := false, inflight := none, staged := none, done := true, err := true, errcode := e.code
        errinfo := info }) ∧
  ∀ (i : Instr) (s t : State) (e : ErrorName) (info : Word), s.busy = true → s.staged = none →
    exec i s = .next t → t.staged = some (.error e info) →
      engineStep t = .next
        { s with
          busy := false, inflight := none, staged := none, done := true, err := true, errcode := e.code
          errinfo := info }

/-- R124: a successful completion applies the staged writes, returns the engine to idle and sets DONE; ERR, ERRCODE,
ERRINFO, CTRL, CMD, CMDREJ, WBUSY, WL_COUNT and the LUT stay. -/
def Obligations.SuccessfulCompletionAppliesTheWrites : Prop :=
  ∀ (s : State) (ws : List Write), s.busy = true → s.staged = some (.writes ws) →
    ∃ t, engineStep s = .next t ∧
      t = { applyWrites s ws with busy := false, inflight := none, staged := none, done := true } ∧
      t.err = s.err ∧ t.errcode = s.errcode ∧ t.errinfo = s.errinfo ∧ t.irqen = s.irqen ∧ t.cmd = s.cmd ∧
      t.cmdrej = s.cmdrej ∧ t.wbusy = s.wbusy ∧ t.wlCount = s.wlCount ∧
      ∀ a, 0x10000 ≤ a → a < 0x20000 → byteAt t a = byteAt s a

/-- R123, R139(e): until the commit an execute step changes hidden state alone: what is staged, the attempt count and
the pending request. -/
def Obligations.ExecuteStepOnlyStages : Prop :=
  ∀ (i : Instr) (s t : State), exec i s = .next t →
    t = { s with staged := t.staged, attempts := t.attempts, rngPending := t.rngPending }

/-- R120: the error codes. -/
def Obligations.ErrorCodesAsTabled : Prop :=
  [ErrorName.length, .wordlistLength, .entropyLength, .masterSeedLength, .seedLength, .mnemonicLength,
    .mnemonicBitLength, .bufferCapacity, .checksumLength, .encodingRange, .wordNotFound, .checksumMismatch,
    .entropyGeneration, .illegalCommand].map ErrorName.code =
  [0x10#8, 0x11#8, 0x12#8, 0x13#8, 0x14#8, 0x15#8, 0x16#8, 0x17#8, 0x18#8, 0x20#8, 0x30#8, 0x40#8, 0x50#8, 0xF0#8]

/-- R24 with decision D31: EQ is written by EQBITS and ZEROIZE only. -/
def Obligations.OnlyEqbitsAndZeroizeWriteEq : Prop :=
  ∀ (i : Instr) (s t : State), s.staged = none → exec i s = .next t → (complete t).eqFlag ≠ s.eqFlag →
    i = .eqbits ∨ i = .zeroize

/-- R23, R128, R139(b): the interrupt output is the level DONE and IRQEN; a write to CTRL, busy or not, sets IRQEN to
bit 0 of what is written and changes nothing else; CTRL reads IRQEN with zeros above; and the output rises only by a
completion, or by a write of 1 to CTRL.IRQEN. -/
def Obligations.IrqRisesOnlyByCompletionOrEnable : Prop :=
  (∀ s : State, irq s = true ↔ s.done = true ∧ s.irqen = true) ∧
  (∀ (s : State) (v : Word), s.rst = false →
    memWrite s 0x004#17 v = { s with irqen := v.getLsbD 0, resp := some .writeOkay } ∧
    memRead s 0x004#17 = some (.readOkay (if s.irqen then 1#32 else 0#32))) ∧
  ∀ s t : State, step s = .next t → irq s = false → irq t = true →
    (s.busy = true ∧ t.busy = false ∧ ∃ st, s.staged = some st) ∨
    ∃ v : Word, s.env.head? = some (.host (.write 0x004#17 4 v)) ∧ v.getLsbD 0 = true

/-- R41: the LUT changes only by a host write to the byte's word while idle, or by a power-up. -/
def Obligations.OnlyTheHostWritesTheLut : Prop :=
  ∀ (s t : State) (a : Nat), step s = .next t → 0x10000 ≤ a → a < 0x20000 → byteAt t a ≠ byteAt s a →
    (∃ (off : BitVec 17) (v : Word), s.env.head? = some (.host (.write off 4 v)) ∧ s.busy = false ∧
      off.toNat ≤ a ∧ a < off.toNat + 4) ∨
    s.env.head? = some .powerUp

/-- R45: after reset ID reads its constant and every other offset below the LUT that the map lists reads 0; the hidden
state is as stated and the interrupt is low. That these reads are answered OKAY rests on the reset input being released
in State.reset, the model's choice (assumption 10). -/
def Obligations.ResetStateAsTabled : Prop :=
  memRead State.reset 0x000#17 = some (.readOkay 0x41495031#32) ∧
  (∀ off : BitVec 17, off.toNat % 4 = 0 → Mapped off.toNat → 0 < off.toNat → off.toNat < 0x10000 →
    memRead State.reset off = some (.readOkay 0#32)) ∧
  State.reset.busy = false ∧ State.reset.inflight = none ∧ State.reset.staged = none ∧ State.reset.attempts = 0 ∧
  State.reset.rngPending = false ∧ irq State.reset = false

/-- R136: asserting `rst` puts every piece of state at its reset value, in-flight command, staged writes and
outstanding request included, and keeps the LUT; releasing it changes nothing else; power-up does as asserting it does,
but leaves every LUT byte an arbitrary value, that of the free value for this power-up (assumption 5), and the input's
level as it is. What is outside the block, the port's last answer and the events to come, stays: the model's choice
(assumption 10). -/
def Obligations.ResetAbandonsAndClears : Prop :=
  (∀ (s : State) (rest : List Event), s.env = .rst true :: rest → ∃ t, step s = .next t ∧
    t = { State.reset with
          mem := t.mem, rst := true, resp := s.resp, turnTaken := s.turnTaken, env := rest, draws := s.draws
          powerUps := s.powerUps } ∧
    (∀ a, 0x10000 ≤ a → a < 0x20000 → byteAt t a = byteAt s a) ∧
    ∀ a, a < 0x10000 → byteAt t a = 0#8) ∧
  (∀ (s : State) (rest : List Event), s.env = .rst false :: rest →
    step s = .next { s with env := rest, rst := false }) ∧
  ∀ (s : State) (rest : List Event), s.env = .powerUp :: rest → ∃ t, step s = .next t ∧
    t = { State.reset with
          rst := s.rst, resp := s.resp, turnTaken := s.turnTaken, env := rest, draws := s.draws
          powerUps := s.powerUps + 1 } ∧
    (∀ a, 0x10000 ≤ a → a < 0x20000 → byteAt t a = Config.lutPowerUp (s.powerUps + 1) a &&& byteMask a) ∧
    ∀ a, a < 0x10000 → byteAt t a = 0#8

/-- R142, R114: left alone, a busy block ends its command within seven steps, whatever the CSPRNG answers. That the
block moves when no event is listed, and how many steps it takes, is the model's choice (assumptions 1, 3, 6). -/
def Obligations.EveryCommandEnds : Prop :=
  ∀ s : State, BlockInvariant s → s.busy = true → s.env = [] →
    ∃ k t, k ≤ 7 ∧ runSteps k s = some t ∧ t.busy = false ∧ t.done = true

/-! ### Pure functions -/

/-- R76: BitsToBytes and BytesToBits are inverse to each other. -/
def Obligations.BitsAndBytesAreInverse : Prop :=
  (∀ b : Bytes, bitsToBytes (bytesToBits b) = b) ∧
  ∀ s : Bits, s.length % 8 = 0 → bytesToBits (bitsToBytes s) = s

/-- R87: the groups of a 264-bit string are below 2048 and joining them gives it back; so do the groups of a join. -/
def Obligations.GroupsAndJoinAreInverse : Prop :=
  (∀ s : Bits, s.length = 264 →
    (∀ k, k < 24 → group s k < 2048) ∧ join ((List.range 24).map (group s)) = s) ∧
  ∀ f : Fin 24 → Nat, (∀ k, f k < 2048) →
    (join ((List.finRange 24).map f)).length = 264 ∧
    ∀ k : Fin 24, group (join ((List.finRange 24).map f)) k.val = f k

/-- R84, R99: the hash has 32 bytes and the PRF 64, for every input. -/
def Obligations.HashAndPrfLengths : Prop :=
  (∀ b : Bytes, (sha256 b).length = 32) ∧ ∀ k x : Bytes, (prf k x).length = 64

/-- R106: the index as eight lower-case hexadecimal characters, most significant nibble first. -/
def Obligations.IndexIsEightHexCharacters : Prop :=
  ∀ v : Word, (hex8 v).length = 8 ∧ ∀ j, j < 8 →
    (hex8 v).getD j 0#8 =
      (if v.toNat / 16 ^ (7 - j) % 16 < 10 then BitVec.ofNat 8 (0x30 + v.toNat / 16 ^ (7 - j) % 16)
       else BitVec.ofNat 8 (0x57 + v.toNat / 16 ^ (7 - j) % 16))

/-! ### Commands -/

/-- R115: the word 0 is NOP and no other word with OPC 0 is legal; NOP completes and changes nothing else. -/
def Obligations.NopCompletes : Prop :=
  (∀ w : Word, decode w = .ok .nop ↔ w = 0x00000000#32) ∧
  (∀ w : Word, w &&& 0xFF#32 = 0#32 → w ≠ 0#32 → decode w = .error .reservedField) ∧
  ∀ s : State, ∃ t, exec .nop s = .next t ∧ complete t = finish s

/-- R78: BYTES2BITS. -/
def Obligations.Bytes2bitsResult : Prop :=
  (∀ w : Word, decode w = .ok .bytes2bits ↔ w = 0x00000001#32) ∧ ∀ s : State,
    (64 < s.msglen.toNat → exec .bytes2bits s = .next (raise .bufferCapacity 0#32 s)) ∧
    (s.msglen.toNat ≤ 64 → ∃ t, exec .bytes2bits s = .next t ∧
      BitaWritten s (complete t) (bytesToBits (msgb s)) ∧ (complete t).bitalen.toNat = 8 * s.msglen.toNat ∧
      ∀ j, j < s.msglen.toNat → byteAt (complete t) (0x200 + j) = byteAt s (0x100 + j))

/-- R79: BITS2BYTES. -/
def Obligations.Bits2bytesResult : Prop :=
  (∀ w : Word, decode w = .ok .bits2bytes ↔ w = 0x00000002#32) ∧ ∀ s : State,
    (512 < s.bitalen.toNat → exec .bits2bytes s = .next (raise .bufferCapacity 0#32 s)) ∧
    (s.bitalen.toNat ≤ 512 → s.bitalen.toNat % 8 ≠ 0 → exec .bits2bytes s = .next (raise .length 0#32 s)) ∧
    (s.bitalen.toNat ≤ 512 → s.bitalen.toNat % 8 = 0 → ∃ t, exec .bits2bytes s = .next t ∧
      complete t = { finish s with msglen := BitVec.ofNat 9 (s.bitalen.toNat / 8), mem := (complete t).mem } ∧
      (∀ j, j < 256 → byteAt (complete t) (0x100 + j) =
        if j < s.bitalen.toNat / 8 then byteAt s (0x200 + j) else 0#8) ∧
      ∀ a, ¬(0x100 ≤ a ∧ a < 0x200) → byteAt (complete t) a = byteAt s a)

/-- R80, R77: EQBITS. -/
def Obligations.EqbitsResult : Prop :=
  (∀ w : Word, decode w = .ok .eqbits ↔ w = 0x00000003#32) ∧ ∀ s : State,
    (512 < s.bitalen.toNat ∨ 512 < s.bitblen.toNat → exec .eqbits s = .next (raise .bufferCapacity 0#32 s)) ∧
    (s.bitalen.toNat ≤ 512 → s.bitblen.toNat ≤ 512 → ∃ t b, exec .eqbits s = .next t ∧
      complete t = { finish s with eqFlag := b } ∧
      (b = true ↔ s.bitalen = s.bitblen ∧ ∀ j, j < s.bitalen.toNat →
        (byteAt s (0x200 + j / 8)).getLsbD (7 - j % 8) = (byteAt s (0x240 + j / 8)).getLsbD (7 - j % 8)))

/-- R83, R81: CHECKSUM. -/
def Obligations.ChecksumResult : Prop :=
  ∀ (s : State) (n : BitVec 9),
    (∀ w : Word, decode w = .ok (.checksum n) ↔ w = 0x00000010#32 ||| BitVec.ofNat 32 n.toNat <<< 16) ∧
    (256 < s.msglen.toNat → exec (.checksum n) s = .next (raise .bufferCapacity 0#32 s)) ∧
    (s.msglen.toNat ≤ 256 → 256 < n.toNat → exec (.checksum n) s = .next (raise .checksumLength 0#32 s)) ∧
    (s.msglen.toNat ≤ 256 → n.toNat ≤ 256 → ∃ t, exec (.checksum n) s = .next t ∧
      BitbWritten s (complete t) ((bytesToBits (sha256 (msgb s))).take n.toNat) ∧
      (complete t).bitblen.toNat = n.toNat)

/-- R90, R86: ENT2BITS. -/
def Obligations.Ent2bitsResult : Prop :=
  ∀ (s : State) (src : Slot),
    (∀ w : Word, decode w = .ok (.ent2bits src) ↔ w = 0x00000020#32 ||| BitVec.ofNat 32 src.val <<< 12) ∧
    ((sklenAt s src).toNat ≠ 32 → exec (.ent2bits src) s = .next (raise .entropyLength 0#32 s)) ∧
    ((sklenAt s src).toNat = 32 → ∃ t, exec (.ent2bits src) s = .next t ∧
      BitaWritten s (complete t)
        (bytesToBits (skb s src) ++ (bytesToBits (sha256 (skb s src))).take 8) ∧
      (complete t).bitalen.toNat = 264)

/-- R91: BITS2IDX. -/
def Obligations.Bits2idxResult : Prop :=
  (∀ w : Word, decode w = .ok .bits2idx ↔ w = 0x00000021#32) ∧ ∀ s : State,
    (s.bitalen.toNat ≠ 264 → exec .bits2idx s = .next (raise .mnemonicBitLength 0#32 s)) ∧
    (s.bitalen.toNat = 264 → ∃ t, exec .bits2idx s = .next t ∧
      complete t = { finish s with idx := (complete t).idx } ∧
      ∀ k : Fin 24, (idxAt (complete t) k).toNat = group (bitsA s) k.val ∧ (idxAt (complete t) k).toNat ≤ 2047)

/-- R92: IDX2WORDS. -/
def Obligations.Idx2wordsResult : Prop :=
  (∀ w : Word, decode w = .ok .idx2words ↔ w = 0x00000022#32) ∧ ∀ s : State, s.mem.wf = true →
    (s.wlCount.toNat ≠ 2048 → exec .idx2words s = .next (raise .wordlistLength 0#32 s)) ∧
    (s.wlCount.toNat = 2048 → ∀ k, FirstOutOfRange s k →
      exec .idx2words s = .next (raise .encodingRange (BitVec.ofNat 32 k.val) s)) ∧
    (s.wlCount.toNat = 2048 → (∀ k, (idxAt s k).toNat ≤ 2047) → ∃ t, exec .idx2words s = .next t ∧
      complete t = { finish s with mnCount := 24#5, mem := (complete t).mem } ∧
      (∀ (k : Fin 24) (j : Nat), j < 32 →
        byteAt (complete t) (0x800 + 32 * k.val + j) = byteAt s (0x10000 + 32 * (idxAt s k).toNat + j)) ∧
      ∀ a, ¬(0x800 ≤ a ∧ a < 0xB00) → byteAt (complete t) a = byteAt s a)

/-- R93: ENCODE. -/
def Obligations.EncodeResult : Prop :=
  ∀ (s : State) (src : Slot), s.mem.wf = true →
    (∀ w : Word, decode w = .ok (.encode src) ↔ w = 0x00000023#32 ||| BitVec.ofNat 32 src.val <<< 12) ∧
    (s.wlCount.toNat ≠ 2048 → exec (.encode src) s = .next (raise .wordlistLength 0#32 s)) ∧
    (s.wlCount.toNat = 2048 → (sklenAt s src).toNat ≠ 32 →
      exec (.encode src) s = .next (raise .entropyLength 0#32 s)) ∧
    (s.wlCount.toNat = 2048 → (sklenAt s src).toNat = 32 → ∃ t, exec (.encode src) s = .next t ∧
      complete t =
        { finish s with
          bitalen := 264#10, idx := (complete t).idx, mnCount := 24#5, mem := (complete t).mem } ∧
      packedBits (complete t) bitaBase 512 = mnBits (skb s src) ++ zeroBits 248 ∧
      (∀ k : Fin 24, (idxAt (complete t) k).toNat = group (mnBits (skb s src)) k.val) ∧
      (∀ (k : Fin 24) (j : Nat), j < 32 → byteAt (complete t) (0x800 + 32 * k.val + j) =
        byteAt s (0x10000 + 32 * group (mnBits (skb s src)) k.val + j)) ∧
      ∀ a, ¬(0x200 ≤ a ∧ a < 0x240) → ¬(0x800 ≤ a ∧ a < 0xB00) → byteAt (complete t) a = byteAt s a)

/-- R94, R88: WORDS2IDX. -/
def Obligations.Words2idxResult : Prop :=
  (∀ w : Word, decode w = .ok .words2idx ↔ w = 0x00000024#32) ∧ ∀ s : State,
    (s.wlCount.toNat ≠ 2048 → exec .words2idx s = .next (raise .wordlistLength 0#32 s)) ∧
    (s.wlCount.toNat = 2048 → s.mnCount.toNat ≠ 24 → exec .words2idx s = .next (raise .mnemonicLength 0#32 s)) ∧
    (s.wlCount.toNat = 2048 → s.mnCount.toNat = 24 → ∀ k, FirstAbsent s k →
      exec .words2idx s = .next (raise .wordNotFound (BitVec.ofNat 32 k.val) s)) ∧
    (s.wlCount.toNat = 2048 → s.mnCount.toNat = 24 → ∀ f, Positions s f → ∃ t, exec .words2idx s = .next t ∧
      complete t = { finish s with idx := (complete t).idx } ∧
      ∀ k : Fin 24, (idxAt (complete t) k).toNat = f k)

/-- R95: IDX2BITS. -/
def Obligations.Idx2bitsResult : Prop :=
  (∀ w : Word, decode w = .ok .idx2bits ↔ w = 0x00000025#32) ∧ ∀ s : State,
    (∀ k, FirstOutOfRange s k → exec .idx2bits s = .next (raise .encodingRange (BitVec.ofNat 32 k.val) s)) ∧
    ((∀ k, (idxAt s k).toNat ≤ 2047) → ∃ t, exec .idx2bits s = .next t ∧
      BitaWritten s (complete t) (join ((List.finRange 24).map fun k => (idxAt s k).toNat)) ∧
      (complete t).bitalen.toNat = 264)

/-- R96: BITS2ENT. -/
def Obligations.Bits2entResult : Prop :=
  ∀ (s : State) (dst : Slot),
    (∀ w : Word, decode w = .ok (.bits2ent dst) ↔ w = 0x00000026#32 ||| BitVec.ofNat 32 dst.val <<< 8) ∧
    (s.bitalen.toNat ≠ 264 → exec (.bits2ent dst) s = .next (raise .mnemonicBitLength 0#32 s)) ∧
    (s.bitalen.toNat = 264 → (sha256 (readBytes s bitaBase 32)).getD 0 0#8 ≠ byteAt s (0x200 + 32) →
      exec (.bits2ent dst) s = .next (raise .checksumMismatch 0#32 s)) ∧
    (s.bitalen.toNat = 264 → (sha256 (readBytes s bitaBase 32)).getD 0 0#8 = byteAt s (0x200 + 32) →
      ∃ t, exec (.bits2ent dst) s = .next t ∧
        SlotWritten s (complete t) dst (readBytes s bitaBase 32 ++ zeros 32) 32#7)

/-- R97: DECODE. -/
def Obligations.DecodeResult : Prop :=
  ∀ (s : State) (dst : Slot),
    (∀ w : Word, decode w = .ok (.decode dst) ↔ w = 0x00000027#32 ||| BitVec.ofNat 32 dst.val <<< 8) ∧
    (s.wlCount.toNat ≠ 2048 → exec (.decode dst) s = .next (raise .wordlistLength 0#32 s)) ∧
    (s.wlCount.toNat = 2048 → s.mnCount.toNat ≠ 24 → exec (.decode dst) s = .next (raise .mnemonicLength 0#32 s)) ∧
    (s.wlCount.toNat = 2048 → s.mnCount.toNat = 24 → ∀ k, FirstAbsent s k →
      exec (.decode dst) s = .next (raise .wordNotFound (BitVec.ofNat 32 k.val) s)) ∧
    (s.wlCount.toNat = 2048 → s.mnCount.toNat = 24 → ∀ f, Positions s f →
      (checksum (bitsToBytes ((join ((List.finRange 24).map f)).take 256)) 8 ≠
          (join ((List.finRange 24).map f)).drop 256 →
        exec (.decode dst) s = .next (raise .checksumMismatch 0#32 s)) ∧
      (checksum (bitsToBytes ((join ((List.finRange 24).map f)).take 256)) 8 =
          (join ((List.finRange 24).map f)).drop 256 →
        ∃ t, exec (.decode dst) s = .next t ∧
          complete t =
            { finish s with
              bitalen := 264#10, idx := (complete t).idx, sklen := s.sklen.set dst.val 32#7
              mem := (complete t).mem } ∧
          (∀ k : Fin 24, (idxAt (complete t) k).toNat = f k) ∧
          packedBits (complete t) bitaBase 512 = join ((List.finRange 24).map f) ++ zeroBits 248 ∧
          slotBytes (complete t) dst =
            bitsToBytes ((join ((List.finRange 24).map f)).take 256) ++ zeros 32 ∧
          ∀ a, ¬(0x200 ≤ a ∧ a < 0x240) → ¬(skBase dst ≤ a ∧ a < skBase dst + 64) →
            byteAt (complete t) a = byteAt s a))

/-- R101: PRF. -/
def Obligations.PrfResult : Prop :=
  ∀ (s : State) (dst src : Slot),
    (∀ w : Word, decode w = .ok (.prf dst src) ↔
      w = 0x00000030#32 ||| BitVec.ofNat 32 src.val <<< 12 ||| BitVec.ofNat 32 dst.val <<< 8) ∧
    (64 < (sklenAt s src).toNat ∨ 256 < s.msglen.toNat →
      exec (.prf dst src) s = .next (raise .bufferCapacity 0#32 s)) ∧
    ((sklenAt s src).toNat ≤ 64 → s.msglen.toNat ≤ 256 → ∃ t, exec (.prf dst src) s = .next t ∧
      SlotWritten s (complete t) dst (kmac256 (skb s src) (msgb s) 512 (ascii "ABELIANPRF")) 64#7)

/-- R107: DMASTER. -/
def Obligations.DmasterResult : Prop :=
  ∀ (s : State) (dst src : Slot),
    (∀ w : Word, decode w = .ok (.dmaster dst src) ↔
      w = 0x00000031#32 ||| BitVec.ofNat 32 src.val <<< 12 ||| BitVec.ofNat 32 dst.val <<< 8) ∧
    ((sklenAt s src).toNat ≠ 32 → exec (.dmaster dst src) s = .next (raise .entropyLength 0#32 s)) ∧
    ((sklenAt s src).toNat = 32 → 256 < s.msglen.toNat →
      exec (.dmaster dst src) s = .next (raise .bufferCapacity 0#32 s)) ∧
    ((sklenAt s src).toNat = 32 → s.msglen.toNat ≤ 256 → ∃ t, exec (.dmaster dst src) s = .next t ∧
      SlotWritten s (complete t) dst (prf (skb s src) (ascii "AccountMasterSeed" ++ msgb s)) 64#7)

/-- R108: DACCT. All five outputs come from the master seed as it stood before the command. -/
def Obligations.DacctResult : Prop :=
  ∀ (s : State) (dst src : Slot),
    (∀ w : Word, decode w = .ok (.dacct dst src) ↔
      dst.val ≤ 11 ∧ w = 0x00000032#32 ||| BitVec.ofNat 32 src.val <<< 12 ||| BitVec.ofNat 32 dst.val <<< 8) ∧
    (dst.val ≤ 11 → (sklenAt s src).toNat ≠ 64 →
      exec (.dacct dst src) s = .next (raise .masterSeedLength 0#32 s)) ∧
    (dst.val ≤ 11 → (sklenAt s src).toNat = 64 → ∃ t, exec (.dacct dst src) s = .next t ∧
      complete t = { finish s with sklen := (complete t).sklen, mem := (complete t).mem } ∧
      (∀ k : Slot, (dst.val ≤ k.val ∧ k.val < dst.val + 5 →
          sklenAt (complete t) k = 64#7 ∧
          slotBytes (complete t) k = prf (skb s src)
            ([ascii "CoinSpendKeyRootSeed", ascii "CoinSerialNumberKeyRootSeed", ascii "CoinDetectorRootKey",
              ascii "CoinValueKeyRootSeed", ascii "CoinValueKeyRootSeedAut"].getD (k.val - dst.val) [])) ∧
        (¬(dst.val ≤ k.val ∧ k.val < dst.val + 5) → sklenAt (complete t) k = sklenAt s k)) ∧
      ∀ a, ¬(skBase dst ≤ a ∧ a < skBase dst + 320) → byteAt (complete t) a = byteAt s a)

/-- R109: DPRROOT. -/
def Obligations.DprrootResult : Prop :=
  ∀ (s : State) (dst src : Slot),
    (∀ w : Word, decode w = .ok (.dprroot dst src) ↔
      w = 0x00000033#32 ||| BitVec.ofNat 32 src.val <<< 12 ||| BitVec.ofNat 32 dst.val <<< 8) ∧
    ((sklenAt s src).toNat ≠ 64 → exec (.dprroot dst src) s = .next (raise .masterSeedLength 0#32 s)) ∧
    ((sklenAt s src).toNat = 64 → ∃ t, exec (.dprroot dst src) s = .next t ∧
      SlotWritten s (complete t) dst (prf (skb s src) (ascii "PublicRandRootSeed")) 64#7)

/-- R110: DPRAND. -/
def Obligations.DprandResult : Prop :=
  ∀ (s : State) (dst src : Slot),
    (∀ w : Word, decode w = .ok (.dprand dst src) ↔
      w = 0x00000034#32 ||| BitVec.ofNat 32 src.val <<< 12 ||| BitVec.ofNat 32 dst.val <<< 8) ∧
    ((sklenAt s src).toNat ≠ 64 → exec (.dprand dst src) s = .next (raise .seedLength 0#32 s)) ∧
    ((sklenAt s src).toNat = 64 → ∃ t, exec (.dprand dst src) s = .next t ∧
      SlotWritten s (complete t) dst (prf (skb s src) (hex8 s.arg)) 64#7)

/-- R110: DPRAND reads no state other than the root seed, its length and ARG. -/
def Obligations.DprandReadsRootSeedAndArgOnly : Prop :=
  ∀ (s u : State) (dst src : Slot), sklenAt u src = sklenAt s src → u.arg = s.arg →
    (∀ j, j < 64 → byteAt u (skBase src + j) = byteAt s (skBase src + j)) →
    ∃ t v, exec (.dprand dst src) s = .next t ∧ exec (.dprand dst src) u = .next v ∧ v.staged = t.staged

/-- R112, R113, R114: GENENT. The execute step makes a request and counts it; an answer of 32 bytes is what the commit
puts into the slot; a failed attempt before the third leads to the next request, the third to
EntropyGenerationError(3). While a request is outstanding the execute step waits and the engine's turn changes nothing.
The event of an answer takes it, and the free answer is taken where no event is listed; with no request outstanding an
answer is discarded, and so is every answer to a request that timed out or was abandoned. That an attempt is two steps,
the request and the answer, and that the list is followed by free answers, is the model's choice
(assumptions 1, 3, 6, 8). -/
def Obligations.GenentResult : Prop :=
  (∀ (s : State) (dst : Slot) (w : Word), s.busy = true → s.staged = none → s.inflight = some w →
    decode w = .ok (.genent dst) → s.rngPending = false → s.attempts ≠ 3 →
    ∃ t, exec (.genent dst) s = .next t ∧ t = { s with attempts := s.attempts + 1, rngPending := true } ∧
      (∀ b : Vector Byte 32, ∃ u, u = { finish s with
            attempts := s.attempts + 1, sklen := s.sklen.set dst.val 32#7, rngPending := false
            mem := (complete (rngAnswered (.ok b) t)).mem } ∧
        complete (rngAnswered (.ok b) t) = u ∧ slotBytes u dst = b.toList ++ zeros 32 ∧
        ∀ a, ¬(skBase dst ≤ a ∧ a < skBase dst + 64) → byteAt u a = byteAt s a) ∧
      ∀ r : RngAnswer, (∀ b, r ≠ .ok b) →
        rngAnswered r t =
          if s.attempts = 2 then raise .entropyGeneration 3#32 { s with attempts := 3 }
          else { s with attempts := s.attempts + 1 }) ∧
  (∀ (s : State) (dst : Slot), s.rngPending = false → s.attempts = 3 →
    exec (.genent dst) s = .next (raise .entropyGeneration 3#32 s)) ∧
  (∀ s : State, s.rngPending = true →
    (∀ dst, exec (.genent dst) s = .next s) ∧
    (∀ rest, s.env = .engine :: rest → step s = .next { s with env := rest }) ∧
    (∀ r rest, s.env = .rng r :: rest → step s = .next (rngAnswered r { s with env := rest, turnTaken := true })) ∧
    (s.env = [] → step s = .next (rngAnswered (Config.rngAnswer s.draws) { s with draws := s.draws + 1 }))) ∧
  (∀ (s : State) (r : RngAnswer) (rest : List Event), s.rngPending = false → s.env = .rng r :: rest →
    step s = .next { s with env := rest }) ∧
  ∀ (s : State) (r : RngAnswer) (rest : List Event), s.env = .rngStale r :: rest →
    step s = .next { s with env := rest }

/-- R116: ZEROIZE. -/
def Obligations.ZeroizeErases : Prop :=
  (∀ w : Word, decode w = .ok .zeroize ↔ w = 0x000000FF#32) ∧ ∀ s : State, ∃ t, exec .zeroize s = .next t ∧
    complete t =
      { finish s with
        eqFlag := false, arg := 0#32, msglen := 0#9, bitalen := 0#10, bitblen := 0#10, mnCount := 0#5
        sklen := Vector.replicate 16 0#7, idx := Vector.replicate 24 0#16, mem := (complete t).mem } ∧
    (∀ a, (0x100 ≤ a ∧ a < 0x280) ∨ (0x400 ≤ a ∧ a < 0xB00) → byteAt (complete t) a = 0#8) ∧
    ∀ a, 0x10000 ≤ a → a < 0x20000 → byteAt (complete t) a = byteAt s a

/-! ### Sequences of commands -/

/-- Spec 43, introduction, and R93: ENCODE leaves what ENT2BITS, then BITS2IDX, then IDX2WORDS leave, each run by its
execute and complete steps. The issue steps between them are not part of it, so CMD, which each issue writes, is not
compared. -/
def Obligations.EncodeIsItsStepCommands : Prop :=
  ∀ (s : State) (src : Slot), s.wlCount.toNat = 2048 → (sklenAt s src).toNat = 32 →
    ∃ t t1 t2 t3, exec (.encode src) s = .next t ∧ exec (.ent2bits src) s = .next t1 ∧
      exec .bits2idx (complete t1) = .next t2 ∧ exec .idx2words (complete t2) = .next t3 ∧
      complete t3 = { complete t with mem := (complete t3).mem } ∧
      ∀ a, byteAt (complete t3) a = byteAt (complete t) a

/-- Spec 43, introduction, and R97: DECODE of a mnemonic whose words and checksum hold leaves what WORDS2IDX, then
IDX2BITS, then BITS2ENT leave, each run by its execute and complete steps. The issue steps between them are not part of
it, so CMD, which each issue writes, is not compared. -/
def Obligations.DecodeIsItsStepCommands : Prop :=
  ∀ (s : State) (dst : Slot) (f : Fin 24 → Nat), s.wlCount.toNat = 2048 → s.mnCount.toNat = 24 → Positions s f →
    checksum (bitsToBytes ((join ((List.finRange 24).map f)).take 256)) 8 =
      (join ((List.finRange 24).map f)).drop 256 →
    ∃ t t1 t2 t3, exec (.decode dst) s = .next t ∧ exec .words2idx s = .next t1 ∧
      exec .idx2bits (complete t1) = .next t2 ∧ exec (.bits2ent dst) (complete t2) = .next t3 ∧
      complete t3 = { complete t with mem := (complete t3).mem } ∧
      ∀ a, byteAt (complete t3) a = byteAt (complete t) a

/-- R98: ENCODE and then DECODE give the entropy back, for a word list of pairwise distinct words. Neither reports an
error: ERR stays as it was, and each issue before an execute step has cleared it (R122). -/
def Obligations.DecodeInvertsEncode : Prop :=
  ∀ (s : State) (src dst : Slot), s.wlCount.toNat = 2048 → (sklenAt s src).toNat = 32 →
    (∀ i j, i < 2048 → j < 2048 → lutWord s i = lutWord s j → i = j) →
    ∃ t u, exec (.encode src) s = .next t ∧ exec (.decode dst) (complete t) = .next u ∧
      (complete u).err = s.err ∧ skb (complete u) dst = skb s src

/-- R97, corner cases: two phrases that differ in a word's position and both pass the checksum decode to different
entropies, so a substituted word changes the entropy or is refused. -/
def Obligations.SubstitutedWordsDecodeDifferently : Prop :=
  ∀ (s u : State) (dst : Slot) (f g : Fin 24 → Nat),
    s.wlCount.toNat = 2048 → s.mnCount.toNat = 24 → Positions s f →
    u.wlCount.toNat = 2048 → u.mnCount.toNat = 24 → Positions u g → (∃ k, f k ≠ g k) →
    checksum (bitsToBytes ((join ((List.finRange 24).map f)).take 256)) 8 =
      (join ((List.finRange 24).map f)).drop 256 →
    checksum (bitsToBytes ((join ((List.finRange 24).map g)).take 256)) 8 =
      (join ((List.finRange 24).map g)).drop 256 →
    ∃ t v, exec (.decode dst) s = .next t ∧ exec (.decode dst) u = .next v ∧
      skb (complete t) dst ≠ skb (complete v) dst

/-- R107 to R110, and R111, which the spec derives from them: the derivation tree as a command sequence. -/
def Obligations.DerivationTreeSequence : Prop :=
  ∀ s : State, (sklenAt s 0).toNat = 32 → s.msglen.toNat ≤ 256 →
    ∃ t1 t2 t3 t4, exec (.dmaster 1 0) s = .next t1 ∧ exec (.dacct 2 1) (complete t1) = .next t2 ∧
      exec (.dprroot 7 1) (complete t2) = .next t3 ∧ exec (.dprand 8 7) (complete t3) = .next t4 ∧
      slotBytes (complete t4) 1 = prf (skb s 0) (labelMaster ++ msgb s) ∧
      (∀ j, j < 5 → slotBytes (complete t4) (Fin.ofNat 16 (2 + j)) =
        prf (slotBytes (complete t4) 1) (labelsAcct.getD j [])) ∧
      slotBytes (complete t4) 7 = prf (slotBytes (complete t4) 1) labelPrRoot ∧
      slotBytes (complete t4) 8 = prf (slotBytes (complete t4) 7) (hex8 s.arg)
end

