-- ==== Sys2Proof/Laws/Bits.lean ====
section
/-! SUPPORT. Lengths and single bits of the pure functions. -/

namespace Sys2Proof.Machine

open Sys2Proof

@[simp] theorem length_zeros (n : Nat) : (zeros n).length = n := List.length_replicate
@[simp] theorem getD_zeros (n j : Nat) : (zeros n).getD j 0#8 = 0#8 := by
  rw [zeros, List.getD_eq_getElem?_getD, List.getElem?_replicate]
  split <;> rfl
@[simp] theorem length_zeroBits (n : Nat) : (zeroBits n).length = n := List.length_replicate
@[simp] theorem length_bitsN (n v : Nat) : (bitsN n v).length = n := by simp [bitsN]
@[simp] theorem length_byteBits (b : Byte) : (byteBits b).length = 8 := rfl
@[simp] theorem length_beBytes (n v : Nat) : (beBytes n v).length = n := by simp [beBytes]
@[simp] theorem length_bitsToBytes (s : Bits) : (bitsToBytes s).length = s.length / 8 := by simp [bitsToBytes]

@[simp] theorem bytesToBits_nil : bytesToBits [] = [] := rfl
@[simp] theorem bytesToBits_cons (x : Byte) (b : Bytes) : bytesToBits (x :: b) = byteBits x ++ bytesToBits b := rfl

theorem bytesToBits_append (a b : Bytes) : bytesToBits (a ++ b) = bytesToBits a ++ bytesToBits b :=
  List.flatMap_append ..

@[simp] theorem length_bytesToBits (b : Bytes) : (bytesToBits b).length = 8 * b.length := by
  induction b with
  | nil => rfl
  | cons x b ih => rw [bytesToBits_cons, List.length_append, length_byteBits, ih, List.length_cons]; omega

/-- The rule of R75: bit 8i + j is bit 7 - j of byte i. -/
theorem getD_bytesToBits (b : Bytes) (i j : Nat) (hj : j < 8) :
    (bytesToBits b).getD (8 * i + j) false = (b.getD i 0#8).getLsbD (7 - j) := by
  induction b generalizing i with
  | nil => simp
  | cons x b ih =>
    cases i with
    | zero =>
      have hget : (byteBits x)[j]? = some (x.getLsbD (7 - j)) := by simp [byteBits, hj]
      rw [bytesToBits_cons, List.getD_eq_getElem?_getD, Nat.mul_zero, Nat.zero_add,
        List.getElem?_append_left (by simpa using hj), hget]
      simp
    | succ i =>
      have h := ih i
      rw [List.getD_eq_getElem?_getD] at h
      rw [bytesToBits_cons, List.getD_eq_getElem?_getD, List.getElem?_append_right (by simp; omega),
        show 8 * (i + 1) + j - (byteBits x).length = 8 * i + j by simp; omega, h]
      simp

theorem uint_append (s t : Bits) : uint (s ++ t) = uint s * 2 ^ t.length + uint t := by
  induction s with
  | nil => simp [uint]
  | cons b s ih => simp only [List.cons_append, uint, ih, List.length_append, pow_add]; ring

theorem uint_lt (s : Bits) : uint s < 2 ^ s.length := by
  induction s with
  | nil => simp [uint]
  | cons b s ih =>
    simp only [uint, List.length_cons, pow_succ]
    cases b <;> simp <;> omega

theorem length_join (l : List Nat) : (join l).length = 11 * l.length := by
  induction l with
  | nil => rfl
  | cons x l ih =>
    have : join (x :: l) = bitsN 11 x ++ join l := rfl
    rw [this, List.length_append, ih, length_bitsN, List.length_cons]; omega

theorem length_group_lt (s : Bits) (k : Nat) : group s k < 2 ^ ((s.drop (11 * k)).take 11).length := uint_lt _

theorem equalBits_iff (a b : Bits) : equalBits a b = true ↔ a = b := by
  constructor
  · intro h
    simp only [equalBits, Bool.and_eq_true, beq_iff_eq, List.all_eq_true, List.mem_range] at h
    apply List.ext_getElem h.1
    intro i h1 h2
    have := h.2 i h1
    simpa [List.getD_eq_getElem?_getD, h1, h2] using this
  · rintro rfl
    simp [equalBits]

end Sys2Proof.Machine
end

