-- ==== Sys2Proof/Laws/State.lean ====
section
/-! SUPPORT. One lemma per field per named update of the state, each true by rfl, so that no later proof unfolds a
record update. -/

namespace Sys2Proof.Machine

open Sys2Proof

/-! ### storeByte -/

@[simp] theorem storeByte_irqen (s : State) (a : Nat) (v : Byte) : (storeByte s a v).irqen = s.irqen := rfl
@[simp] theorem storeByte_busy (s : State) (a : Nat) (v : Byte) : (storeByte s a v).busy = s.busy := rfl
@[simp] theorem storeByte_done (s : State) (a : Nat) (v : Byte) : (storeByte s a v).done = s.done := rfl
@[simp] theorem storeByte_err (s : State) (a : Nat) (v : Byte) : (storeByte s a v).err = s.err := rfl
@[simp] theorem storeByte_eqFlag (s : State) (a : Nat) (v : Byte) : (storeByte s a v).eqFlag = s.eqFlag := rfl
@[simp] theorem storeByte_cmdrej (s : State) (a : Nat) (v : Byte) : (storeByte s a v).cmdrej = s.cmdrej := rfl
@[simp] theorem storeByte_wbusy (s : State) (a : Nat) (v : Byte) : (storeByte s a v).wbusy = s.wbusy := rfl
@[simp] theorem storeByte_errcode (s : State) (a : Nat) (v : Byte) : (storeByte s a v).errcode = s.errcode := rfl
@[simp] theorem storeByte_cmd (s : State) (a : Nat) (v : Byte) : (storeByte s a v).cmd = s.cmd := rfl
@[simp] theorem storeByte_errinfo (s : State) (a : Nat) (v : Byte) : (storeByte s a v).errinfo = s.errinfo := rfl
@[simp] theorem storeByte_arg (s : State) (a : Nat) (v : Byte) : (storeByte s a v).arg = s.arg := rfl
@[simp] theorem storeByte_wlCount (s : State) (a : Nat) (v : Byte) : (storeByte s a v).wlCount = s.wlCount := rfl
@[simp] theorem storeByte_msglen (s : State) (a : Nat) (v : Byte) : (storeByte s a v).msglen = s.msglen := rfl
@[simp] theorem storeByte_bitalen (s : State) (a : Nat) (v : Byte) : (storeByte s a v).bitalen = s.bitalen := rfl
@[simp] theorem storeByte_bitblen (s : State) (a : Nat) (v : Byte) : (storeByte s a v).bitblen = s.bitblen := rfl
@[simp] theorem storeByte_mnCount (s : State) (a : Nat) (v : Byte) : (storeByte s a v).mnCount = s.mnCount := rfl
@[simp] theorem storeByte_sklen (s : State) (a : Nat) (v : Byte) : (storeByte s a v).sklen = s.sklen := rfl
@[simp] theorem storeByte_idx (s : State) (a : Nat) (v : Byte) : (storeByte s a v).idx = s.idx := rfl
@[simp] theorem storeByte_mem (s : State) (a : Nat) (v : Byte) : (storeByte s a v).mem = s.mem.store a v := rfl
@[simp] theorem storeByte_inflight (s : State) (a : Nat) (v : Byte) : (storeByte s a v).inflight = s.inflight := rfl
@[simp] theorem storeByte_staged (s : State) (a : Nat) (v : Byte) : (storeByte s a v).staged = s.staged := rfl
@[simp] theorem storeByte_attempts (s : State) (a : Nat) (v : Byte) : (storeByte s a v).attempts = s.attempts := rfl
@[simp] theorem storeByte_rngPending (s : State) (a : Nat) (v : Byte) : (storeByte s a v).rngPending = s.rngPending := rfl
@[simp] theorem storeByte_rst (s : State) (a : Nat) (v : Byte) : (storeByte s a v).rst = s.rst := rfl
@[simp] theorem storeByte_resp (s : State) (a : Nat) (v : Byte) : (storeByte s a v).resp = s.resp := rfl
@[simp] theorem storeByte_turnTaken (s : State) (a : Nat) (v : Byte) : (storeByte s a v).turnTaken = s.turnTaken := rfl
@[simp] theorem storeByte_env (s : State) (a : Nat) (v : Byte) : (storeByte s a v).env = s.env := rfl
@[simp] theorem storeByte_draws (s : State) (a : Nat) (v : Byte) : (storeByte s a v).draws = s.draws := rfl
@[simp] theorem storeByte_powerUps (s : State) (a : Nat) (v : Byte) : (storeByte s a v).powerUps = s.powerUps := rfl

/-! ### stage -/

@[simp] theorem stage_irqen (ws : List Write) (s : State) : (stage ws s).irqen = s.irqen := rfl
@[simp] theorem stage_busy (ws : List Write) (s : State) : (stage ws s).busy = s.busy := rfl
@[simp] theorem stage_done (ws : List Write) (s : State) : (stage ws s).done = s.done := rfl
@[simp] theorem stage_err (ws : List Write) (s : State) : (stage ws s).err = s.err := rfl
@[simp] theorem stage_eqFlag (ws : List Write) (s : State) : (stage ws s).eqFlag = s.eqFlag := rfl
@[simp] theorem stage_cmdrej (ws : List Write) (s : State) : (stage ws s).cmdrej = s.cmdrej := rfl
@[simp] theorem stage_wbusy (ws : List Write) (s : State) : (stage ws s).wbusy = s.wbusy := rfl
@[simp] theorem stage_errcode (ws : List Write) (s : State) : (stage ws s).errcode = s.errcode := rfl
@[simp] theorem stage_cmd (ws : List Write) (s : State) : (stage ws s).cmd = s.cmd := rfl
@[simp] theorem stage_errinfo (ws : List Write) (s : State) : (stage ws s).errinfo = s.errinfo := rfl
@[simp] theorem stage_arg (ws : List Write) (s : State) : (stage ws s).arg = s.arg := rfl
@[simp] theorem stage_wlCount (ws : List Write) (s : State) : (stage ws s).wlCount = s.wlCount := rfl
@[simp] theorem stage_msglen (ws : List Write) (s : State) : (stage ws s).msglen = s.msglen := rfl
@[simp] theorem stage_bitalen (ws : List Write) (s : State) : (stage ws s).bitalen = s.bitalen := rfl
@[simp] theorem stage_bitblen (ws : List Write) (s : State) : (stage ws s).bitblen = s.bitblen := rfl
@[simp] theorem stage_mnCount (ws : List Write) (s : State) : (stage ws s).mnCount = s.mnCount := rfl
@[simp] theorem stage_sklen (ws : List Write) (s : State) : (stage ws s).sklen = s.sklen := rfl
@[simp] theorem stage_idx (ws : List Write) (s : State) : (stage ws s).idx = s.idx := rfl
@[simp] theorem stage_mem (ws : List Write) (s : State) : (stage ws s).mem = s.mem := rfl
@[simp] theorem stage_inflight (ws : List Write) (s : State) : (stage ws s).inflight = s.inflight := rfl
@[simp] theorem stage_staged (ws : List Write) (s : State) : (stage ws s).staged = some (.writes ws) := rfl
@[simp] theorem stage_attempts (ws : List Write) (s : State) : (stage ws s).attempts = s.attempts := rfl
@[simp] theorem stage_rngPending (ws : List Write) (s : State) : (stage ws s).rngPending = s.rngPending := rfl
@[simp] theorem stage_rst (ws : List Write) (s : State) : (stage ws s).rst = s.rst := rfl
@[simp] theorem stage_resp (ws : List Write) (s : State) : (stage ws s).resp = s.resp := rfl
@[simp] theorem stage_turnTaken (ws : List Write) (s : State) : (stage ws s).turnTaken = s.turnTaken := rfl
@[simp] theorem stage_env (ws : List Write) (s : State) : (stage ws s).env = s.env := rfl
@[simp] theorem stage_draws (ws : List Write) (s : State) : (stage ws s).draws = s.draws := rfl
@[simp] theorem stage_powerUps (ws : List Write) (s : State) : (stage ws s).powerUps = s.powerUps := rfl

/-! ### raise -/

@[simp] theorem raise_irqen (e : ErrorName) (info : Word) (s : State) : (raise e info s).irqen = s.irqen := rfl
@[simp] theorem raise_busy (e : ErrorName) (info : Word) (s : State) : (raise e info s).busy = s.busy := rfl
@[simp] theorem raise_done (e : ErrorName) (info : Word) (s : State) : (raise e info s).done = s.done := rfl
@[simp] theorem raise_err (e : ErrorName) (info : Word) (s : State) : (raise e info s).err = s.err := rfl
@[simp] theorem raise_eqFlag (e : ErrorName) (info : Word) (s : State) : (raise e info s).eqFlag = s.eqFlag := rfl
@[simp] theorem raise_cmdrej (e : ErrorName) (info : Word) (s : State) : (raise e info s).cmdrej = s.cmdrej := rfl
@[simp] theorem raise_wbusy (e : ErrorName) (info : Word) (s : State) : (raise e info s).wbusy = s.wbusy := rfl
@[simp] theorem raise_errcode (e : ErrorName) (info : Word) (s : State) : (raise e info s).errcode = s.errcode := rfl
@[simp] theorem raise_cmd (e : ErrorName) (info : Word) (s : State) : (raise e info s).cmd = s.cmd := rfl
@[simp] theorem raise_errinfo (e : ErrorName) (info : Word) (s : State) : (raise e info s).errinfo = s.errinfo := rfl
@[simp] theorem raise_arg (e : ErrorName) (info : Word) (s : State) : (raise e info s).arg = s.arg := rfl
@[simp] theorem raise_wlCount (e : ErrorName) (info : Word) (s : State) : (raise e info s).wlCount = s.wlCount := rfl
@[simp] theorem raise_msglen (e : ErrorName) (info : Word) (s : State) : (raise e info s).msglen = s.msglen := rfl
@[simp] theorem raise_bitalen (e : ErrorName) (info : Word) (s : State) : (raise e info s).bitalen = s.bitalen := rfl
@[simp] theorem raise_bitblen (e : ErrorName) (info : Word) (s : State) : (raise e info s).bitblen = s.bitblen := rfl
@[simp] theorem raise_mnCount (e : ErrorName) (info : Word) (s : State) : (raise e info s).mnCount = s.mnCount := rfl
@[simp] theorem raise_sklen (e : ErrorName) (info : Word) (s : State) : (raise e info s).sklen = s.sklen := rfl
@[simp] theorem raise_idx (e : ErrorName) (info : Word) (s : State) : (raise e info s).idx = s.idx := rfl
@[simp] theorem raise_mem (e : ErrorName) (info : Word) (s : State) : (raise e info s).mem = s.mem := rfl
@[simp] theorem raise_inflight (e : ErrorName) (info : Word) (s : State) : (raise e info s).inflight = s.inflight := rfl
@[simp] theorem raise_staged (e : ErrorName) (info : Word) (s : State) : (raise e info s).staged = some (.error e info) := rfl
@[simp] theorem raise_attempts (e : ErrorName) (info : Word) (s : State) : (raise e info s).attempts = s.attempts := rfl
@[simp] theorem raise_rngPending (e : ErrorName) (info : Word) (s : State) : (raise e info s).rngPending = s.rngPending := rfl
@[simp] theorem raise_rst (e : ErrorName) (info : Word) (s : State) : (raise e info s).rst = s.rst := rfl
@[simp] theorem raise_resp (e : ErrorName) (info : Word) (s : State) : (raise e info s).resp = s.resp := rfl
@[simp] theorem raise_turnTaken (e : ErrorName) (info : Word) (s : State) : (raise e info s).turnTaken = s.turnTaken := rfl
@[simp] theorem raise_env (e : ErrorName) (info : Word) (s : State) : (raise e info s).env = s.env := rfl
@[simp] theorem raise_draws (e : ErrorName) (info : Word) (s : State) : (raise e info s).draws = s.draws := rfl
@[simp] theorem raise_powerUps (e : ErrorName) (info : Word) (s : State) : (raise e info s).powerUps = s.powerUps := rfl

/-! ### issue -/

@[simp] theorem issue_irqen (v : Word) (s : State) : (issue v s).irqen = s.irqen := rfl
@[simp] theorem issue_busy (v : Word) (s : State) : (issue v s).busy = true := rfl
@[simp] theorem issue_done (v : Word) (s : State) : (issue v s).done = false := rfl
@[simp] theorem issue_err (v : Word) (s : State) : (issue v s).err = false := rfl
@[simp] theorem issue_eqFlag (v : Word) (s : State) : (issue v s).eqFlag = s.eqFlag := rfl
@[simp] theorem issue_cmdrej (v : Word) (s : State) : (issue v s).cmdrej = s.cmdrej := rfl
@[simp] theorem issue_wbusy (v : Word) (s : State) : (issue v s).wbusy = s.wbusy := rfl
@[simp] theorem issue_errcode (v : Word) (s : State) : (issue v s).errcode = 0#8 := rfl
@[simp] theorem issue_cmd (v : Word) (s : State) : (issue v s).cmd = v := rfl
@[simp] theorem issue_errinfo (v : Word) (s : State) : (issue v s).errinfo = 0#32 := rfl
@[simp] theorem issue_arg (v : Word) (s : State) : (issue v s).arg = s.arg := rfl
@[simp] theorem issue_wlCount (v : Word) (s : State) : (issue v s).wlCount = s.wlCount := rfl
@[simp] theorem issue_msglen (v : Word) (s : State) : (issue v s).msglen = s.msglen := rfl
@[simp] theorem issue_bitalen (v : Word) (s : State) : (issue v s).bitalen = s.bitalen := rfl
@[simp] theorem issue_bitblen (v : Word) (s : State) : (issue v s).bitblen = s.bitblen := rfl
@[simp] theorem issue_mnCount (v : Word) (s : State) : (issue v s).mnCount = s.mnCount := rfl
@[simp] theorem issue_sklen (v : Word) (s : State) : (issue v s).sklen = s.sklen := rfl
@[simp] theorem issue_idx (v : Word) (s : State) : (issue v s).idx = s.idx := rfl
@[simp] theorem issue_mem (v : Word) (s : State) : (issue v s).mem = s.mem := rfl
@[simp] theorem issue_inflight (v : Word) (s : State) : (issue v s).inflight = some v := rfl
@[simp] theorem issue_staged (v : Word) (s : State) : (issue v s).staged = none := rfl
@[simp] theorem issue_attempts (v : Word) (s : State) : (issue v s).attempts = 0 := rfl
@[simp] theorem issue_rngPending (v : Word) (s : State) : (issue v s).rngPending = s.rngPending := rfl
@[simp] theorem issue_rst (v : Word) (s : State) : (issue v s).rst = s.rst := rfl
@[simp] theorem issue_resp (v : Word) (s : State) : (issue v s).resp = s.resp := rfl
@[simp] theorem issue_turnTaken (v : Word) (s : State) : (issue v s).turnTaken = s.turnTaken := rfl
@[simp] theorem issue_env (v : Word) (s : State) : (issue v s).env = s.env := rfl
@[simp] theorem issue_draws (v : Word) (s : State) : (issue v s).draws = s.draws := rfl
@[simp] theorem issue_powerUps (v : Word) (s : State) : (issue v s).powerUps = s.powerUps := rfl

/-! ### finish -/

@[simp] theorem finish_irqen (s : State) : (finish s).irqen = s.irqen := rfl
@[simp] theorem finish_busy (s : State) : (finish s).busy = false := rfl
@[simp] theorem finish_done (s : State) : (finish s).done = true := rfl
@[simp] theorem finish_err (s : State) : (finish s).err = s.err := rfl
@[simp] theorem finish_eqFlag (s : State) : (finish s).eqFlag = s.eqFlag := rfl
@[simp] theorem finish_cmdrej (s : State) : (finish s).cmdrej = s.cmdrej := rfl
@[simp] theorem finish_wbusy (s : State) : (finish s).wbusy = s.wbusy := rfl
@[simp] theorem finish_errcode (s : State) : (finish s).errcode = s.errcode := rfl
@[simp] theorem finish_cmd (s : State) : (finish s).cmd = s.cmd := rfl
@[simp] theorem finish_errinfo (s : State) : (finish s).errinfo = s.errinfo := rfl
@[simp] theorem finish_arg (s : State) : (finish s).arg = s.arg := rfl
@[simp] theorem finish_wlCount (s : State) : (finish s).wlCount = s.wlCount := rfl
@[simp] theorem finish_msglen (s : State) : (finish s).msglen = s.msglen := rfl
@[simp] theorem finish_bitalen (s : State) : (finish s).bitalen = s.bitalen := rfl
@[simp] theorem finish_bitblen (s : State) : (finish s).bitblen = s.bitblen := rfl
@[simp] theorem finish_mnCount (s : State) : (finish s).mnCount = s.mnCount := rfl
@[simp] theorem finish_sklen (s : State) : (finish s).sklen = s.sklen := rfl
@[simp] theorem finish_idx (s : State) : (finish s).idx = s.idx := rfl
@[simp] theorem finish_mem (s : State) : (finish s).mem = s.mem := rfl
@[simp] theorem finish_inflight (s : State) : (finish s).inflight = none := rfl
@[simp] theorem finish_staged (s : State) : (finish s).staged = none := rfl
@[simp] theorem finish_attempts (s : State) : (finish s).attempts = s.attempts := rfl
@[simp] theorem finish_rngPending (s : State) : (finish s).rngPending = s.rngPending := rfl
@[simp] theorem finish_rst (s : State) : (finish s).rst = s.rst := rfl
@[simp] theorem finish_resp (s : State) : (finish s).resp = s.resp := rfl
@[simp] theorem finish_turnTaken (s : State) : (finish s).turnTaken = s.turnTaken := rfl
@[simp] theorem finish_env (s : State) : (finish s).env = s.env := rfl
@[simp] theorem finish_draws (s : State) : (finish s).draws = s.draws := rfl
@[simp] theorem finish_powerUps (s : State) : (finish s).powerUps = s.powerUps := rfl

/-! ### writeCtrl -/

@[simp] theorem writeCtrl_irqen (v : Word) (s : State) : (writeCtrl v s).irqen = v.getLsbD 0 := rfl
@[simp] theorem writeCtrl_busy (v : Word) (s : State) : (writeCtrl v s).busy = s.busy := rfl
@[simp] theorem writeCtrl_done (v : Word) (s : State) : (writeCtrl v s).done = s.done := rfl
@[simp] theorem writeCtrl_err (v : Word) (s : State) : (writeCtrl v s).err = s.err := rfl
@[simp] theorem writeCtrl_eqFlag (v : Word) (s : State) : (writeCtrl v s).eqFlag = s.eqFlag := rfl
@[simp] theorem writeCtrl_cmdrej (v : Word) (s : State) : (writeCtrl v s).cmdrej = s.cmdrej := rfl
@[simp] theorem writeCtrl_wbusy (v : Word) (s : State) : (writeCtrl v s).wbusy = s.wbusy := rfl
@[simp] theorem writeCtrl_errcode (v : Word) (s : State) : (writeCtrl v s).errcode = s.errcode := rfl
@[simp] theorem writeCtrl_cmd (v : Word) (s : State) : (writeCtrl v s).cmd = s.cmd := rfl
@[simp] theorem writeCtrl_errinfo (v : Word) (s : State) : (writeCtrl v s).errinfo = s.errinfo := rfl
@[simp] theorem writeCtrl_arg (v : Word) (s : State) : (writeCtrl v s).arg = s.arg := rfl
@[simp] theorem writeCtrl_wlCount (v : Word) (s : State) : (writeCtrl v s).wlCount = s.wlCount := rfl
@[simp] theorem writeCtrl_msglen (v : Word) (s : State) : (writeCtrl v s).msglen = s.msglen := rfl
@[simp] theorem writeCtrl_bitalen (v : Word) (s : State) : (writeCtrl v s).bitalen = s.bitalen := rfl
@[simp] theorem writeCtrl_bitblen (v : Word) (s : State) : (writeCtrl v s).bitblen = s.bitblen := rfl
@[simp] theorem writeCtrl_mnCount (v : Word) (s : State) : (writeCtrl v s).mnCount = s.mnCount := rfl
@[simp] theorem writeCtrl_sklen (v : Word) (s : State) : (writeCtrl v s).sklen = s.sklen := rfl
@[simp] theorem writeCtrl_idx (v : Word) (s : State) : (writeCtrl v s).idx = s.idx := rfl
@[simp] theorem writeCtrl_mem (v : Word) (s : State) : (writeCtrl v s).mem = s.mem := rfl
@[simp] theorem writeCtrl_inflight (v : Word) (s : State) : (writeCtrl v s).inflight = s.inflight := rfl
@[simp] theorem writeCtrl_staged (v : Word) (s : State) : (writeCtrl v s).staged = s.staged := rfl
@[simp] theorem writeCtrl_attempts (v : Word) (s : State) : (writeCtrl v s).attempts = s.attempts := rfl
@[simp] theorem writeCtrl_rngPending (v : Word) (s : State) : (writeCtrl v s).rngPending = s.rngPending := rfl
@[simp] theorem writeCtrl_rst (v : Word) (s : State) : (writeCtrl v s).rst = s.rst := rfl
@[simp] theorem writeCtrl_resp (v : Word) (s : State) : (writeCtrl v s).resp = s.resp := rfl
@[simp] theorem writeCtrl_turnTaken (v : Word) (s : State) : (writeCtrl v s).turnTaken = s.turnTaken := rfl
@[simp] theorem writeCtrl_env (v : Word) (s : State) : (writeCtrl v s).env = s.env := rfl
@[simp] theorem writeCtrl_draws (v : Word) (s : State) : (writeCtrl v s).draws = s.draws := rfl
@[simp] theorem writeCtrl_powerUps (v : Word) (s : State) : (writeCtrl v s).powerUps = s.powerUps := rfl

/-! ### writeAck -/

@[simp] theorem writeAck_irqen (v : Word) (s : State) : (writeAck v s).irqen = s.irqen := rfl
@[simp] theorem writeAck_busy (v : Word) (s : State) : (writeAck v s).busy = s.busy := rfl
@[simp] theorem writeAck_done (v : Word) (s : State) : (writeAck v s).done = (s.done && !v.getLsbD 0) := rfl
@[simp] theorem writeAck_err (v : Word) (s : State) : (writeAck v s).err = s.err := rfl
@[simp] theorem writeAck_eqFlag (v : Word) (s : State) : (writeAck v s).eqFlag = s.eqFlag := rfl
@[simp] theorem writeAck_cmdrej (v : Word) (s : State) : (writeAck v s).cmdrej = (s.cmdrej && !v.getLsbD 1) := rfl
@[simp] theorem writeAck_wbusy (v : Word) (s : State) : (writeAck v s).wbusy = (s.wbusy && !v.getLsbD 2) := rfl
@[simp] theorem writeAck_errcode (v : Word) (s : State) : (writeAck v s).errcode = s.errcode := rfl
@[simp] theorem writeAck_cmd (v : Word) (s : State) : (writeAck v s).cmd = s.cmd := rfl
@[simp] theorem writeAck_errinfo (v : Word) (s : State) : (writeAck v s).errinfo = s.errinfo := rfl
@[simp] theorem writeAck_arg (v : Word) (s : State) : (writeAck v s).arg = s.arg := rfl
@[simp] theorem writeAck_wlCount (v : Word) (s : State) : (writeAck v s).wlCount = s.wlCount := rfl
@[simp] theorem writeAck_msglen (v : Word) (s : State) : (writeAck v s).msglen = s.msglen := rfl
@[simp] theorem writeAck_bitalen (v : Word) (s : State) : (writeAck v s).bitalen = s.bitalen := rfl
@[simp] theorem writeAck_bitblen (v : Word) (s : State) : (writeAck v s).bitblen = s.bitblen := rfl
@[simp] theorem writeAck_mnCount (v : Word) (s : State) : (writeAck v s).mnCount = s.mnCount := rfl
@[simp] theorem writeAck_sklen (v : Word) (s : State) : (writeAck v s).sklen = s.sklen := rfl
@[simp] theorem writeAck_idx (v : Word) (s : State) : (writeAck v s).idx = s.idx := rfl
@[simp] theorem writeAck_mem (v : Word) (s : State) : (writeAck v s).mem = s.mem := rfl
@[simp] theorem writeAck_inflight (v : Word) (s : State) : (writeAck v s).inflight = s.inflight := rfl
@[simp] theorem writeAck_staged (v : Word) (s : State) : (writeAck v s).staged = s.staged := rfl
@[simp] theorem writeAck_attempts (v : Word) (s : State) : (writeAck v s).attempts = s.attempts := rfl
@[simp] theorem writeAck_rngPending (v : Word) (s : State) : (writeAck v s).rngPending = s.rngPending := rfl
@[simp] theorem writeAck_rst (v : Word) (s : State) : (writeAck v s).rst = s.rst := rfl
@[simp] theorem writeAck_resp (v : Word) (s : State) : (writeAck v s).resp = s.resp := rfl
@[simp] theorem writeAck_turnTaken (v : Word) (s : State) : (writeAck v s).turnTaken = s.turnTaken := rfl
@[simp] theorem writeAck_env (v : Word) (s : State) : (writeAck v s).env = s.env := rfl
@[simp] theorem writeAck_draws (v : Word) (s : State) : (writeAck v s).draws = s.draws := rfl
@[simp] theorem writeAck_powerUps (v : Word) (s : State) : (writeAck v s).powerUps = s.powerUps := rfl

/-! ### resetBlock -/

@[simp] theorem resetBlock_irqen (s : State) : (resetBlock s).irqen = State.reset.irqen := rfl
@[simp] theorem resetBlock_busy (s : State) : (resetBlock s).busy = State.reset.busy := rfl
@[simp] theorem resetBlock_done (s : State) : (resetBlock s).done = State.reset.done := rfl
@[simp] theorem resetBlock_err (s : State) : (resetBlock s).err = State.reset.err := rfl
@[simp] theorem resetBlock_eqFlag (s : State) : (resetBlock s).eqFlag = State.reset.eqFlag := rfl
@[simp] theorem resetBlock_cmdrej (s : State) : (resetBlock s).cmdrej = State.reset.cmdrej := rfl
@[simp] theorem resetBlock_wbusy (s : State) : (resetBlock s).wbusy = State.reset.wbusy := rfl
@[simp] theorem resetBlock_errcode (s : State) : (resetBlock s).errcode = State.reset.errcode := rfl
@[simp] theorem resetBlock_cmd (s : State) : (resetBlock s).cmd = State.reset.cmd := rfl
@[simp] theorem resetBlock_errinfo (s : State) : (resetBlock s).errinfo = State.reset.errinfo := rfl
@[simp] theorem resetBlock_arg (s : State) : (resetBlock s).arg = State.reset.arg := rfl
@[simp] theorem resetBlock_wlCount (s : State) : (resetBlock s).wlCount = State.reset.wlCount := rfl
@[simp] theorem resetBlock_msglen (s : State) : (resetBlock s).msglen = State.reset.msglen := rfl
@[simp] theorem resetBlock_bitalen (s : State) : (resetBlock s).bitalen = State.reset.bitalen := rfl
@[simp] theorem resetBlock_bitblen (s : State) : (resetBlock s).bitblen = State.reset.bitblen := rfl
@[simp] theorem resetBlock_mnCount (s : State) : (resetBlock s).mnCount = State.reset.mnCount := rfl
@[simp] theorem resetBlock_sklen (s : State) : (resetBlock s).sklen = State.reset.sklen := rfl
@[simp] theorem resetBlock_idx (s : State) : (resetBlock s).idx = State.reset.idx := rfl
@[simp] theorem resetBlock_mem (s : State) : (resetBlock s).mem = s.mem.lutOnly := rfl
@[simp] theorem resetBlock_inflight (s : State) : (resetBlock s).inflight = State.reset.inflight := rfl
@[simp] theorem resetBlock_staged (s : State) : (resetBlock s).staged = State.reset.staged := rfl
@[simp] theorem resetBlock_attempts (s : State) : (resetBlock s).attempts = State.reset.attempts := rfl
@[simp] theorem resetBlock_rngPending (s : State) : (resetBlock s).rngPending = State.reset.rngPending := rfl
@[simp] theorem resetBlock_rst (s : State) : (resetBlock s).rst = s.rst := rfl
@[simp] theorem resetBlock_resp (s : State) : (resetBlock s).resp = s.resp := rfl
@[simp] theorem resetBlock_turnTaken (s : State) : (resetBlock s).turnTaken = s.turnTaken := rfl
@[simp] theorem resetBlock_env (s : State) : (resetBlock s).env = s.env := rfl
@[simp] theorem resetBlock_draws (s : State) : (resetBlock s).draws = s.draws := rfl
@[simp] theorem resetBlock_powerUps (s : State) : (resetBlock s).powerUps = s.powerUps := rfl

/-! ### powerUp -/

@[simp] theorem powerUp_irqen (s : State) : (powerUp s).irqen = State.reset.irqen := rfl
@[simp] theorem powerUp_busy (s : State) : (powerUp s).busy = State.reset.busy := rfl
@[simp] theorem powerUp_done (s : State) : (powerUp s).done = State.reset.done := rfl
@[simp] theorem powerUp_err (s : State) : (powerUp s).err = State.reset.err := rfl
@[simp] theorem powerUp_eqFlag (s : State) : (powerUp s).eqFlag = State.reset.eqFlag := rfl
@[simp] theorem powerUp_cmdrej (s : State) : (powerUp s).cmdrej = State.reset.cmdrej := rfl
@[simp] theorem powerUp_wbusy (s : State) : (powerUp s).wbusy = State.reset.wbusy := rfl
@[simp] theorem powerUp_errcode (s : State) : (powerUp s).errcode = State.reset.errcode := rfl
@[simp] theorem powerUp_cmd (s : State) : (powerUp s).cmd = State.reset.cmd := rfl
@[simp] theorem powerUp_errinfo (s : State) : (powerUp s).errinfo = State.reset.errinfo := rfl
@[simp] theorem powerUp_arg (s : State) : (powerUp s).arg = State.reset.arg := rfl
@[simp] theorem powerUp_wlCount (s : State) : (powerUp s).wlCount = State.reset.wlCount := rfl
@[simp] theorem powerUp_msglen (s : State) : (powerUp s).msglen = State.reset.msglen := rfl
@[simp] theorem powerUp_bitalen (s : State) : (powerUp s).bitalen = State.reset.bitalen := rfl
@[simp] theorem powerUp_bitblen (s : State) : (powerUp s).bitblen = State.reset.bitblen := rfl
@[simp] theorem powerUp_mnCount (s : State) : (powerUp s).mnCount = State.reset.mnCount := rfl
@[simp] theorem powerUp_sklen (s : State) : (powerUp s).sklen = State.reset.sklen := rfl
@[simp] theorem powerUp_idx (s : State) : (powerUp s).idx = State.reset.idx := rfl
@[simp] theorem powerUp_mem (s : State) : (powerUp s).mem = [] := rfl
@[simp] theorem powerUp_inflight (s : State) : (powerUp s).inflight = State.reset.inflight := rfl
@[simp] theorem powerUp_staged (s : State) : (powerUp s).staged = State.reset.staged := rfl
@[simp] theorem powerUp_attempts (s : State) : (powerUp s).attempts = State.reset.attempts := rfl
@[simp] theorem powerUp_rngPending (s : State) : (powerUp s).rngPending = State.reset.rngPending := rfl
@[simp] theorem powerUp_rst (s : State) : (powerUp s).rst = s.rst := rfl
@[simp] theorem powerUp_resp (s : State) : (powerUp s).resp = s.resp := rfl
@[simp] theorem powerUp_turnTaken (s : State) : (powerUp s).turnTaken = s.turnTaken := rfl
@[simp] theorem powerUp_env (s : State) : (powerUp s).env = s.env := rfl
@[simp] theorem powerUp_draws (s : State) : (powerUp s).draws = s.draws := rfl
@[simp] theorem powerUp_powerUps (s : State) : (powerUp s).powerUps = s.powerUps + 1 := rfl

/-! ### State.reset -/

@[simp] theorem reset_irqen : State.reset.irqen = false := rfl
@[simp] theorem reset_busy : State.reset.busy = false := rfl
@[simp] theorem reset_done : State.reset.done = false := rfl
@[simp] theorem reset_err : State.reset.err = false := rfl
@[simp] theorem reset_eqFlag : State.reset.eqFlag = false := rfl
@[simp] theorem reset_cmdrej : State.reset.cmdrej = false := rfl
@[simp] theorem reset_wbusy : State.reset.wbusy = false := rfl
@[simp] theorem reset_errcode : State.reset.errcode = 0#8 := rfl
@[simp] theorem reset_cmd : State.reset.cmd = 0#32 := rfl
@[simp] theorem reset_errinfo : State.reset.errinfo = 0#32 := rfl
@[simp] theorem reset_arg : State.reset.arg = 0#32 := rfl
@[simp] theorem reset_wlCount : State.reset.wlCount = 0#12 := rfl
@[simp] theorem reset_msglen : State.reset.msglen = 0#9 := rfl
@[simp] theorem reset_bitalen : State.reset.bitalen = 0#10 := rfl
@[simp] theorem reset_bitblen : State.reset.bitblen = 0#10 := rfl
@[simp] theorem reset_mnCount : State.reset.mnCount = 0#5 := rfl
@[simp] theorem reset_sklen : State.reset.sklen = Vector.replicate 16 0#7 := rfl
@[simp] theorem reset_idx : State.reset.idx = Vector.replicate 24 0#16 := rfl
@[simp] theorem reset_mem : State.reset.mem = [] := rfl
@[simp] theorem reset_inflight : State.reset.inflight = none := rfl
@[simp] theorem reset_staged : State.reset.staged = none := rfl
@[simp] theorem reset_attempts : State.reset.attempts = 0 := rfl
@[simp] theorem reset_rngPending : State.reset.rngPending = false := rfl
@[simp] theorem reset_rst : State.reset.rst = false := rfl
@[simp] theorem reset_resp : State.reset.resp = none := rfl
@[simp] theorem reset_turnTaken : State.reset.turnTaken = false := rfl
@[simp] theorem reset_env : State.reset.env = [] := rfl
@[simp] theorem reset_draws : State.reset.draws = 0 := rfl
@[simp] theorem reset_powerUps : State.reset.powerUps = 0 := rfl

end Sys2Proof.Machine
end

