-- ==== Sys2Proof/Laws/Memory.lean ====
section
/-! SUPPORT. The memory: a read after a write, and the canonical form every operation keeps. -/

namespace Sys2Proof.Machine

open Sys2Proof

/-! ### Reading after writing -/

theorem Memory.lookup_insert (m : Memory) (a b : Nat) (v : Byte) :
    (m.insert a v).lookup b = if b = a then some v else m.lookup b := by
  induction m with
  | nil => simp only [Memory.insert, Memory.lookup, eq_comm]
  | cons c rest ih =>
    obtain ⟨d, w⟩ := c
    simp only [Memory.insert]
    split
    · simp only [Memory.lookup, eq_comm]
    · split
      · subst d; simp only [Memory.lookup]; split <;> rename_i h <;> simp [h, eq_comm]
      · simp only [Memory.lookup, ih]
        by_cases h : d = b
        · subst h; simp; omega
        · simp [h]

theorem Memory.lookup_filter (m : Memory) (p : Nat → Bool) (b : Nat) :
    Memory.lookup (m.filter fun c => p c.1) b = if p b then m.lookup b else none := by
  induction m with
  | nil => simp [Memory.lookup]
  | cons c rest ih =>
    obtain ⟨d, w⟩ := c
    by_cases hp : p d
    · rw [List.filter_cons_of_pos (by simpa using hp)]
      simp only [Memory.lookup, ih]
      by_cases h : d = b
      · subst h; simp [hp]
      · simp [h]
    · rw [List.filter_cons_of_neg (by simpa using hp), ih]
      by_cases h : d = b
      · subst h; simp [hp]
      · simp [Memory.lookup, h]

theorem Memory.lookup_erase (m : Memory) (a b : Nat) :
    (m.erase a).lookup b = if b = a then none else m.lookup b := by
  simp only [Memory.erase, Memory.lookup_filter m (fun x => x != a)]
  by_cases h : b = a <;> simp [h]

/-- What a byte reads as after a write: the written byte with its mask at its own offset inside the buffers, the old
byte everywhere else. -/
theorem Memory.load_store (m : Memory) (a b : Nat) (v : Byte) :
    (m.store a v).load b = if b = a ∧ isBuffer a then some (v &&& byteMask a) else m.load b := by
  by_cases hb : isBuffer a
  · by_cases hbg : background a = some (v &&& byteMask a)
    · by_cases h : b = a
      · subst h; simp [Memory.store, Memory.load, Memory.lookup_erase, hb, hbg]
      · simp [Memory.store, Memory.load, Memory.lookup_erase, hb, hbg, h]
    · by_cases h : b = a
      · subst h; simp [Memory.store, Memory.load, Memory.lookup_insert, hb, hbg]
      · simp [Memory.store, Memory.load, Memory.lookup_insert, hb, hbg, h]
  · simp [Memory.store, hb]

theorem Memory.load_lutOnly (m : Memory) (b : Nat) :
    m.lutOnly.load b = if isLut b then m.load b else some 0#8 := by
  simp only [Memory.lutOnly, Memory.load, Memory.lookup_filter m isLut]
  by_cases h : isLut b <;> simp [h, background]

/-! ### The canonical form -/

theorem Memory.rising_filter (m : Memory) (p : Host.Cell → Bool) (h : m.rising = true) :
    Memory.rising (m.filter p) = true := by
  induction m with
  | nil => rfl
  | cons c rest ih =>
    simp only [Memory.rising, Bool.and_eq_true, List.all_eq_true, decide_eq_true_eq] at h
    by_cases hp : p c
    · rw [List.filter_cons_of_pos hp]
      simp only [Memory.rising, Bool.and_eq_true, List.all_eq_true, decide_eq_true_eq]
      exact ⟨fun x hx => h.1 x (List.mem_filter.1 hx).1, ih h.2⟩
    · rw [List.filter_cons_of_neg hp]; exact ih h.2

theorem Memory.mem_insert {m : Memory} {a : Nat} {v : Byte} {c : Host.Cell} (h : c ∈ m.insert a v) :
    c = (a, v) ∨ c ∈ m := by
  induction m with
  | nil => simpa [Memory.insert] using h
  | cons d rest ih =>
    obtain ⟨d1, d2⟩ := d
    simp only [Memory.insert] at h
    split at h
    · simpa using h
    · split at h
      · simp only [List.mem_cons] at h ⊢; tauto
      · simp only [List.mem_cons] at h ⊢
        rcases h with h | h
        · exact .inr (.inl h)
        · rcases ih h with h | h
          · exact .inl h
          · exact .inr (.inr h)

theorem Memory.rising_insert (m : Memory) (a : Nat) (v : Byte) (h : m.rising = true) :
    (m.insert a v).rising = true := by
  induction m with
  | nil => rfl
  | cons d rest ih =>
    obtain ⟨d1, d2⟩ := d
    simp only [Memory.rising, Bool.and_eq_true, List.all_eq_true, decide_eq_true_eq] at h
    simp only [Memory.insert]
    split
    · rename_i hlt
      simp only [Memory.rising, Bool.and_eq_true, List.all_eq_true, decide_eq_true_eq, List.mem_cons, forall_eq_or_imp]
      exact ⟨⟨hlt, fun x hx => lt_trans hlt (h.1 x hx)⟩, h.1, h.2⟩
    · split
      · rename_i heq
        simp only [Memory.rising, Bool.and_eq_true, List.all_eq_true, decide_eq_true_eq]
        exact ⟨fun x hx => heq ▸ h.1 x hx, h.2⟩
      · rename_i hnlt hne
        simp only [Memory.rising, Bool.and_eq_true, List.all_eq_true, decide_eq_true_eq]
        refine ⟨fun x hx => ?_, ih h.2⟩
        rcases Memory.mem_insert hx with rfl | hx
        · show d1 < a; omega
        · exact h.1 x hx

theorem Memory.wf_nil : Memory.wf [] = true := rfl

theorem Memory.wf_filter (m : Memory) (p : Host.Cell → Bool) (h : m.wf = true) : Memory.wf (m.filter p) = true := by
  simp only [Memory.wf, Bool.and_eq_true, List.all_eq_true] at h ⊢
  exact ⟨Memory.rising_filter m p h.1, fun c hc => h.2 c (List.mem_filter.1 hc).1⟩

/-- A write keeps the canonical form. -/
theorem Memory.wf_store (m : Memory) (a : Nat) (v : Byte) (h : m.wf = true) : (m.store a v).wf = true := by
  by_cases hb : isBuffer a
  · by_cases hbg : background a = some (v &&& byteMask a)
    · simp only [Memory.store, hb, hbg, if_true]; exact Memory.wf_filter m _ h
    · simp only [Memory.store, hb, hbg, if_true, if_false]
      simp only [Memory.wf, Bool.and_eq_true, List.all_eq_true] at h ⊢
      refine ⟨Memory.rising_insert m a _ h.1, fun c hc => ?_⟩
      rcases Memory.mem_insert hc with rfl | hc
      · simp [cellOk, hb, hbg, BitVec.and_assoc]
      · exact h.2 c hc
  · simpa [Memory.store, hb] using h

/-- Reset keeps the canonical form. -/
theorem Memory.wf_lutOnly (m : Memory) (h : m.wf = true) : m.lutOnly.wf = true := Memory.wf_filter m _ h

/-! ### Bytes of the state -/

/-- What a byte reads as after one byte is written. -/
theorem byteAt_storeByte (s : State) (a b : Nat) (v : Byte) :
    byteAt (storeByte s a v) b = if b = a ∧ isBuffer a then v &&& byteMask a else byteAt s b := by
  simp only [byteAt, storeByte_mem, storeByte_powerUps, Memory.load_store]
  by_cases h : b = a ∧ isBuffer a
  · simp only [h, and_self, if_true]
  · simp only [h, if_false]

/-- Bytes depend on the memory and the power-up count alone. -/
theorem byteAt_congr {s t : State} (hm : t.mem = s.mem) (hp : t.powerUps = s.powerUps) (a : Nat) :
    byteAt t a = byteAt s a := by
  simp only [byteAt, hm, hp]

@[simp] theorem byteAt_stage (ws : List Write) (s : State) (a : Nat) : byteAt (stage ws s) a = byteAt s a := rfl
@[simp] theorem byteAt_raise (e : ErrorName) (info : Word) (s : State) (a : Nat) :
    byteAt (raise e info s) a = byteAt s a := rfl
@[simp] theorem byteAt_issue (v : Word) (s : State) (a : Nat) : byteAt (issue v s) a = byteAt s a := rfl
@[simp] theorem byteAt_finish (s : State) (a : Nat) : byteAt (finish s) a = byteAt s a := rfl

/-- The engine's reset leaves the LUT's bytes and clears every other byte of the buffers (R45, R136). -/
theorem byteAt_resetBlock (s : State) (a : Nat) :
    byteAt (resetBlock s) a = if isLut a then byteAt s a else 0#8 := by
  simp only [byteAt, resetBlock_mem, resetBlock_powerUps, Memory.load_lutOnly]
  by_cases h : isLut a
  · simp [h]
  · simp [h]

end Sys2Proof.Machine
end

