-- ==== Sys2Proof/Laws/Ops.lean ====
section
/-! SUPPORT. What the shared operations do: buffer writes, staged writes, and the complete step, each said once. -/

namespace Sys2Proof.Machine

open Sys2Proof

/-! ### Buffer writes -/

theorem writeBytes_zero (s : State) (base : Nat) (data : Bytes) : writeBytes s base 0 data = s := rfl

theorem writeBytes_succ (s : State) (base n : Nat) (data : Bytes) :
    writeBytes s base (n + 1) data = storeByte (writeBytes s base n data) (base + n) (data.getD n 0#8) := by
  simp only [writeBytes, List.range_succ, List.foldl_append, List.foldl_cons, List.foldl_nil]

/-- A buffer write changes the memory and nothing else. -/
theorem writeBytes_eq (s : State) (base n : Nat) (data : Bytes) :
    writeBytes s base n data = { s with mem := (writeBytes s base n data).mem } := by
  induction n with
  | zero => rfl
  | succ n ih => rw [writeBytes_succ, ih]; rfl

@[simp] theorem writeBytes_irqen (s : State) (base n : Nat) (data : Bytes) :
    (writeBytes s base n data).irqen = s.irqen := by rw [writeBytes_eq]
@[simp] theorem writeBytes_busy (s : State) (base n : Nat) (data : Bytes) :
    (writeBytes s base n data).busy = s.busy := by rw [writeBytes_eq]
@[simp] theorem writeBytes_done (s : State) (base n : Nat) (data : Bytes) :
    (writeBytes s base n data).done = s.done := by rw [writeBytes_eq]
@[simp] theorem writeBytes_err (s : State) (base n : Nat) (data : Bytes) :
    (writeBytes s base n data).err = s.err := by rw [writeBytes_eq]
@[simp] theorem writeBytes_eqFlag (s : State) (base n : Nat) (data : Bytes) :
    (writeBytes s base n data).eqFlag = s.eqFlag := by rw [writeBytes_eq]
@[simp] theorem writeBytes_cmdrej (s : State) (base n : Nat) (data : Bytes) :
    (writeBytes s base n data).cmdrej = s.cmdrej := by rw [writeBytes_eq]
@[simp] theorem writeBytes_wbusy (s : State) (base n : Nat) (data : Bytes) :
    (writeBytes s base n data).wbusy = s.wbusy := by rw [writeBytes_eq]
@[simp] theorem writeBytes_errcode (s : State) (base n : Nat) (data : Bytes) :
    (writeBytes s base n data).errcode = s.errcode := by rw [writeBytes_eq]
@[simp] theorem writeBytes_cmd (s : State) (base n : Nat) (data : Bytes) :
    (writeBytes s base n data).cmd = s.cmd := by rw [writeBytes_eq]
@[simp] theorem writeBytes_errinfo (s : State) (base n : Nat) (data : Bytes) :
    (writeBytes s base n data).errinfo = s.errinfo := by rw [writeBytes_eq]
@[simp] theorem writeBytes_arg (s : State) (base n : Nat) (data : Bytes) :
    (writeBytes s base n data).arg = s.arg := by rw [writeBytes_eq]
@[simp] theorem writeBytes_wlCount (s : State) (base n : Nat) (data : Bytes) :
    (writeBytes s base n data).wlCount = s.wlCount := by rw [writeBytes_eq]
@[simp] theorem writeBytes_msglen (s : State) (base n : Nat) (data : Bytes) :
    (writeBytes s base n data).msglen = s.msglen := by rw [writeBytes_eq]
@[simp] theorem writeBytes_bitalen (s : State) (base n : Nat) (data : Bytes) :
    (writeBytes s base n data).bitalen = s.bitalen := by rw [writeBytes_eq]
@[simp] theorem writeBytes_bitblen (s : State) (base n : Nat) (data : Bytes) :
    (writeBytes s base n data).bitblen = s.bitblen := by rw [writeBytes_eq]
@[simp] theorem writeBytes_mnCount (s : State) (base n : Nat) (data : Bytes) :
    (writeBytes s base n data).mnCount = s.mnCount := by rw [writeBytes_eq]
@[simp] theorem writeBytes_sklen (s : State) (base n : Nat) (data : Bytes) :
    (writeBytes s base n data).sklen = s.sklen := by rw [writeBytes_eq]
@[simp] theorem writeBytes_idx (s : State) (base n : Nat) (data : Bytes) :
    (writeBytes s base n data).idx = s.idx := by rw [writeBytes_eq]
@[simp] theorem writeBytes_inflight (s : State) (base n : Nat) (data : Bytes) :
    (writeBytes s base n data).inflight = s.inflight := by rw [writeBytes_eq]
@[simp] theorem writeBytes_staged (s : State) (base n : Nat) (data : Bytes) :
    (writeBytes s base n data).staged = s.staged := by rw [writeBytes_eq]
@[simp] theorem writeBytes_attempts (s : State) (base n : Nat) (data : Bytes) :
    (writeBytes s base n data).attempts = s.attempts := by rw [writeBytes_eq]
@[simp] theorem writeBytes_rngPending (s : State) (base n : Nat) (data : Bytes) :
    (writeBytes s base n data).rngPending = s.rngPending := by rw [writeBytes_eq]
@[simp] theorem writeBytes_rst (s : State) (base n : Nat) (data : Bytes) :
    (writeBytes s base n data).rst = s.rst := by rw [writeBytes_eq]
@[simp] theorem writeBytes_resp (s : State) (base n : Nat) (data : Bytes) :
    (writeBytes s base n data).resp = s.resp := by rw [writeBytes_eq]
@[simp] theorem writeBytes_turnTaken (s : State) (base n : Nat) (data : Bytes) :
    (writeBytes s base n data).turnTaken = s.turnTaken := by rw [writeBytes_eq]
@[simp] theorem writeBytes_env (s : State) (base n : Nat) (data : Bytes) :
    (writeBytes s base n data).env = s.env := by rw [writeBytes_eq]
@[simp] theorem writeBytes_draws (s : State) (base n : Nat) (data : Bytes) :
    (writeBytes s base n data).draws = s.draws := by rw [writeBytes_eq]
@[simp] theorem writeBytes_powerUps (s : State) (base n : Nat) (data : Bytes) :
    (writeBytes s base n data).powerUps = s.powerUps := by rw [writeBytes_eq]

/-- What a byte reads as after a buffer write: the data's byte inside the written run, the old byte outside. -/
theorem byteAt_writeBytes (s : State) (base n : Nat) (data : Bytes) (a : Nat) :
    byteAt (writeBytes s base n data) a =
      if base ≤ a ∧ a < base + n ∧ isBuffer a then data.getD (a - base) 0#8 &&& byteMask a else byteAt s a := by
  induction n with
  | zero => rw [writeBytes_zero, if_neg (by omega)]
  | succ n ih =>
    rw [writeBytes_succ, byteAt_storeByte, ih]
    by_cases h : a = base + n
    · subst h
      by_cases hb : isBuffer (base + n)
      · simp [hb]
      · simp [hb]
    · by_cases h1 : base ≤ a ∧ a < base + n ∧ isBuffer a
      · rw [if_neg (fun hc => h hc.1), if_pos h1, if_pos ⟨h1.1, by omega, h1.2.2⟩]
      · rw [if_neg (fun hc => h hc.1), if_neg h1, if_neg (fun hc => h1 ⟨hc.1, by omega, hc.2.2⟩)]

/-- A buffer write keeps the canonical form. -/
theorem wf_writeBytes (s : State) (base n : Nat) (data : Bytes) (h : s.mem.wf = true) :
    (writeBytes s base n data).mem.wf = true := by
  induction n with
  | zero => exact h
  | succ n ih => rw [writeBytes_succ, storeByte_mem]; exact Memory.wf_store _ _ _ ih

/-- The byte run a staged write stores to, as base and length; a register write stores to none. -/
def Write.range : Write → Nat × Nat
  | .sk i _ => (skBase i, 64)
  | .msg _ => (msgBase, 256)
  | .bita _ => (bitaBase, 64)
  | .bitb _ => (bitbBase, 64)
  | .mn k _ => (mnBase k.val, 32)
  | .sklen _ _ | .msglen _ | .bitalen _ | .bitblen _ | .idx _ _ | .mnCount _ | .arg _ | .eqFlag _ => (0, 0)

/-- The bytes a staged write stores. -/
def Write.data : Write → Bytes
  | .sk _ d => d
  | .msg d => d
  | .bita d => d
  | .bitb d => d
  | .mn _ d => d
  | .sklen _ _ | .msglen _ | .bitalen _ | .bitblen _ | .idx _ _ | .mnCount _ | .arg _ | .eqFlag _ => []

theorem Write.range_isBuffer (w : Write) (a : Nat) (h1 : w.range.1 ≤ a) (h2 : a < w.range.1 + w.range.2) :
    isBuffer a = true ∧ isLut a = false := by
  cases w <;>
    simp only [Write.range, skBase, msgBase, bitaBase, bitbBase, mnBase] at h1 h2 <;>
    simp only [isBuffer, isLut, Bool.or_eq_true, Bool.and_eq_true, decide_eq_true_eq, Bool.and_eq_false_iff,
      decide_eq_false_iff_not] <;>
    omega

/-- What a byte reads as after a staged write takes effect. -/
theorem byteAt_applyWrite (s : State) (w : Write) (a : Nat) :
    byteAt (applyWrite s w) a =
      if w.range.1 ≤ a ∧ a < w.range.1 + w.range.2 then w.data.getD (a - w.range.1) 0#8 &&& byteMask a
      else byteAt s a := by
  by_cases h : w.range.1 ≤ a ∧ a < w.range.1 + w.range.2
  · have hb := (Write.range_isBuffer w a h.1 h.2).1
    rw [if_pos h]
    cases w <;> simp only [Write.range] at h <;>
      first
        | (exfalso; omega)
        | (simp only [applyWrite, byteAt_writeBytes, Write.range, Write.data, Config.seedBytes, Config.msgMax,
            Config.bitCap, Config.entryBytes]
           rw [if_pos ⟨h.1, h.2, hb⟩])
  · rw [if_neg h]
    cases w <;> simp only [Write.range] at h <;>
      first
        | (simp only [applyWrite, byteAt_writeBytes, Config.seedBytes, Config.msgMax, Config.bitCap,
            Config.entryBytes]
           exact if_neg fun hc => h ⟨hc.1, hc.2.1⟩)
        | exact byteAt_congr rfl rfl a

/-- A staged write keeps the canonical form. -/
theorem wf_applyWrite (s : State) (w : Write) (h : s.mem.wf = true) : (applyWrite s w).mem.wf = true := by
  cases w <;> first | exact wf_writeBytes s _ _ _ h | exact h

/-! ### What no staged write changes -/

@[simp] theorem applyWrite_irqen (s : State) (w : Write) : (applyWrite s w).irqen = s.irqen := by
  cases w <;> simp only [applyWrite, writeBytes_irqen]
@[simp] theorem applyWrite_busy (s : State) (w : Write) : (applyWrite s w).busy = s.busy := by
  cases w <;> simp only [applyWrite, writeBytes_busy]
@[simp] theorem applyWrite_done (s : State) (w : Write) : (applyWrite s w).done = s.done := by
  cases w <;> simp only [applyWrite, writeBytes_done]
@[simp] theorem applyWrite_err (s : State) (w : Write) : (applyWrite s w).err = s.err := by
  cases w <;> simp only [applyWrite, writeBytes_err]
@[simp] theorem applyWrite_cmdrej (s : State) (w : Write) : (applyWrite s w).cmdrej = s.cmdrej := by
  cases w <;> simp only [applyWrite, writeBytes_cmdrej]
@[simp] theorem applyWrite_wbusy (s : State) (w : Write) : (applyWrite s w).wbusy = s.wbusy := by
  cases w <;> simp only [applyWrite, writeBytes_wbusy]
@[simp] theorem applyWrite_errcode (s : State) (w : Write) : (applyWrite s w).errcode = s.errcode := by
  cases w <;> simp only [applyWrite, writeBytes_errcode]
@[simp] theorem applyWrite_cmd (s : State) (w : Write) : (applyWrite s w).cmd = s.cmd := by
  cases w <;> simp only [applyWrite, writeBytes_cmd]
@[simp] theorem applyWrite_errinfo (s : State) (w : Write) : (applyWrite s w).errinfo = s.errinfo := by
  cases w <;> simp only [applyWrite, writeBytes_errinfo]
@[simp] theorem applyWrite_wlCount (s : State) (w : Write) : (applyWrite s w).wlCount = s.wlCount := by
  cases w <;> simp only [applyWrite, writeBytes_wlCount]
@[simp] theorem applyWrite_inflight (s : State) (w : Write) : (applyWrite s w).inflight = s.inflight := by
  cases w <;> simp only [applyWrite, writeBytes_inflight]
@[simp] theorem applyWrite_staged (s : State) (w : Write) : (applyWrite s w).staged = s.staged := by
  cases w <;> simp only [applyWrite, writeBytes_staged]
@[simp] theorem applyWrite_attempts (s : State) (w : Write) : (applyWrite s w).attempts = s.attempts := by
  cases w <;> simp only [applyWrite, writeBytes_attempts]
@[simp] theorem applyWrite_rngPending (s : State) (w : Write) : (applyWrite s w).rngPending = s.rngPending := by
  cases w <;> simp only [applyWrite, writeBytes_rngPending]
@[simp] theorem applyWrite_rst (s : State) (w : Write) : (applyWrite s w).rst = s.rst := by
  cases w <;> simp only [applyWrite, writeBytes_rst]
@[simp] theorem applyWrite_resp (s : State) (w : Write) : (applyWrite s w).resp = s.resp := by
  cases w <;> simp only [applyWrite, writeBytes_resp]
@[simp] theorem applyWrite_turnTaken (s : State) (w : Write) : (applyWrite s w).turnTaken = s.turnTaken := by
  cases w <;> simp only [applyWrite, writeBytes_turnTaken]
@[simp] theorem applyWrite_env (s : State) (w : Write) : (applyWrite s w).env = s.env := by
  cases w <;> simp only [applyWrite, writeBytes_env]
@[simp] theorem applyWrite_draws (s : State) (w : Write) : (applyWrite s w).draws = s.draws := by
  cases w <;> simp only [applyWrite, writeBytes_draws]
@[simp] theorem applyWrite_powerUps (s : State) (w : Write) : (applyWrite s w).powerUps = s.powerUps := by
  cases w <;> simp only [applyWrite, writeBytes_powerUps]

@[simp] theorem applyWrites_nil (s : State) : applyWrites s [] = s := rfl
@[simp] theorem applyWrites_cons (s : State) (w : Write) (ws : List Write) :
    applyWrites s (w :: ws) = applyWrites (applyWrite s w) ws := rfl
theorem applyWrites_append (s : State) (ws vs : List Write) :
    applyWrites s (ws ++ vs) = applyWrites (applyWrites s ws) vs := List.foldl_append ..

@[simp] theorem applyWrites_irqen (s : State) (ws : List Write) : (applyWrites s ws).irqen = s.irqen := by
  induction ws generalizing s with
  | nil => rfl
  | cons w ws ih => rw [applyWrites_cons, ih, applyWrite_irqen]
@[simp] theorem applyWrites_busy (s : State) (ws : List Write) : (applyWrites s ws).busy = s.busy := by
  induction ws generalizing s with
  | nil => rfl
  | cons w ws ih => rw [applyWrites_cons, ih, applyWrite_busy]
@[simp] theorem applyWrites_done (s : State) (ws : List Write) : (applyWrites s ws).done = s.done := by
  induction ws generalizing s with
  | nil => rfl
  | cons w ws ih => rw [applyWrites_cons, ih, applyWrite_done]
@[simp] theorem applyWrites_err (s : State) (ws : List Write) : (applyWrites s ws).err = s.err := by
  induction ws generalizing s with
  | nil => rfl
  | cons w ws ih => rw [applyWrites_cons, ih, applyWrite_err]
@[simp] theorem applyWrites_cmdrej (s : State) (ws : List Write) : (applyWrites s ws).cmdrej = s.cmdrej := by
  induction ws generalizing s with
  | nil => rfl
  | cons w ws ih => rw [applyWrites_cons, ih, applyWrite_cmdrej]
@[simp] theorem applyWrites_wbusy (s : State) (ws : List Write) : (applyWrites s ws).wbusy = s.wbusy := by
  induction ws generalizing s with
  | nil => rfl
  | cons w ws ih => rw [applyWrites_cons, ih, applyWrite_wbusy]
@[simp] theorem applyWrites_errcode (s : State) (ws : List Write) : (applyWrites s ws).errcode = s.errcode := by
  induction ws generalizing s with
  | nil => rfl
  | cons w ws ih => rw [applyWrites_cons, ih, applyWrite_errcode]
@[simp] theorem applyWrites_cmd (s : State) (ws : List Write) : (applyWrites s ws).cmd = s.cmd := by
  induction ws generalizing s with
  | nil => rfl
  | cons w ws ih => rw [applyWrites_cons, ih, applyWrite_cmd]
@[simp] theorem applyWrites_errinfo (s : State) (ws : List Write) : (applyWrites s ws).errinfo = s.errinfo := by
  induction ws generalizing s with
  | nil => rfl
  | cons w ws ih => rw [applyWrites_cons, ih, applyWrite_errinfo]
@[simp] theorem applyWrites_wlCount (s : State) (ws : List Write) : (applyWrites s ws).wlCount = s.wlCount := by
  induction ws generalizing s with
  | nil => rfl
  | cons w ws ih => rw [applyWrites_cons, ih, applyWrite_wlCount]
@[simp] theorem applyWrites_inflight (s : State) (ws : List Write) : (applyWrites s ws).inflight = s.inflight := by
  induction ws generalizing s with
  | nil => rfl
  | cons w ws ih => rw [applyWrites_cons, ih, applyWrite_inflight]
@[simp] theorem applyWrites_staged (s : State) (ws : List Write) : (applyWrites s ws).staged = s.staged := by
  induction ws generalizing s with
  | nil => rfl
  | cons w ws ih => rw [applyWrites_cons, ih, applyWrite_staged]
@[simp] theorem applyWrites_attempts (s : State) (ws : List Write) : (applyWrites s ws).attempts = s.attempts := by
  induction ws generalizing s with
  | nil => rfl
  | cons w ws ih => rw [applyWrites_cons, ih, applyWrite_attempts]
@[simp] theorem applyWrites_rngPending (s : State) (ws : List Write) : (applyWrites s ws).rngPending = s.rngPending := by
  induction ws generalizing s with
  | nil => rfl
  | cons w ws ih => rw [applyWrites_cons, ih, applyWrite_rngPending]
@[simp] theorem applyWrites_rst (s : State) (ws : List Write) : (applyWrites s ws).rst = s.rst := by
  induction ws generalizing s with
  | nil => rfl
  | cons w ws ih => rw [applyWrites_cons, ih, applyWrite_rst]
@[simp] theorem applyWrites_resp (s : State) (ws : List Write) : (applyWrites s ws).resp = s.resp := by
  induction ws generalizing s with
  | nil => rfl
  | cons w ws ih => rw [applyWrites_cons, ih, applyWrite_resp]
@[simp] theorem applyWrites_turnTaken (s : State) (ws : List Write) : (applyWrites s ws).turnTaken = s.turnTaken := by
  induction ws generalizing s with
  | nil => rfl
  | cons w ws ih => rw [applyWrites_cons, ih, applyWrite_turnTaken]
@[simp] theorem applyWrites_env (s : State) (ws : List Write) : (applyWrites s ws).env = s.env := by
  induction ws generalizing s with
  | nil => rfl
  | cons w ws ih => rw [applyWrites_cons, ih, applyWrite_env]
@[simp] theorem applyWrites_draws (s : State) (ws : List Write) : (applyWrites s ws).draws = s.draws := by
  induction ws generalizing s with
  | nil => rfl
  | cons w ws ih => rw [applyWrites_cons, ih, applyWrite_draws]
@[simp] theorem applyWrites_powerUps (s : State) (ws : List Write) : (applyWrites s ws).powerUps = s.powerUps := by
  induction ws generalizing s with
  | nil => rfl
  | cons w ws ih => rw [applyWrites_cons, ih, applyWrite_powerUps]

theorem wf_applyWrites (s : State) (ws : List Write) (h : s.mem.wf = true) : (applyWrites s ws).mem.wf = true := by
  induction ws generalizing s with
  | nil => exact h
  | cons w ws ih => exact ih _ (wf_applyWrite s w h)

/-- A byte outside every run a list of writes stores to stays. -/
theorem byteAt_applyWrites_of_not_mem (s : State) (ws : List Write) (a : Nat)
    (h : ∀ w ∈ ws, ¬(w.range.1 ≤ a ∧ a < w.range.1 + w.range.2)) : byteAt (applyWrites s ws) a = byteAt s a := by
  induction ws generalizing s with
  | nil => rfl
  | cons w ws ih =>
    rw [applyWrites_cons, ih _ fun v hv => h v (List.mem_cons_of_mem _ hv), byteAt_applyWrite,
      if_neg (h w List.mem_cons_self)]

/-- No staged write reaches the LUT (R41). -/
theorem byteAt_applyWrites_lut (s : State) (ws : List Write) (a : Nat) (h : isLut a = true) :
    byteAt (applyWrites s ws) a = byteAt s a :=
  byteAt_applyWrites_of_not_mem s ws a fun w _ hc => by
    have := (Write.range_isBuffer w a hc.1 hc.2).2
    simp [this] at h

/-! ### The families of writes the commands stage -/

theorem getElem_foldl_set {α : Type} {n : Nat} (l : List (Fin n)) (g : Fin n → α) (v : Vector α n) (i : Fin n) :
    (l.foldl (fun v k => v.set k.val (g k)) v)[i.val] = if i ∈ l then g i else v[i.val] := by
  induction l generalizing v with
  | nil => simp
  | cons k l ih =>
    rw [List.foldl_cons, ih]
    by_cases h : i ∈ l
    · simp [h]
    · by_cases hk : i = k
      · subst hk; simp [h]
      · have : k.val ≠ i.val := fun hc => hk (Fin.ext hc.symm)
        simp [h, hk, this]

theorem applyWrites_map_idx (s : State) (l : List (Fin 24)) (g : Fin 24 → BitVec 16) :
    applyWrites s (l.map fun k => .idx k (g k)) =
      { s with idx := l.foldl (fun v k => v.set k.val (g k)) s.idx } := by
  induction l generalizing s with
  | nil => rfl
  | cons k l ih => simp only [List.map_cons, applyWrites_cons, ih, applyWrite, List.foldl_cons]

/-- All 24 index registers written (R91, R93, R94, R97). -/
theorem applyWrites_idx_all (s : State) (g : Fin 24 → BitVec 16) :
    applyWrites s ((List.finRange 24).map fun k => .idx k (g k)) = { s with idx := Vector.ofFn g } := by
  rw [applyWrites_map_idx]
  have : (List.finRange 24).foldl (fun v k => v.set k.val (g k)) s.idx = Vector.ofFn g := by
    ext i hi
    rw [getElem_foldl_set (List.finRange 24) g s.idx ⟨i, hi⟩]
    simp
  rw [this]

/-- Several mnemonic words written: a byte of `MN[k]` is the entry's byte with its mask for a written k, and every
other byte stays. -/
theorem byteAt_applyWrites_mn (s : State) (l : List (Fin 24)) (e : Fin 24 → Bytes) (k : Fin 24) (j : Nat)
    (hj : j < 32) :
    byteAt (applyWrites s (l.map fun k => .mn k (e k))) (mnBase k.val + j) =
      if k ∈ l then (e k).getD j 0#8 &&& byteMask (mnBase k.val + j) else byteAt s (mnBase k.val + j) := by
  induction l generalizing s with
  | nil => simp
  | cons d l ih =>
    rw [List.map_cons, applyWrites_cons, ih, byteAt_applyWrite]
    by_cases hk : k ∈ l
    · simp [hk]
    · by_cases hd : k = d
      · subst hd
        simp [hk, Write.range, Write.data, hj]
      · have hne : k.val ≠ d.val := fun hc => hd (Fin.ext hc)
        have : ¬((Write.mn d (e d)).range.1 ≤ mnBase k.val + j ∧
            mnBase k.val + j < (Write.mn d (e d)).range.1 + (Write.mn d (e d)).range.2) := by
          simp only [Write.range, mnBase]; omega
        simp [hk, hd, this]

/-! ### Registers after the writes that name them -/

theorem sklenAt_applyWrite_sklen (s : State) (i k : Slot) (n : BitVec 7) :
    sklenAt (applyWrite s (.sklen i n)) k = if k = i then n else sklenAt s k := by
  simp only [sklenAt, applyWrite, Vector.getElem_set]
  by_cases h : k = i
  · subst h; simp
  · have : i.val ≠ k.val := fun hc => h (Fin.ext hc.symm)
    simp [h, this]

/-! ### The complete step -/

theorem complete_none (s : State) (h : s.staged = none) : complete s = s := by simp only [complete, h]

/-- Successful completion (R124). -/
theorem complete_stage (ws : List Write) (s : State) : complete (stage ws s) = finish (applyWrites (stage ws s) ws) := rfl

/-- Error completion (R125). -/
theorem complete_raise (e : ErrorName) (info : Word) (s : State) :
    complete (raise e info s) = { finish (raise e info s) with err := true, errcode := e.code, errinfo := info } := rfl

/-- Everything the complete step can do, said once. -/
theorem complete_cases (s : State) :
    (s.staged = none ∧ complete s = s) ∨
    (∃ ws, s.staged = some (.writes ws) ∧ complete s = finish (applyWrites s ws)) ∨
    (∃ e info, s.staged = some (.error e info) ∧
      complete s = { finish s with err := true, errcode := e.code, errinfo := info }) := by
  unfold complete
  split
  · exact .inl ⟨‹_›, rfl⟩
  · exact .inr (.inl ⟨_, ‹_›, rfl⟩)
  · exact .inr (.inr ⟨_, _, ‹_›, rfl⟩)

/-- The complete step keeps the canonical form. -/
theorem wf_complete (s : State) (h : s.mem.wf = true) : (complete s).mem.wf = true := by
  rcases complete_cases s with ⟨-, hc⟩ | ⟨ws, -, hc⟩ | ⟨e, info, -, hc⟩ <;> rw [hc]
  · exact h
  · exact wf_applyWrites s ws h
  · exact h

end Sys2Proof.Machine
end

