-- ==== Sys2Proof/Laws/Operands.lean ====
section
/-! SUPPORT. The operand views: lengths, single bytes, and the searches said by what they find. -/

namespace Sys2Proof.Machine

open Sys2Proof

@[simp] theorem length_readBytes (s : State) (base n : Nat) : (readBytes s base n).length = n := by simp [readBytes]

theorem getD_readBytes (s : State) (base n i : Nat) (h : i < n) :
    (readBytes s base n).getD i 0#8 = byteAt s (base + i) := by
  simp [readBytes, h]

/-- Views depend on the bytes they read alone. -/
theorem readBytes_congr {s t : State} {base n : Nat} (h : ∀ i, i < n → byteAt t (base + i) = byteAt s (base + i)) :
    readBytes t base n = readBytes s base n :=
  List.map_congr_left fun i hi => h i (List.mem_range.1 hi)

theorem packedBits_congr {s t : State} {base len : Nat}
    (h : ∀ i, i < (len + 7) / 8 → byteAt t (base + i) = byteAt s (base + i)) :
    packedBits t base len = packedBits s base len :=
  List.map_congr_left fun j hj => by rw [h (j / 8) (by have := List.mem_range.1 hj; omega)]

@[simp] theorem length_packedBits (s : State) (base len : Nat) : (packedBits s base len).length = len := by
  simp [packedBits]

@[simp] theorem length_slotBytes (s : State) (i : Slot) : (slotBytes s i).length = 64 := length_readBytes ..
@[simp] theorem length_msgBytes (s : State) : (msgBytes s).length = 256 := length_readBytes ..
@[simp] theorem length_bitsA (s : State) : (bitsA s).length = s.bitalen.toNat := length_packedBits ..
@[simp] theorem length_bitsB (s : State) : (bitsB s).length = s.bitblen.toNat := length_packedBits ..

theorem length_skb (s : State) (i : Slot) (h : (sklenAt s i).toNat ≤ 64) : (skb s i).length = (sklenAt s i).toNat := by
  simp [skb, h]

theorem length_msgb (s : State) (h : s.msglen.toNat ≤ 256) : (msgb s).length = s.msglen.toNat := by
  simp [msgb, h]

/-- `Position(w)` found: the least position that holds the word (R88). -/
theorem position_eq_some (s : State) (w : Bytes) (j : Nat) :
    position s w = some j ↔ j < 2048 ∧ lutWord s j = w ∧ ∀ i, i < j → lutWord s i ≠ w := by
  simp only [position, Config.wlSize, List.find?_range_eq_some, beq_iff_eq, Bool.not_eq_true', beq_eq_false_iff_ne,
    List.mem_range, ne_eq]
  tauto

/-- `Position(w)` is none where no entry holds the word (R88). -/
theorem position_eq_none (s : State) (w : Bytes) : position s w = none ↔ ∀ j, j < 2048 → lutWord s j ≠ w := by
  simp [position, Config.wlSize]

/-- Searching the numbers 0..23 in order finds the least with the property. -/
theorem find_finRange_eq_some (p : Fin 24 → Bool) (k : Fin 24) :
    (List.finRange 24).find? p = some k ↔ p k = true ∧ ∀ k', k' < k → p k' = false := by
  constructor
  · intro h
    rw [List.find?_eq_some_iff_getElem] at h
    obtain ⟨hp, i, hi, he, hall⟩ := h
    refine ⟨hp, fun k' hk' => ?_⟩
    have hik : i = k.val := by rw [← he]; simp
    have := hall k'.val (by rw [hik]; exact hk')
    simpa using this
  · rintro ⟨hp, hall⟩
    rw [List.find?_eq_some_iff_getElem]
    refine ⟨hp, k.val, by simp, by simp, fun j hj => ?_⟩
    have := hall ⟨j, lt_trans hj k.isLt⟩ hj
    simpa using this

theorem find_finRange_eq_none (p : Fin 24 → Bool) : (List.finRange 24).find? p = none ↔ ∀ k, p k = false := by
  simp

theorem firstBadIndex_eq_some (s : State) (k : Fin 24) : firstBadIndex s = some k ↔ FirstOutOfRange s k := by
  simp only [firstBadIndex, find_finRange_eq_some, FirstOutOfRange, decide_eq_true_eq, decide_eq_false_iff_not, not_lt]

theorem firstBadIndex_eq_none (s : State) : firstBadIndex s = none ↔ ∀ k, (idxAt s k).toNat ≤ 2047 := by
  simp only [firstBadIndex, find_finRange_eq_none, decide_eq_false_iff_not, not_lt]

theorem isNone_position (s : State) (w : Bytes) :
    (position s w).isNone = true ↔ ∀ j, j < 2048 → lutWord s j ≠ w := by
  rw [Option.isNone_iff_eq_none, position_eq_none]

theorem firstAbsentWord_eq_some (s : State) (k : Fin 24) : firstAbsentWord s = some k ↔ FirstAbsent s k := by
  simp only [firstAbsentWord, find_finRange_eq_some, FirstAbsent, isNone_position, ← Bool.not_eq_true]
  simp only [not_forall, ne_eq, not_not, exists_prop]

theorem positions_wordPosition {s : State} {f : Fin 24 → Nat} (h : Positions s f) :
    firstAbsentWord s = none ∧ ∀ k, wordPosition s k = f k := by
  have hp : ∀ k : Fin 24, position s (mnWord s k.val) = some (f k) := fun k => (position_eq_some _ _ _).2 (h k)
  refine ⟨(find_finRange_eq_none _).2 fun k => ?_, fun k => ?_⟩
  · simp [hp k]
  · simp [wordPosition, hp k]

/-- A byte of a memory in canonical form has no bit its byte lacks (R39). -/
theorem byteAt_and_byteMask (s : State) (h : s.mem.wf = true) (a : Nat) : byteAt s a &&& byteMask a = byteAt s a := by
  have key : ∀ (m : Memory) (v : Byte), m.all cellOk = true → m.lookup a = some v → v &&& byteMask a = v := by
    intro m v hm hl
    induction m with
    | nil => simp [Memory.lookup] at hl
    | cons c rest ih =>
      obtain ⟨b, w⟩ := c
      rw [List.all_cons, Bool.and_eq_true] at hm
      simp only [Memory.lookup] at hl
      split at hl
      · rename_i hb
        obtain rfl : w = v := by simpa using hl
        have := hm.1
        simp only [cellOk, Bool.and_eq_true, beq_iff_eq] at this
        rw [← hb]; exact this.2
      · exact ih hm.2 hl
  simp only [Memory.wf, Bool.and_eq_true] at h
  unfold byteAt Memory.load
  cases hl : s.mem.lookup a with
  | some v => simpa using key _ v h.2 hl
  | none =>
    cases hb : background a with
    | none => simp [BitVec.and_assoc]
    | some v =>
      have : v = 0#8 := by
        unfold background at hb
        split at hb <;> simp at hb
        exact hb.symm
      subst this; simp

end Sys2Proof.Machine
end

