-- ==== Sys2Proof/Laws/Engine.lean ====
section
/-! SUPPORT. What an execute step, a host access and a step can do, each said once. -/

namespace Sys2Proof.Machine

open Sys2Proof

/-! ### Execute steps -/

/-- The two ways a command other than GENENT ends its execute step. -/
def StagesOrRaises (r : Result) (s : State) : Prop :=
  (∃ ws, r = .next (stage ws s)) ∨ ∃ e info, r = .next (raise e info s)

theorem stagesOrRaises_stage (ws : List Write) (s : State) : StagesOrRaises (.next (stage ws s)) s := .inl ⟨ws, rfl⟩

theorem stagesOrRaises_raise (e : ErrorName) (info : Word) (s : State) :
    StagesOrRaises (.next (raise e info s)) s := .inr ⟨e, info, rfl⟩

theorem stagesOrRaises_ite {p : Prop} [Decidable p] {r q : Result} {s : State} (hr : StagesOrRaises r s)
    (hq : StagesOrRaises q s) : StagesOrRaises (if p then r else q) s := by
  split
  · exact hr
  · exact hq

/-- Everything an execute step can do: it stages writes, stages an error, waits for the CSPRNG, or sends it a
request. -/
theorem exec_cases (i : Instr) (s : State) :
    StagesOrRaises (exec i s) s ∨
    (∃ dst, i = .genent dst ∧
      ((s.rngPending = true ∧ exec i s = .next s) ∨
       (s.rngPending = false ∧ s.attempts ≠ 3 ∧
        exec i s = .next { s with attempts := s.attempts + 1, rngPending := true }))) := by
  cases i with
  | genent dst =>
    by_cases hp : s.rngPending = true
    · exact .inr ⟨dst, rfl, .inl ⟨hp, by simp [exec, execGenent, hp]⟩⟩
    · by_cases ha : s.attempts = 3
      · exact .inl (.inr ⟨.entropyGeneration, 3#32, by simp [exec, execGenent, hp, ha]⟩)
      · exact .inr ⟨dst, rfl, .inr ⟨by simpa using hp, ha, by simp [exec, execGenent, hp, ha]⟩⟩
  | nop => exact .inl (stagesOrRaises_stage ..)
  | zeroize => exact .inl (stagesOrRaises_stage ..)
  | bytes2bits => exact .inl (stagesOrRaises_ite (stagesOrRaises_raise ..) (stagesOrRaises_stage ..))
  | bits2bytes =>
    exact .inl (stagesOrRaises_ite (stagesOrRaises_raise ..)
      (stagesOrRaises_ite (stagesOrRaises_raise ..) (stagesOrRaises_stage ..)))
  | eqbits => exact .inl (stagesOrRaises_ite (stagesOrRaises_raise ..) (stagesOrRaises_stage ..))
  | checksum n =>
    exact .inl (stagesOrRaises_ite (stagesOrRaises_raise ..)
      (stagesOrRaises_ite (stagesOrRaises_raise ..) (stagesOrRaises_stage ..)))
  | ent2bits src => exact .inl (stagesOrRaises_ite (stagesOrRaises_raise ..) (stagesOrRaises_stage ..))
  | bits2idx => exact .inl (stagesOrRaises_ite (stagesOrRaises_raise ..) (stagesOrRaises_stage ..))
  | idx2words =>
    refine .inl (stagesOrRaises_ite (stagesOrRaises_raise ..) ?_)
    cases firstBadIndex s
    · exact stagesOrRaises_stage ..
    · exact stagesOrRaises_raise ..
  | encode src =>
    exact .inl (stagesOrRaises_ite (stagesOrRaises_raise ..)
      (stagesOrRaises_ite (stagesOrRaises_raise ..) (stagesOrRaises_stage ..)))
  | words2idx =>
    refine .inl (stagesOrRaises_ite (stagesOrRaises_raise ..) (stagesOrRaises_ite (stagesOrRaises_raise ..) ?_))
    cases firstAbsentWord s
    · exact stagesOrRaises_stage ..
    · exact stagesOrRaises_raise ..
  | idx2bits =>
    refine .inl ?_
    simp only [exec, execIdx2bits]
    cases firstBadIndex s
    · exact stagesOrRaises_stage ..
    · exact stagesOrRaises_raise ..
  | bits2ent dst =>
    exact .inl (stagesOrRaises_ite (stagesOrRaises_raise ..)
      (stagesOrRaises_ite (stagesOrRaises_stage ..) (stagesOrRaises_raise ..)))
  | decode dst =>
    refine .inl (stagesOrRaises_ite (stagesOrRaises_raise ..) (stagesOrRaises_ite (stagesOrRaises_raise ..) ?_))
    cases firstAbsentWord s
    · exact stagesOrRaises_ite (stagesOrRaises_stage ..) (stagesOrRaises_raise ..)
    · exact stagesOrRaises_raise ..
  | prf dst src =>
    exact .inl (stagesOrRaises_ite (stagesOrRaises_raise ..)
      (stagesOrRaises_ite (stagesOrRaises_raise ..) (stagesOrRaises_stage ..)))
  | dmaster dst src =>
    exact .inl (stagesOrRaises_ite (stagesOrRaises_raise ..)
      (stagesOrRaises_ite (stagesOrRaises_raise ..) (stagesOrRaises_stage ..)))
  | dacct dst src =>
    exact .inl (stagesOrRaises_ite (stagesOrRaises_raise ..)
      (stagesOrRaises_ite (stagesOrRaises_raise ..) (stagesOrRaises_stage ..)))
  | dprroot dst src => exact .inl (stagesOrRaises_ite (stagesOrRaises_raise ..) (stagesOrRaises_stage ..))
  | dprand dst src => exact .inl (stagesOrRaises_ite (stagesOrRaises_raise ..) (stagesOrRaises_stage ..))

/-! ### CSPRNG answers -/

/-- Everything an answer can do. -/
theorem rngAnswered_cases (a : RngAnswer) (s : State) :
    (s.rngPending = false ∧ rngAnswered a s = s) ∨
    (s.rngPending = true ∧
      (rngAnswered a s = { s with rngPending := false } ∨
       (∃ ws, rngAnswered a s = stage ws { s with rngPending := false }) ∨
       ∃ e info, rngAnswered a s = raise e info { s with rngPending := false })) := by
  unfold rngAnswered
  by_cases hp : s.rngPending = true
  · rw [if_pos hp]
    refine .inr ⟨hp, ?_⟩
    cases genentSlot s with
    | none => exact .inl rfl
    | some dst =>
      cases rngResult a with
      | some b => exact .inr (.inl ⟨_, rfl⟩)
      | none =>
        by_cases h3 : s.attempts = 3
        · exact .inr (.inr ⟨_, _, if_pos h3⟩)
        · exact .inl (if_neg h3)
  · rw [if_neg hp]; exact .inl ⟨by simpa using hp, rfl⟩

/-! ### Host accesses -/

/-- An access to a selected target (R47). -/
theorem accessTarget_eq_some (s : State) (off : BitVec 17) (size : Nat) (t : Target) :
    accessTarget s off size = some t ↔
      s.rst = false ∧ size = 4 ∧ off.toNat % 4 = 0 ∧ target off.toNat = some t := by
  unfold accessTarget
  split
  · rename_i h; simp [h]
  · rename_i h
    split
    · rename_i h4; simp [h4]
    · rename_i h4
      split
      · rename_i ha; simp [ha]
      · rename_i ha
        simp only [Bool.not_eq_true] at h
        simp only [h, true_and]
        constructor
        · exact fun hh => ⟨by omega, by omega, hh⟩
        · exact fun hh => hh.2.2

theorem whenIdle_busy {f : State → State} {s : State} (h : s.busy = true) :
    whenIdle f s = { s with wbusy := true } := by simp [whenIdle, h]

theorem whenIdle_idle {f : State → State} {s : State} (h : s.busy = false) : whenIdle f s = f s := by
  simp [whenIdle, h]

/-- A write's effect on the block, said once: nothing, CTRL, ACK, CMD, or a data register or buffer, which a busy engine
protects (R51, R139). -/
theorem writeTarget_cases (v : Word) (s : State) (t : Target) :
    (writeTarget v s t = s) ∨ (t = .ctrl ∧ writeTarget v s t = writeCtrl v s) ∨
    (t = .ack ∧ writeTarget v s t = writeAck v s) ∨ (t = .cmd ∧ writeTarget v s t = writeCmd v s) ∨
    (s.busy = true ∧ writeTarget v s t = { s with wbusy := true }) ∨
    (s.busy = false ∧ writeTarget v s t =
      { s with
        arg := (writeTarget v s t).arg, wlCount := (writeTarget v s t).wlCount
        msglen := (writeTarget v s t).msglen, bitalen := (writeTarget v s t).bitalen
        bitblen := (writeTarget v s t).bitblen, mnCount := (writeTarget v s t).mnCount
        sklen := (writeTarget v s t).sklen, idx := (writeTarget v s t).idx, mem := (writeTarget v s t).mem }) := by
  cases t
  case id | status | errinfo => exact .inl rfl
  case ctrl => exact .inr (.inl ⟨rfl, rfl⟩)
  case ack => exact .inr (.inr (.inl ⟨rfl, rfl⟩))
  case cmd => exact .inr (.inr (.inr (.inl ⟨rfl, rfl⟩)))
  case buffer b =>
    by_cases hb : s.busy = true
    · exact .inr (.inr (.inr (.inr (.inl ⟨hb, whenIdle_busy hb⟩))))
    · have hb : s.busy = false := by simpa using hb
      refine .inr (.inr (.inr (.inr (.inr ⟨hb, ?_⟩))))
      simp only [writeTarget, whenIdle_idle hb]
      rw [writeLanes, writeBytes_eq]
  all_goals
    by_cases hb : s.busy = true
    · exact .inr (.inr (.inr (.inr (.inl ⟨hb, by simp only [writeTarget]; exact whenIdle_busy hb⟩))))
    · have hb : s.busy = false := by simpa using hb
      refine .inr (.inr (.inr (.inr (.inr ⟨hb, ?_⟩))))
      simp only [writeTarget, whenIdle_idle hb]

theorem writeLanes_eq (a : Nat) (v : Word) (s : State) :
    writeLanes a v s = { s with mem := (writeLanes a v s).mem } := writeBytes_eq ..

/-- A buffer word's lanes after the write (R52). -/
theorem byteAt_writeLanes (a : Nat) (v : Word) (s : State) (b : Nat) :
    byteAt (writeLanes a v s) b =
      if a ≤ b ∧ b < a + 4 ∧ isBuffer b then v.extractLsb' (8 * (b - a)) 8 &&& byteMask b else byteAt s b := by
  rw [writeLanes, byteAt_writeBytes]
  split
  · rename_i h
    obtain ⟨j, rfl⟩ : ∃ j, b = a + j := ⟨b - a, by omega⟩
    have hj : j < 4 := by omega
    rw [show a + j - a = j by omega]
    interval_cases j <;> rfl
  · rfl

/-- A host access keeps the canonical form of the memory. -/
theorem wf_hostAccess (a : Access) (s : State) (h : s.mem.wf = true) : (hostAccess a s).mem.wf = true := by
  cases a with
  | read off size => simp only [hostAccess]; split <;> exact h
  | write off size v =>
    simp only [hostAccess]
    split
    · exact h
    · rename_i t _
      show (writeTarget v s t).mem.wf = true
      have idle : ∀ f : State → State, (s.busy = false → (f s).mem.wf = true) → (whenIdle f s).mem.wf = true := by
        intro f hf
        unfold whenIdle
        split
        · exact h
        · rename_i hb; exact hf (by simpa using hb)
      cases t
      case cmd => simp only [writeTarget, writeCmd]; split <;> exact h
      case buffer b => exact idle _ fun _ => wf_writeBytes s _ _ _ h
      case id | ctrl | status | ack | errinfo => exact h
      all_goals exact idle _ fun _ => h

/-! ### Steps -/

/-- Everything the engine's turn can do. -/
theorem engineStep_cases (s : State) :
    (s.busy = false ∧ engineStep s = .next s) ∨
    (s.busy = true ∧ (∃ st, s.staged = some st) ∧ engineStep s = .next (complete s)) ∨
    (s.busy = true ∧ s.staged = none ∧ engineStep s = executeStep s) := by
  unfold engineStep
  by_cases hb : s.busy = true
  · rw [if_pos hb]
    cases hs : s.staged with
    | none => exact .inr (.inr ⟨hb, rfl, rfl⟩)
    | some st => exact .inr (.inl ⟨hb, ⟨st, rfl⟩, rfl⟩)
  · rw [if_neg hb]; exact .inl ⟨by simpa using hb, rfl⟩

/-- When R57 puts the engine's turn off. -/
theorem turnWithheld_iff (s : State) : turnWithheld s = true ↔ s.turnTaken = true ∧ ∃ a, Event.host a ∈ s.env := by
  have h : ∀ e : Event, e.isAccess = true ↔ ∃ a, e = .host a := by
    intro e; cases e <;> simp [Event.isAccess]
  simp only [turnWithheld, Bool.and_eq_true, List.any_eq_true, h]
  constructor
  · rintro ⟨ht, e, he, a, rfl⟩; exact ⟨ht, a, he⟩
  · rintro ⟨ht, a, ha⟩; exact ⟨ht, _, ha, a, rfl⟩

/-- Everything the engine's turn among the listed events can do. -/
theorem engineTurn_cases (s : State) :
    ((s.busy = false ∨ s.rngPending = true) ∧ engineTurn s = .next s) ∨
    (s.busy = true ∧ s.rngPending = false ∧ turnWithheld s = true ∧ engineTurn s = .next s) ∨
    (s.busy = true ∧ s.rngPending = false ∧ turnWithheld s = false ∧
      engineTurn s = engineStep { s with turnTaken := true }) := by
  unfold engineTurn
  cases s.busy <;> cases s.rngPending <;> cases turnWithheld s <;> simp

/-- Everything an execute step can do with the word in flight. -/
theorem executeStep_cases (s : State) :
    (s.inflight = none ∧ executeStep s = .next s) ∨
    (∃ w e, s.inflight = some w ∧ decode w = .error e ∧
      executeStep s = .next (raise .illegalCommand e.info s)) ∨
    (∃ w i, s.inflight = some w ∧ decode w = .ok i ∧ executeStep s = exec i s) := by
  unfold executeStep
  cases hi : s.inflight with
  | none => exact .inl ⟨rfl, rfl⟩
  | some w =>
    cases hd : decode w with
    | error e => exact .inr (.inl ⟨w, e, rfl, hd, by simp [hd]⟩)
    | ok i => exact .inr (.inr ⟨w, i, rfl, hd, by simp [hd]⟩)

theorem step_nil {s : State} (h : s.env = []) : step s = quietStep s := by simp [step, h]

theorem step_cons {s : State} {e : Event} {rest : List Event} (h : s.env = e :: rest) :
    step s = eventStep e { s with env := rest } := by simp [step, h]

end Sys2Proof.Machine
end

