-- ==== Sys2Proof/Laws/PerInstr.lean ====
section
/-! SUPPORT. Statements made per instruction. -/

namespace Sys2Proof.Laws.EncodesToItsRow

open Sys2Proof

/-- The row of R67 at which the command stands, 0 to 19 in the map's order. -/
def row : Instr → Nat
  | .nop => 0
  | .bytes2bits => 1
  | .bits2bytes => 2
  | .eqbits => 3
  | .checksum _ => 4
  | .ent2bits _ => 5
  | .bits2idx => 6
  | .idx2words => 7
  | .encode _ => 8
  | .words2idx => 9
  | .idx2bits => 10
  | .bits2ent _ => 11
  | .decode _ => 12
  | .prf _ _ => 13
  | .dmaster _ _ => 14
  | .dacct _ _ => 15
  | .dprroot _ _ => 16
  | .dprand _ _ => 17
  | .genent _ => 18
  | .zeroize => 19

/-- The command's word matches the row of R67 the command stands at, and no other row. -/
def Statement (i : Instr) : Prop :=
  ∀ k r, opcodeTable[k]? = some r → (Sys2Proof.encode i &&& r.2 = r.1 ↔ k = row i)

/-- A command's word against the twenty rows, one after the other. -/
theorem of_all {i : Instr}
    (h : (List.range 20).all (fun k => decide (Sys2Proof.encode i &&& (opcodeTable.getD k (0, 0)).2 =
      (opcodeTable.getD k (0, 0)).1 ↔ k = row i)) = true) : Statement i := by
  intro k r hr
  have hk : k < 20 := by
    have := (List.getElem?_eq_some_iff.1 hr).1
    simpa [opcodeTable] using this
  have := List.all_eq_true.1 h k (List.mem_range.2 hk)
  simpa [List.getD, hr] using this

theorem nop : Statement (.nop) :=
  of_all (by decide +kernel)
theorem bytes2bits : Statement (.bytes2bits) :=
  of_all (by decide +kernel)
theorem bits2bytes : Statement (.bits2bytes) :=
  of_all (by decide +kernel)
theorem eqbits : Statement (.eqbits) :=
  of_all (by decide +kernel)
theorem checksum (n : BitVec 9) : Statement (.checksum n) :=
  of_all (by revert n; decide +kernel)
theorem ent2bits (src : Slot) : Statement (.ent2bits src) :=
  of_all (by revert src; decide +kernel)
theorem bits2idx : Statement (.bits2idx) :=
  of_all (by decide +kernel)
theorem idx2words : Statement (.idx2words) :=
  of_all (by decide +kernel)
theorem encode (src : Slot) : Statement (.encode src) :=
  of_all (by revert src; decide +kernel)
theorem words2idx : Statement (.words2idx) :=
  of_all (by decide +kernel)
theorem idx2bits : Statement (.idx2bits) :=
  of_all (by decide +kernel)
theorem bits2ent (dst : Slot) : Statement (.bits2ent dst) :=
  of_all (by revert dst; decide +kernel)
theorem decode (dst : Slot) : Statement (.decode dst) :=
  of_all (by revert dst; decide +kernel)
theorem prf (dst : Slot) (src : Slot) : Statement (.prf dst src) :=
  of_all (by revert dst src; decide +kernel)
theorem dmaster (dst : Slot) (src : Slot) : Statement (.dmaster dst src) :=
  of_all (by revert dst src; decide +kernel)
theorem dacct (dst : Slot) (src : Slot) : Statement (.dacct dst src) :=
  of_all (by revert dst src; decide +kernel)
theorem dprroot (dst : Slot) (src : Slot) : Statement (.dprroot dst src) :=
  of_all (by revert dst src; decide +kernel)
theorem dprand (dst : Slot) (src : Slot) : Statement (.dprand dst src) :=
  of_all (by revert dst src; decide +kernel)
theorem genent (dst : Slot) : Statement (.genent dst) :=
  of_all (by revert dst; decide +kernel)
theorem zeroize : Statement (.zeroize) :=
  of_all (by decide +kernel)

end Sys2Proof.Laws.EncodesToItsRow
end

