-- ==== Sys2Proof/Laws/Port.lean ====
section
/-! SUPPORT. The address map of R47: what each range selects, said once. -/

namespace Sys2Proof.Machine

open Sys2Proof

theorem isBuffer_iff (a : Nat) :
    isBuffer a = true ↔ (0x100 ≤ a ∧ a < 0x280) ∨ (0x400 ≤ a ∧ a < 0xB00) ∨ (0x10000 ≤ a ∧ a < 0x20000) := by
  simp only [isBuffer, isLut, Bool.or_eq_true, Bool.and_eq_true, decide_eq_true_eq, or_assoc]

theorem target_sklen (i : Slot) : target (0x040 + 4 * i.val) = some (.sklen i) := by
  revert i; decide

theorem target_idx (k : Fin 24) : target (0x080 + 4 * k.val) = some (.idx k) := by
  revert k; decide

theorem target_buffer {off : Nat} (h : isBuffer off = true) : target off = some (.buffer off) := by
  have hb := (isBuffer_iff off).1 h
  unfold target
  iterate 14 rw [if_neg (by omega)]
  exact if_pos h

theorem target_none {off : Nat} (h4 : off % 4 = 0) (h : ¬Mapped off) : target off = none := by
  unfold Mapped at h
  have hb : ¬isBuffer off = true := by rw [isBuffer_iff]; omega
  unfold target
  iterate 14 rw [if_neg (by omega)]
  exact if_neg hb

/-- The twelve control and parameter registers below 0x30, in the map's order. -/
def lowTargets : List Target :=
  [.id, .ctrl, .status, .ack, .cmd, .errinfo, .arg, .wlCount, .msglen, .bitalen, .bitblen, .mnCount]

theorem target_low (j : Fin 12) : target (4 * j.val) = some (lowTargets[j.val]'(by simp [lowTargets])) := by
  revert j; decide

/-- What an aligned mapped offset selects: one of the low registers, a slot length, an index register, a buffer word. -/
theorem target_cases {off : Nat} (h4 : off % 4 = 0) (h : Mapped off) :
    (∃ j : Fin 12, off = 4 * j.val ∧ target off = some (lowTargets[j.val]'(by simp [lowTargets]))) ∨
    (∃ i : Slot, off = 0x040 + 4 * i.val ∧ target off = some (.sklen i)) ∨
    (∃ k : Fin 24, off = 0x080 + 4 * k.val ∧ target off = some (.idx k)) ∨
    (isBuffer off = true ∧ target off = some (.buffer off)) := by
  unfold Mapped at h
  rcases h with h | h | h | h | h | h
  · refine .inl ⟨⟨off / 4, by omega⟩, by simp only; omega, ?_⟩
    have := target_low ⟨off / 4, by omega⟩
    rwa [show 4 * (off / 4) = off by omega] at this
  · refine .inr (.inl ⟨⟨(off - 0x40) / 4, by omega⟩, by simp only; omega, ?_⟩)
    have := target_sklen ⟨(off - 0x40) / 4, by omega⟩
    rwa [show 0x040 + 4 * ((off - 0x40) / 4) = off by omega] at this
  · refine .inr (.inr (.inl ⟨⟨(off - 0x80) / 4, by omega⟩, by simp only; omega, ?_⟩))
    have := target_idx ⟨(off - 0x80) / 4, by omega⟩
    rwa [show 0x080 + 4 * ((off - 0x80) / 4) = off by omega] at this
  all_goals
    have hb : isBuffer off = true := by rw [isBuffer_iff]; omega
    exact .inr (.inr (.inr ⟨hb, target_buffer hb⟩))

theorem target_isSome {off : Nat} (h4 : off % 4 = 0) : (target off).isSome = true ↔ Mapped off := by
  constructor
  · intro h
    by_contra hm
    rw [target_none h4 hm] at h
    cases h
  · intro h
    rcases target_cases h4 h with ⟨j, -, hj⟩ | ⟨i, -, hi⟩ | ⟨k, -, hk⟩ | ⟨-, hb⟩ <;> simp [*]

/-- A flag's bit in STATUS. -/
theorem getLsbD_flagBit (b : Bool) (p i : Nat) :
    (flagBit b p).getLsbD i = (decide (i < 32) && decide (i = p) && b) := by
  cases b
  · simp [flagBit]
  · rw [flagBit, BitVec.getLsbD_shiftLeft, BitVec.getLsbD_setWidth]
    by_cases h : i < p
    · have : i ≠ p := by omega
      simp [h, this]
    · by_cases h32 : i < 32
      · by_cases he : i = p
        · subst he; simp [h32]
        · have : ¬(i - p = 0) := by omega
          simp [h32, h, he, BitVec.getLsbD_one, this]
      · simp [h32]

end Sys2Proof.Machine
end

