-- ==== Sys2Proof/Machine/HostProgram.lean ====
section
/-! DEFINITION. The host program lines and their expansion into port accesses (spec/30_encoding.md R71). The block
never sees a line, only its accesses; nothing of the machine reads this file. -/

namespace Sys2Proof.Machine

open Sys2Proof

/-- A line of a host program (R71). `expect` is a test's assertion and no access. -/
inductive HostLine where
  | wr (off : BitVec 17) (v : Word)
  | rd (off : BitVec 17)
  | cmd (c : Instr)
  | wait
  | ldbytes (base : BitVec 17) (h : Bytes)
  | ldword (base : BitVec 17) (t : String)
  | ack (v : Word)
  | expect (off : BitVec 17) (v : Word)
  deriving DecidableEq, Repr

/-- Bytes 4w to 4w+3 packed by R52, missing bytes 0 (R71). -/
def packWord (h : Bytes) (w : Nat) : Word :=
  h.getD (4 * w + 3) 0#8 ++ h.getD (4 * w + 2) 0#8 ++ h.getD (4 * w + 1) 0#8 ++ h.getD (4 * w) 0#8

/-- `ldbytes BASE, h` (R71). -/
def ldbytesAccesses (base : BitVec 17) (h : Bytes) : List Access :=
  (List.range ((h.length + 3) / 4)).map fun w => .write (base + BitVec.ofNat 17 (4 * w)) 4 (packWord h w)

/-- The accesses of a line (R71); `wait` gives one poll of STATUS, which its loop repeats until `pollDone`. -/
def HostLine.accesses : HostLine → List Access
  | .wr off v => [.write off 4 v]
  | .rd off => [.read off 4]
  | .cmd c => [.write 0x010#17 4 (encode c)]
  | .wait => [.read 0x008#17 4]
  | .ldbytes base h => ldbytesAccesses base h
  | .ldword base t => ldbytesAccesses base (BitVec.ofNat 8 (ascii t).length :: ascii t)
  | .ack v => [.write 0x00C#17 4 v]
  | .expect _ _ => []

/-- The loop of `wait` ends when bit 0 of the STATUS value read is 0 (R71). -/
def pollDone (r : Response) : Bool :=
  match r with
  | .readOkay v => !v.getLsbD 0
  | .readError v => !v.getLsbD 0
  | .writeOkay => false
  | .writeError => false

end Sys2Proof.Machine
end

