-- ==== Sys2Proof/Tests/Slice0.lean ====
section
/-! SUPPORT. Tests of single steps, the expected values taken from spec/95_test_vectors.md or worked out by hand from
the rules named, and a witness for the hypotheses of each statement of the Obligations file. -/

namespace Sys2Proof.Tests

-- one kernel evaluation after the other: each holds a thread's stack
set_option Elab.async false

open Sys2Proof Sys2Proof.Machine

/-! ### Helpers -/

/-- The state right after reset, idle. -/
abbrev idle : State := State.reset

/-- An engine that has just accepted the command word. -/
def issued (w : Word) (s : State) : State := issue w s

/-- A state with the bytes written from an offset on. -/
def withBytes (s : State) (base : Nat) (data : Bytes) : State := writeBytes s base data.length data

/-- The state after the execute step of i and the complete step. -/
def after (i : Instr) (s : State) : Option State :=
  match exec i s with
  | .next t => some (complete t)
  | .fault _ => none
  | .refused _ => none

/-- The error an execute step stages, with its information word. -/
def raises (i : Instr) (s : State) : Option (ErrorName × Word) :=
  match exec i s with
  | .next t =>
    match t.staged with
    | some (.error e info) => some (e, info)
    | _ => none
  | .fault _ => none
  | .refused _ => none

/-- The slot and the value of the k-th write a command stages, if it writes a slot. -/
def stagedSlot (k : Nat) (i : Instr) (s : State) : Option (Slot × Bytes) :=
  match exec i s with
  | .next t =>
    match t.staged with
    | some (.writes ws) =>
      match ws[k]? with
      | some (.sk d v) => some (d, v)
      | _ => none
    | _ => none
  | .fault _ => none
  | .refused _ => none

/-- The index registers' values, as the writes of a command stage them. -/
def stagedIdx (i : Instr) (s : State) : List Nat :=
  match exec i s with
  | .next t =>
    match t.staged with
    | some (.writes ws) => ws.filterMap fun w =>
      match w with
      | .idx _ v => some v.toNat
      | _ => none
    | _ => []
  | .fault _ => []
  | .refused _ => []

/-- Is the outcome a next state that meets the test? -/
def nextWith (r : Result) (p : State → Bool) : Bool :=
  match r with
  | .next t => p t
  | .fault _ => false
  | .refused _ => false

/-- Sixteen slot lengths, all n. -/
def sklens (n : Nat) : Vector (BitVec 7) 16 := Vector.replicate 16 (BitVec.ofNat 7 n)

/-- Twenty-four index registers, all n. -/
def idxs (n : Nat) : Vector (BitVec 16) 24 := Vector.replicate 24 (BitVec.ofNat 16 n)

/-- The entropy of spec/95 L1.1. -/
def entropyE : Bytes := beBytes 32 0x0182bd0265054bb872a69678465fd218116901e6da9c6dbd722f65fb7bc18fdc

/-! ### Well-formed terms -/

theorem test_wellFormed_dacct_11 : Instr.wellFormed (.dacct 11 15) = true := by decide
theorem test_illFormed_dacct_12 : Instr.wellFormed (.dacct 12 0) = false := by decide
theorem test_illFormed_dacct_15 : Instr.wellFormed (.dacct 15 3) = false := by decide

/-! ### Decoding: each command's word, written out from R64 and R67 -/

theorem test_decode_nop : decode 0x00000000#32 = .ok .nop := by decide
theorem test_decode_bytes2bits : decode 0x00000001#32 = .ok .bytes2bits := by decide
theorem test_decode_bits2bytes : decode 0x00000002#32 = .ok .bits2bytes := by decide
theorem test_decode_eqbits : decode 0x00000003#32 = .ok .eqbits := by decide
theorem test_decode_checksum : decode 0b00000001000000000000000000010000#32 = .ok (.checksum 256#9) := by decide
theorem test_decode_ent2bits : decode 0b00000000000000001010000000100000#32 = .ok (.ent2bits 10) := by decide
theorem test_decode_bits2idx : decode 0x00000021#32 = .ok .bits2idx := by decide
theorem test_decode_idx2words : decode 0x00000022#32 = .ok .idx2words := by decide
theorem test_decode_encode : decode 0x00003023#32 = .ok (.encode 3) := by decide
theorem test_decode_words2idx : decode 0x00000024#32 = .ok .words2idx := by decide
theorem test_decode_idx2bits : decode 0x00000025#32 = .ok .idx2bits := by decide
theorem test_decode_bits2ent : decode 0x00000326#32 = .ok (.bits2ent 3) := by decide
theorem test_decode_decode : decode 0x00000127#32 = .ok (.decode 1) := by decide
theorem test_decode_prf : decode 0b00000000000000000001001000110000#32 = .ok (.prf 2 1) := by decide
theorem test_decode_dmaster : decode 0x00000131#32 = .ok (.dmaster 1 0) := by decide
theorem test_decode_dacct : decode 0x00001232#32 = .ok (.dacct 2 1) := by decide
theorem test_decode_dprroot : decode 0x00001733#32 = .ok (.dprroot 7 1) := by decide
theorem test_decode_dprand : decode 0x00007834#32 = .ok (.dprand 8 7) := by decide
theorem test_decode_genent : decode 0x00000540#32 = .ok (.genent 5) := by decide
theorem test_decode_zeroize : decode 0x000000FF#32 = .ok .zeroize := by decide

/-- spec/95 X3 to X7. -/
theorem test_decode_illegal :
    decode 0x00000004#32 = .error .unknownOpcode ∧ decode 0x80000000#32 = .error .reservedField ∧
    decode 0x00000121#32 = .error .reservedField ∧ decode 0x00000C32#32 = .error .dacctDestination ∧
    decode 0x00F00004#32 = .error .unknownOpcode := by decide

theorem test_decodeTableWord : decodeTableWord 32 0x00001230 = some (.prf 2 1) := by decide

/-- R70's example and spec/95 X8. -/
theorem test_assembly : Instr.assembly (.prf 2 1) = "prf s2, s1" ∧ encode (.prf 2 1) = 0x00001230#32 := by decide

/-! ### Functions -/

/-- spec/95 K1, K2. -/
theorem test_sha256 :
    sha256 [] = beBytes 32 0xe3b0c44298fc1c149afbf4c8996fb92427ae41e4649b934ca495991b7852b855 ∧
    sha256 (ascii "abc") = beBytes 32 0xba7816bf8f01cfea414140de5dae2223b00361a396177a9cb410ff61f20015ad := by
  decide +kernel

/-- spec/45_derivation.md R105, the hex column. -/
theorem test_labels :
    labelMaster = beBytes 17 0x4163636f756e744d617374657253656564 ∧
    labelsAcct =
      [beBytes 20 0x436f696e5370656e644b6579526f6f7453656564,
       beBytes 27 0x436f696e53657269616c4e756d6265724b6579526f6f7453656564,
       beBytes 19 0x436f696e4465746563746f72526f6f744b6579,
       beBytes 20 0x436f696e56616c75654b6579526f6f7453656564,
       beBytes 23 0x436f696e56616c75654b6579526f6f7453656564417574] ∧
    labelPrRoot = beBytes 18 0x5075626c696352616e64526f6f7453656564 := by decide +kernel

/-- R106's examples. -/
theorem test_hex8 : hex8 0xDEADBEEF#32 = beBytes 8 0x6465616462656566 ∧ hex8 255#32 = ascii "000000ff" := by
  decide +kernel

/-! ### Commands -/

/-- R115; spec/95 X1. -/
theorem test_nop : (after .nop idle).map statusWord = some 2#32 := by decide +kernel

/-- spec/95 B1. -/
theorem test_bytes2bits :
    (after .bytes2bits (withBytes { idle with msglen := 1#9 } 0x100 [0xA5#8])).map
      (fun t => (t.bitalen, byteAt t 0x200, byteAt t 0x201, statusWord t)) = some (8#10, 0xA5#8, 0#8, 2#32) := by
  decide +kernel
/-- spec/95 B4. -/
theorem test_bytes2bits_65 : raises .bytes2bits { idle with msglen := 65#9 } = some (.bufferCapacity, 0#32) := by
  decide +kernel

/-- spec/95 B5, with a byte of MSG that the command clears. -/
theorem test_bits2bytes :
    (after .bits2bytes (withBytes (withBytes { idle with bitalen := 16#10 } 0x200 [0x12#8, 0x34#8]) 0x1FF [7#8])).map
      (fun t => (t.msglen, byteAt t 0x100, byteAt t 0x101, byteAt t 0x102, byteAt t 0x1FF)) =
      some (2#9, 0x12#8, 0x34#8, 0#8, 0#8) := by decide +kernel
/-- spec/95 B8, B9. -/
theorem test_bits2bytes_errors :
    raises .bits2bytes { idle with bitalen := 263#10 } = some (.length, 0#32) ∧
    raises .bits2bytes { idle with bitalen := 520#10 } = some (.bufferCapacity, 0#32) := by decide +kernel

/-- spec/95 B13. -/
theorem test_eqbits_prefix :
    (after .eqbits (withBytes (withBytes { idle with bitalen := 4#10, bitblen := 4#10 } 0x200 [0x6F#8]) 0x240
      [0x60#8])).map (fun t => t.eqFlag) = some true := by decide +kernel
/-- spec/95 B11. -/
theorem test_eqbits_lengths :
    (after .eqbits { idle with bitalen := 8#10, bitblen := 7#10, eqFlag := true }).map (fun t => t.eqFlag) =
      some false := by decide +kernel

/-- spec/95 K2. -/
theorem test_checksum :
    (after (.checksum 11#9) (withBytes { idle with msglen := 3#9 } 0x100 (ascii "abc"))).map
      (fun t => (t.bitblen, byteAt t 0x240, byteAt t 0x241, byteAt t 0x242)) =
      some (11#10, 0xBA#8, 0x60#8, 0#8) := by decide +kernel
/-- spec/95 K9, K10. -/
theorem test_checksum_errors :
    raises (.checksum 257#9) idle = some (.checksumLength, 0#32) ∧
    raises (.checksum 257#9) { idle with msglen := 257#9 } = some (.bufferCapacity, 0#32) := by decide +kernel

/-- spec/95 M1. -/
theorem test_ent2bits :
    (after (.ent2bits 0) (withBytes { idle with sklen := sklens 32 } 0x400 entropyE)).map
      (fun t => (t.bitalen, readBytes t 0x200 34)) = some (264#10, entropyE ++ [0x6B#8, 0#8]) := by decide +kernel
/-- spec/95 M2. -/
theorem test_ent2bits_64 : raises (.ent2bits 0) { idle with sklen := sklens 64 } = some (.entropyLength, 0#32) := by
  decide +kernel

/-- spec/95 M3. -/
theorem test_bits2idx :
    (after .bits2idx (withBytes { idle with bitalen := 264#10 } 0x200 (entropyE ++ [0x6B#8]))).map
      (fun t => t.idx.toList.map BitVec.toNat) =
      some [12, 175, 516, 1616, 677, 1761, 1620, 1686, 962, 407, 1956, 385, 180, 1031, 1243, 668, 877, 1884, 1118,
        1631, 1469, 1798, 507, 1131] := by decide +kernel
/-- spec/95 M4. -/
theorem test_bits2idx_256 : raises .bits2idx { idle with bitalen := 256#10 } = some (.mnemonicBitLength, 0#32) := by
  decide +kernel

/-- spec/95 M5 on one word: the whole entry, as the first write stages it. -/
theorem test_idx2words :
    nextWith (exec .idx2words (withBytes { idle with wlCount := 2048#12, idx := idxs 12 } 0x10180
      (7#8 :: ascii "account" ++ zeros 24))) (fun t =>
        match t.staged with
        | some (.writes ws) =>
          ws[0]? == some (.mn 0 (7#8 :: ascii "account" ++ zeros 24)) && ws[24]? == some (.mnCount 24#5)
        | _ => false) = true := by decide +kernel
/-- spec/95 M6, M7. -/
theorem test_idx2words_errors :
    raises .idx2words { idle with wlCount := 2048#12, idx := (idle.idx.set 9 4000#16).set 7 2048#16 } =
      some (.encodingRange, 7#32) ∧
    raises .idx2words { idle with idx := idle.idx.set 7 2048#16 } = some (.wordlistLength, 0#32) := by decide +kernel

/-- spec/95 M20, its index registers. -/
theorem test_encode :
    stagedIdx (.encode 0) { idle with wlCount := 2048#12, sklen := sklens 32 } = List.replicate 23 0 ++ [102] := by
  decide +kernel
/-- spec/95 L1.3: a 2047-word list, and a 31-byte entropy. -/
theorem test_encode_errors :
    raises (.encode 0) { idle with wlCount := 2047#12, sklen := sklens 32 } = some (.wordlistLength, 0#32) ∧
    raises (.encode 0) { idle with wlCount := 2048#12, sklen := sklens 31 } = some (.entropyLength, 0#32) := by
  decide +kernel

/-- spec/95 M8, with a nonzero byte that the packing clears. -/
theorem test_idx2bits :
    (after .idx2bits (withBytes { idle with idx := idle.idx.set 23 102#16 } 0x221 [5#8])).map
      (fun t => (t.bitalen, readBytes t 0x200 34)) = some (264#10, zeros 32 ++ [0x66#8, 0#8]) := by decide +kernel
/-- spec/95, program 3: index 5 out of range. -/
theorem test_idx2bits_range :
    raises .idx2bits { idle with idx := idle.idx.set 5 4000#16 } = some (.encodingRange, 5#32) := by decide +kernel

/-- spec/95 M12. -/
theorem test_bits2ent :
    stagedSlot 0 (.bits2ent 3) (withBytes { idle with bitalen := 264#10 } 0x200 (entropyE ++ [0x6B#8])) =
      some (3, entropyE ++ zeros 32) := by decide +kernel
/-- spec/95 M11, M13. -/
theorem test_bits2ent_errors :
    raises (.bits2ent 3) (withBytes { idle with bitalen := 264#10 } 0x200 (entropyE ++ [0x6A#8])) =
      some (.checksumMismatch, 0#32) ∧
    raises (.bits2ent 3) { idle with bitalen := 265#10 } = some (.mnemonicBitLength, 0#32) := by decide +kernel

/-- spec/95 L1.3 and M21: 23 and 25 words. -/
theorem test_decode_count :
    raises (.decode 1) { idle with wlCount := 2048#12, mnCount := 23#5 } = some (.mnemonicLength, 0#32) ∧
    raises (.words2idx) { idle with wlCount := 2048#12, mnCount := 25#5 } = some (.mnemonicLength, 0#32) := by
  decide +kernel

/-- spec/95 P1. -/
theorem test_prf :
    stagedSlot 0 (.prf 2 1) idle = some (2, beBytes 64
      0x78ab390633ca670354a7fb4552e716bcc07bda760818b36ea1f84a8271e2e958cec907b9f53c62ad0892ced88659613d7ca521a5b4c921e8a8e9b18c53efed7d) := by
  decide +kernel
/-- spec/95 L2.4, errors. -/
theorem test_prf_errors :
    raises (.prf 4 4) { idle with sklen := sklens 65 } = some (.bufferCapacity, 0#32) ∧
    raises (.prf 4 4) { idle with msglen := 300#9 } = some (.bufferCapacity, 0#32) := by decide +kernel

/-- spec/95 L1.1: the master seed. -/
theorem test_dmaster :
    stagedSlot 0 (.dmaster 1 0) (withBytes { idle with sklen := sklens 32 } 0x400 entropyE) = some (1, beBytes 64
      0x4f9045c1d0def3806c8944efb34b85526c63732c262ef4edf88948e356ed405ac500113725f4d799efd120893b8cd1ffbe80ef780b165169e1b2a7da8db54621) := by
  decide +kernel
/-- spec/95 L2.5, errors: the entropy's length is checked first. -/
theorem test_dmaster_errors :
    raises (.dmaster 1 0) { idle with sklen := sklens 64, msglen := 257#9 } = some (.entropyLength, 0#32) ∧
    raises (.dmaster 1 0) { idle with sklen := sklens 32, msglen := 257#9 } = some (.bufferCapacity, 0#32) := by
  decide +kernel

/-- The master seed of spec/95 L1.1. -/
def masterM : Bytes := beBytes 64
  0x4f9045c1d0def3806c8944efb34b85526c63732c262ef4edf88948e356ed405ac500113725f4d799efd120893b8cd1ffbe80ef780b165169e1b2a7da8db54621

/-- spec/95 L2.5: DACCT's second output, in the slot after dst. -/
theorem test_dacct :
    stagedSlot 2 (.dacct 2 1) (withBytes { idle with sklen := sklens 64 } 0x440 masterM) = some (3, beBytes 64
      0xb1ebc633a935289425b96ce9d746eb1db77e0a695b17e707c2bac6250507c1db688ca2787e9175f907f350d7ed5d2372759708de7a267fa76fdbfaf3d9a66f1d) := by
  decide +kernel
/-- spec/95 L2.5, errors. -/
theorem test_dacct_errors : raises (.dacct 2 1) { idle with sklen := sklens 32 } = some (.masterSeedLength, 0#32) := by
  decide +kernel

/-- spec/95 L2.5: DPRROOT. -/
theorem test_dprroot :
    stagedSlot 0 (.dprroot 7 1) (withBytes { idle with sklen := sklens 64 } 0x440 masterM) = some (7, beBytes 64
      0x9736259703c7fca47fa91b97577b8d8c0b8a053b52f56dc81b1fc6b94aa83b412d2a40eb7f76f2a00600b4ccdedb080be7b1864a584bfaaebbb7d258656add5f) := by
  decide +kernel
/-- spec/95 L2.5, errors. -/
theorem test_dprroot_63 : raises (.dprroot 7 1) { idle with sklen := sklens 63 } = some (.masterSeedLength, 0#32) := by
  decide +kernel

/-- spec/95 L1.4: DPRAND at the last index. -/
theorem test_dprand :
    stagedSlot 0 (.dprand 8 7) (withBytes { idle with sklen := sklens 64, arg := 0xFFFFFFFF#32 } 0x5C0 (beBytes 64
      0x9736259703c7fca47fa91b97577b8d8c0b8a053b52f56dc81b1fc6b94aa83b412d2a40eb7f76f2a00600b4ccdedb080be7b1864a584bfaaebbb7d258656add5f)) =
      some (8, beBytes 64
      0x82fbf2e0975c6e483658a0b98b2b36878e661f91c499ec8496255b6e24321c752016d8df606dfd7ed77512b194919c5b8bd8fc6fa8cb9f2d4b826c390346cdf8) := by
  decide +kernel
/-- spec/95 L2.5, errors. -/
theorem test_dprand_32 : raises (.dprand 8 7) { idle with sklen := sklens 32 } = some (.seedLength, 0#32) := by
  decide +kernel

/-- spec/95 L2.6: the third answer is bytes. -/
theorem test_genent_ok :
    nextWith (step { issued 0x540#32 idle with attempts := 3, rngPending := true, env := [.rng (.ok (Vector.replicate 32 9#8))] })
      (fun t => t.staged == some (.writes [.sk 5 (List.replicate 32 9#8 ++ zeros 32), .sklen 5 32#7]) && !t.rngPending) =
      true := by decide +kernel
/-- spec/95 L2.6: the third answer fails. -/
theorem test_genent_fails :
    nextWith (step { issued 0x540#32 idle with attempts := 3, rngPending := true, env := [.rng (.short 31)] })
      (fun t => t.staged == some (.error .entropyGeneration 3#32)) = true := by decide +kernel

/-- R116: 16 slots with their lengths, MSG, BITA, BITB with theirs, 24 index registers, 24 words, and three more. -/
theorem test_zeroize :
    nextWith (exec .zeroize idle) (fun t =>
      match t.staged with
      | some (.writes ws) =>
        ws.length == 89 && ws.contains (.sk 15 (zeros 64)) && ws.contains (.mn 23 (zeros 32)) &&
          ws.contains (.arg 0#32) && ws.contains (.eqFlag false)
      | _ => false) = true := by decide +kernel

/-! ### Port -/

/-- spec/95 X9, X12, X13. -/
theorem test_port_writes :
    (readBytes (memWrite idle 0x100#17 0x44332211#32) 0x100 4, (memWrite idle 0x020#17 0x301#32).msglen,
      byteAt (memWrite idle 0x800#17 0xE7#32) 0x800) = ([0x11#8, 0x22#8, 0x33#8, 0x44#8], 257#9, 7#8) := by
  decide +kernel
/-- spec/95 X10, X11, X17. -/
theorem test_port_answers :
    memRead idle 0x002#17 = some (.readError 0#32) ∧ memRead idle 0x030#17 = some (.readError 0#32) ∧
    (memWrite idle 0x000#17 5#32).resp = some .writeOkay ∧ memRead idle 0x000#17 = some (.readOkay 0x41495031#32) := by
  decide +kernel
/-- spec/95 X14, X15. -/
theorem test_port_busy :
    statusWord (memWrite (issued 0#32 idle) 0x010#17 1#32) = 0x11#32 ∧
    (memWrite (issued 0#32 idle) 0x010#17 1#32).cmd = 0#32 ∧
    statusWord (memWrite (issued 0#32 idle) 0x020#17 5#32) = 0x21#32 ∧
    (memWrite (issued 0#32 idle) 0x020#17 5#32).msglen = 0#9 := by decide +kernel
/-- spec/95 X16. -/
theorem test_port_irq :
    irq (memWrite { idle with done := true } 0x004#17 1#32) = true ∧
    irq (memWrite { idle with done := true, irqen := true } 0x00C#17 1#32) = false := by decide +kernel
/-- spec/95 L1.2 and R71: "account" as a word entry. -/
theorem test_ldword :
    HostLine.accesses (.ldword 0x10180#17 "account") =
      [.write 0x10180#17 4 0x63636107#32, .write 0x10184#17 4 0x746e756f#32] := by decide +kernel

/-! ### Witnesses: states and operands that meet each statement's hypotheses -/

/-- DecodeReadsBackEncode: DACCT at its last destination, and the widest AUX. -/
theorem witness_wellFormed : WellFormed (.dacct 11 15) ∧ WellFormed (.checksum 511#9) := by decide

/-- EncodeReadsBackDecode. -/
theorem witness_decodes : decode 0xFB32#32 = .ok (.dacct 11 15) := by decide

/-- IllegalWordsRaise: a busy engine with a word in flight, and each clause's word. -/
theorem witness_illegal_words :
    (issued 0x04#32 idle).busy = true ∧ (issued 0x04#32 idle).staged = none ∧
    (issued 0x04#32 idle).inflight = some 0x04#32 ∧ (∀ r ∈ opcodeTable, 0x04#32 &&& 0xFF#32 ≠ r.1) ∧
    ((0x21#32, 0xFFFFFFFF#32) ∈ opcodeTable ∧ 0x121#32 &&& 0xFF#32 = 0x21#32 ∧ 0x121#32 &&& 0xFFFFFFFF#32 ≠ 0x21#32) ∧
    (0xFC32#32 &&& 0xFFFF00FF#32 = 0x32#32 ∧ 11 < (0xFC32#32 >>> 8 &&& 0xF#32).toNat) :=
  ⟨rfl, rfl, rfl, by simp [opcodeTable], by decide +kernel, by decide +kernel⟩

/-- StepRunsTheDecodedCommand: a command to execute or to complete, with no event listed. -/
theorem witness_step_runs :
    (issued 0x7834#32 idle).busy = true ∧ (issued 0x7834#32 idle).staged = none ∧
    (issued 0x7834#32 idle).inflight = some 0x7834#32 ∧ decode 0x7834#32 = .ok (.dprand 8 7) ∧
    (issued 0x7834#32 idle).env = [] ∧ (issued 0x7834#32 idle).rngPending = false ∧
    (stage [] (issued 0#32 idle)).staged = some (.writes []) := by decide

/-- Word 0 in flight, and the engine's turn, with the other events of the list behind it. -/
def turnOf (taken : Bool) (rest : List Event) : State :=
  { issued 0#32 idle with turnTaken := taken, env := .engine :: rest }

/-- StepRunsTheDecodedCommand: a turn with an access to come, a turn with none, a turn that R57 puts off; an idle
engine's turn; a host access; and a step that leaves the turn taken. -/
theorem witness_turns :
    ((turnOf false [.host (.read 8#17 4)]).busy = true ∧ (turnOf false [.host (.read 8#17 4)]).rngPending = false ∧
      (turnOf false [.host (.read 8#17 4)]).turnTaken = false) ∧
    ((turnOf true [.powerUp]).turnTaken = true ∧ ∀ a, .host a ∉ [Event.powerUp]) ∧
    ((turnOf true [.powerUp, .host (.read 8#17 4)]).turnTaken = true ∧
      ∃ a, .host a ∈ [Event.powerUp, .host (.read 8#17 4)]) ∧
    (stage [] (turnOf false [])).staged = some (.writes []) ∧ ({ idle with env := [.engine] }).busy = false ∧
    ({ idle with env := [.host (.read 8#17 4)] }).env = .host (.read 8#17 4) :: [] ∧
    ∃ t, step (turnOf true []) = .next t ∧ t.turnTaken = true :=
  ⟨⟨rfl, rfl, rfl⟩, ⟨rfl, by simp⟩, ⟨rfl, .read 8#17 4, by simp⟩, rfl, rfl, rfl, _, rfl, rfl⟩

/-- R57: of two turns between two accesses the second is put off, and the access opens the next. -/
theorem test_one_engine_step_between_accesses :
    (runSteps 2 (turnOf false [.engine, .host (.read 8#17 4), .engine])).map (fun t => (t.busy, t.staged)) =
      some (true, some (.writes [])) ∧
    (runSteps 4 (turnOf false [.engine, .host (.read 8#17 4), .engine])).map (fun t => (t.busy, t.done)) =
      some (false, true) := by decide +kernel

/-- PlacedWordRunsNext: a word of the table, with no event listed before and with one. -/
theorem witness_placed :
    decodeTableWord 32 0x7834 = some (.dprand 8 7) ∧ idle.env = [] ∧ ({ idle with env := [.powerUp] }).env ≠ [] := by
  decide

/-- StepKeepsInvariant and EveryCommandEnds: a busy engine in the invariant, nothing listed, and its step. -/
theorem witness_invariant :
    BlockInvariant (issued 0x7834#32 idle) ∧ (issued 0x7834#32 idle).busy = true ∧ (issued 0x7834#32 idle).env = [] ∧
    ∃ t, step (issued 0x7834#32 idle) = .next t :=
  ⟨{ memory := rfl, busy_inflight := rfl, inflight_cmd := by intro w h; simpa [issued, issue] using h
     busy_flags := fun _ => ⟨rfl, rfl⟩, no_error := fun _ => ⟨rfl, rfl⟩, error_code := by intro h; cases h
     staged_busy := fun _ => rfl, pending := by intro h; cases h
     reset_idle := by intro h; cases h },
   rfl, rfl, _, rfl⟩

/-- CmdWriteIssuesOrIsRejected, ReadOnlyRegistersIgnoreWrites, AckClearsItsFlags, StatusReadsItsFlags,
NarrowRegistersKeepLowBits, IrqRisesOnlyByCompletionOrEnable: an idle block out of reset. -/
theorem witness_idle : idle.rst = false ∧ idle.busy = false := by decide

/-- The same statements' clauses that hold busy or not, and OperandsFrozenWhileBusy: a busy block out of reset. -/
theorem witness_busy : (issued 0#32 idle).rst = false ∧ (issued 0#32 idle).busy = true := by decide

/-- DataWriteWhileBusyIsDropped: the first and the last data offset. -/
theorem witness_data_offsets :
    (issued 0#32 idle).rst = false ∧ (issued 0#32 idle).busy = true ∧
    ((0x018#17).toNat % 4 = 0 ∧ DataOffset (0x018#17).toNat) ∧
    ((0x1FFFC#17).toNat % 4 = 0 ∧ DataOffset (0x1FFFC#17).toNat) := by
  simp [DataOffset, Mapped, issued, issue]

/-- BadAccessIsAnsweredError: reset asserted, another size, a misaligned offset, the offsets around the map's holes. -/
theorem witness_bad_access :
    ({ idle with rst := true }).rst = true ∧ (2 : Nat) ≠ 4 ∧ (0x002#17).toNat % 4 ≠ 0 ∧
    ∀ off ∈ [0x030#17, 0x03C#17, 0x0E0#17, 0x0FC#17, 0x280#17, 0x3FC#17, 0xB00#17, 0xFFFC#17], ¬Mapped off.toNat := by
  simp [Mapped]

/-- GoodAccessIsAnsweredOkay and ResetStateAsTabled: the offsets at both ends of each range of the map. -/
theorem witness_good_access :
    idle.rst = false ∧ ∀ off ∈ [0x004#17, 0x02C#17, 0x040#17, 0x07C#17, 0x080#17, 0x0DC#17, 0x100#17, 0x27C#17,
      0x400#17, 0xAFC#17], off.toNat % 4 = 0 ∧ Mapped off.toNat ∧ 0 < off.toNat ∧ off.toNat < 0x10000 := by
  simp [Mapped]

/-- BufferWordsHaveLittleEndianLanes: the words at both ends of each run of buffers, idle and, for the reads, busy. -/
theorem witness_buffer_words :
    idle.rst = false ∧ idle.busy = false ∧ (issued 0#32 idle).rst = false ∧ (issued 0#32 idle).busy = true ∧
    ∀ off ∈ [0x100#17, 0x27C#17, 0x400#17, 0x7FC#17, 0x800#17, 0xAFC#17, 0x10000#17, 0x1FFFC#17],
      off.toNat % 4 = 0 ∧ isBuffer off.toNat = true := by
  simp [isBuffer, isLut, issued, issue]

/-- ErrorCompletionChangesNoData: a record under way, and a command that raises one. -/
theorem witness_error_completion :
    (raise .length 7#32 (issued 1#32 idle)).busy = true ∧
    (raise .length 7#32 (issued 1#32 idle)).staged = some (.error .length 7#32) ∧
    (issued 1#32 { idle with msglen := 65#9 }).busy = true ∧ (issued 1#32 { idle with msglen := 65#9 }).staged = none ∧
    ∃ t, exec .bytes2bits (issued 1#32 { idle with msglen := 65#9 }) = .next t ∧
      t.staged = some (.error .bufferCapacity 0#32) := ⟨rfl, rfl, rfl, rfl, _, rfl, rfl⟩

/-- SuccessfulCompletionAppliesTheWrites. -/
theorem witness_successful_completion :
    (stage [.arg 5#32] (issued 0#32 idle)).busy = true ∧
    (stage [.arg 5#32] (issued 0#32 idle)).staged = some (.writes [.arg 5#32]) := by decide

/-- ExecuteStepOnlyStages. -/
theorem witness_execute_step : exec .nop (issued 0#32 idle) = .next (stage [] (issued 0#32 idle)) := rfl

/-- OnlyEqbitsAndZeroizeWriteEq: both commands change EQ. -/
theorem witness_eq_changes :
    (idle.staged = none ∧ ∃ t, exec .eqbits idle = .next t ∧ (complete t).eqFlag ≠ idle.eqFlag) ∧
    ({ idle with eqFlag := true }).staged = none ∧
    ∃ t, exec .zeroize { idle with eqFlag := true } = .next t ∧
      (complete t).eqFlag ≠ ({ idle with eqFlag := true }).eqFlag := by
  refine ⟨⟨rfl, stage [.eqFlag (equalBits (bitsA idle) (bitsB idle))] idle, rfl, by decide +kernel⟩, rfl, _, rfl, ?_⟩
  simp only [complete, stage, zeroizeWrites, applyWrites, List.foldl_append]
  exact Bool.false_ne_true

/-- IrqRisesOnlyByCompletionOrEnable: it rises by a completion, and by a write to CTRL. -/
theorem witness_irq :
    (∃ t, step (stage [] (issued 0#32 { idle with irqen := true })) = .next t ∧
      irq (stage [] (issued 0#32 { idle with irqen := true })) = false ∧ irq t = true) ∧
    ∃ t, step { idle with done := true, env := [.host (.write 0x004#17 4 1#32)] } = .next t ∧
      irq { idle with done := true, env := [.host (.write 0x004#17 4 1#32)] } = false ∧ irq t = true :=
  ⟨⟨_, rfl, by decide, by decide⟩, _, rfl, by decide, by decide⟩

/-- A block whose host is about to write the LUT word at 0x10000, byte 1 of which it wrote before. -/
def lutWriter : State := { idle with mem := [(0x10001, 1#8)], env := [.host (.write 0x10000#17 4 0#32)] }

/-- A block about to be powered up, whose LUT byte differs from the value it will have. -/
def lutLoser : State := { idle with mem := [(0x10001, ~~~(Config.lutPowerUp 1 0x10001))], env := [.powerUp] }

/-- OnlyTheHostWritesTheLut: a LUT byte changes by a host write, and by a power-up. -/
theorem witness_lut_changes :
    (∃ t, step lutWriter = .next t ∧ byteAt t 0x10001 ≠ byteAt lutWriter 0x10001) ∧
    ∃ t, step lutLoser = .next t ∧ byteAt t 0x10001 ≠ byteAt lutLoser 0x10001 := by
  refine ⟨⟨_, rfl, by decide +kernel⟩, _, rfl, ?_⟩
  show Config.lutPowerUp 1 0x10001 &&& 0xFF#8 ≠ ~~~(Config.lutPowerUp 1 0x10001)
  generalize Config.lutPowerUp 1 0x10001 = v
  revert v; decide

/-- ResetAbandonsAndClears: reset asserted, released, and a power-up, with a command in flight. -/
theorem witness_reset :
    ({ issued 0#32 idle with env := [.rst true] }).env = .rst true :: [] ∧
    ({ issued 0#32 idle with env := [.rst false] }).env = .rst false :: [] ∧
    ({ issued 0#32 idle with env := [.powerUp] }).env = .powerUp :: [] := ⟨rfl, rfl, rfl⟩

/-- BitsAndBytesAreInverse, GroupsAndJoinAreInverse, IndexIsEightHexCharacters. -/
theorem witness_functions :
    (zeroBits 16).length % 8 = 0 ∧ (zeroBits 264).length = 264 ∧ (∀ k : Fin 24, (fun _ => 2047) k < 2048) ∧
    0 < 8 ∧ 7 < 8 := by decide +kernel

/-- Bytes2bitsResult: either side of the capacity. -/
theorem witness_bytes2bits :
    64 < ({ idle with msglen := 65#9 }).msglen.toNat ∧ ({ idle with msglen := 64#9 }).msglen.toNat ≤ 64 := by decide

/-- Bits2bytesResult: over the capacity, at it, no multiple of 8. -/
theorem witness_bits2bytes :
    512 < ({ idle with bitalen := 513#10 }).bitalen.toNat ∧
    (({ idle with bitalen := 511#10 }).bitalen.toNat ≤ 512 ∧ ({ idle with bitalen := 511#10 }).bitalen.toNat % 8 ≠ 0) ∧
    (({ idle with bitalen := 512#10 }).bitalen.toNat ≤ 512 ∧ ({ idle with bitalen := 512#10 }).bitalen.toNat % 8 = 0) := by
  decide

/-- EqbitsResult: each length over the capacity, and both at it. -/
theorem witness_eqbits :
    512 < ({ idle with bitalen := 513#10 }).bitalen.toNat ∧ 512 < ({ idle with bitblen := 513#10 }).bitblen.toNat ∧
    ({ idle with bitalen := 512#10, bitblen := 512#10 }).bitalen.toNat ≤ 512 ∧
    ({ idle with bitalen := 512#10, bitblen := 512#10 }).bitblen.toNat ≤ 512 := by decide

/-- NopCompletes: OPC 0 with another field set. -/
theorem witness_nop : 0x100#32 &&& 0xFF#32 = 0#32 ∧ 0x100#32 ≠ 0#32 := by decide

/-- ChecksumResult: message and checksum length either side of their bounds. -/
theorem witness_checksum :
    256 < ({ idle with msglen := 257#9 }).msglen.toNat ∧ ({ idle with msglen := 256#9 }).msglen.toNat ≤ 256 ∧
    256 < (257#9).toNat ∧ (256#9).toNat ≤ 256 := by decide

/-- Ent2bitsResult and DmasterResult's first clause: lengths around 32. -/
theorem witness_entropy_length :
    (sklenAt { idle with sklen := sklens 31 } 15).toNat ≠ 32 ∧ (sklenAt { idle with sklen := sklens 33 } 0).toNat ≠ 32 ∧
    (sklenAt { idle with sklen := sklens 32 } 15).toNat = 32 := by decide

/-- Bits2idxResult, Bits2entResult's first clause. -/
theorem witness_bitalen :
    ({ idle with bitalen := 263#10 }).bitalen.toNat ≠ 264 ∧ ({ idle with bitalen := 265#10 }).bitalen.toNat ≠ 264 ∧
    ({ idle with bitalen := 264#10 }).bitalen.toNat = 264 := by decide

/-- Idx2wordsResult, EncodeResult, Words2idxResult, DecodeResult: word-list sizes around 2048, and mnemonic sizes
around 24. -/
theorem witness_counts :
    idle.mem.wf = true ∧ ({ idle with wlCount := 2047#12 }).wlCount.toNat ≠ 2048 ∧
    ({ idle with wlCount := 2049#12 }).wlCount.toNat ≠ 2048 ∧ ({ idle with wlCount := 2048#12 }).wlCount.toNat = 2048 ∧
    ({ idle with wlCount := 2048#12, mnCount := 23#5 }).mnCount.toNat ≠ 24 ∧
    ({ idle with wlCount := 2048#12, mnCount := 25#5 }).mnCount.toNat ≠ 24 ∧
    ({ idle with wlCount := 2048#12, mnCount := 24#5 }).mnCount.toNat = 24 := by decide

/-- EncodeResult, EncodeIsItsStepCommands: all checks pass; one word-list entry short; one byte short. -/
theorem witness_encode :
    ({ idle with wlCount := 2048#12, sklen := sklens 32 }).wlCount.toNat = 2048 ∧
    (sklenAt { idle with wlCount := 2048#12, sklen := sklens 32 } 3).toNat = 32 ∧
    (sklenAt { idle with wlCount := 2048#12, sklen := sklens 31 } 3).toNat ≠ 32 ∧
    ({ idle with wlCount := 2048#12, sklen := sklens 32 }).mem.wf = true := by decide

/-- Idx2wordsResult, Idx2bitsResult: the first index out of range at either end, and none out of range. -/
theorem witness_indices :
    FirstOutOfRange { idle with wlCount := 2048#12, idx := idxs 2048 } 0 ∧
    FirstOutOfRange { idle with wlCount := 2048#12, idx := (idxs 2047).set 23 2048#16 } 23 ∧
    ∀ k, (idxAt { idle with wlCount := 2048#12, idx := idxs 2047 } k).toNat ≤ 2047 := by
  refine ⟨⟨by decide, fun k' h => absurd h (by omega)⟩, ⟨by decide, ?_⟩, by decide⟩
  decide

/-- Bits2entResult: the checksum that fails and the one that holds, on 32 bytes of entropy and one of checksum. -/
theorem witness_bits2ent :
    (sha256 (readBytes (withBytes { idle with bitalen := 264#10 } 0x200 (entropyE ++ [0x6A#8])) bitaBase 32)).getD 0 0#8 ≠
      byteAt (withBytes { idle with bitalen := 264#10 } 0x200 (entropyE ++ [0x6A#8])) (0x200 + 32) ∧
    (sha256 (readBytes (withBytes { idle with bitalen := 264#10 } 0x200 (entropyE ++ [0x6B#8])) bitaBase 32)).getD 0 0#8 =
      byteAt (withBytes { idle with bitalen := 264#10 } 0x200 (entropyE ++ [0x6B#8])) (0x200 + 32) ∧
    (withBytes { idle with bitalen := 264#10 } 0x200 (entropyE ++ [0x6B#8])).bitalen.toNat = 264 := by decide +kernel

/-- PrfResult: key and message at and over their capacities. -/
theorem witness_prf :
    64 < (sklenAt { idle with sklen := sklens 65 } 4).toNat ∧ 256 < ({ idle with msglen := 257#9 }).msglen.toNat ∧
    (sklenAt { idle with sklen := sklens 64, msglen := 256#9 } 4).toNat ≤ 64 ∧
    ({ idle with sklen := sklens 64, msglen := 256#9 }).msglen.toNat ≤ 256 := by decide

/-- DmasterResult, DerivationTreeSequence: 32 bytes of entropy with contexts of 257 and 256 bytes. -/
theorem witness_dmaster :
    (sklenAt { idle with sklen := sklens 32, msglen := 257#9 } 0).toNat = 32 ∧
    256 < ({ idle with sklen := sklens 32, msglen := 257#9 }).msglen.toNat ∧
    (sklenAt { idle with sklen := sklens 32, msglen := 256#9 } 0).toNat = 32 ∧
    ({ idle with sklen := sklens 32, msglen := 256#9 }).msglen.toNat ≤ 256 := by decide

/-- DacctResult: destinations either side of 11, and lengths around 64. -/
theorem witness_dacct :
    11 < (12 : Slot).val ∧ (11 : Slot).val ≤ 11 ∧ (sklenAt { idle with sklen := sklens 63 } 1).toNat ≠ 64 ∧
    (sklenAt { idle with sklen := sklens 64 } 1).toNat = 64 := by decide

/-- DprrootResult, DprandResult: lengths around 64. -/
theorem witness_seed_length :
    (sklenAt { idle with sklen := sklens 63 } 7).toNat ≠ 64 ∧ (sklenAt { idle with sklen := sklens 65 } 7).toNat ≠ 64 ∧
    (sklenAt { idle with sklen := sklens 64 } 7).toNat = 64 := by decide

/-- DprandReadsRootSeedAndArgOnly: two states that differ outside the root seed. -/
theorem witness_dprand_reads :
    sklenAt { idle with sklen := (sklens 64).set 3 0#7, idx := idxs 9, mem := [(0x4FF, 1#8)] } 7 =
      sklenAt { idle with sklen := sklens 64 } 7 ∧
    ({ idle with sklen := (sklens 64).set 3 0#7, idx := idxs 9, mem := [(0x4FF, 1#8)] }).arg = idle.arg ∧
    ∀ j, j < 64 → byteAt { idle with sklen := (sklens 64).set 3 0#7, idx := idxs 9, mem := [(0x4FF, 1#8)] } (skBase 7 + j) =
      byteAt { idle with sklen := sklens 64 } (skBase 7 + j) := by decide

/-- GenentResult: before the first attempt, before the third, and after it. -/
theorem witness_genent :
    ((issued 0x540#32 idle).busy = true ∧ (issued 0x540#32 idle).staged = none ∧
      (issued 0x540#32 idle).inflight = some 0x540#32 ∧ decode 0x540#32 = .ok (.genent 5) ∧
      (issued 0x540#32 idle).rngPending = false ∧ (issued 0x540#32 idle).attempts ≠ 3) ∧
    ({ issued 0x540#32 idle with attempts := 2 }).attempts ≠ 3 ∧ (∀ b, RngAnswer.short 31 ≠ .ok b) ∧
    (({ issued 0x540#32 idle with attempts := 3 }).attempts = 3 ∧
      ({ issued 0x540#32 idle with attempts := 3 }).rngPending = false) := by
  refine ⟨by decide, by decide, (by intro b h; cases h), by decide⟩

/-- GENENT dst 5 in flight, its first request outstanding or not, with events to come. -/
def requesting (pending : Bool) (env : List Event) : State :=
  { issued 0x540#32 idle with attempts := 1, rngPending := pending, env := env }

/-- GenentResult: the engine's turn, an answer and no event while a request is outstanding; an answer with none
outstanding, and a late one. -/
theorem witness_genent_events :
    ((requesting true [.engine]).rngPending = true ∧ (requesting true [.engine]).env = .engine :: []) ∧
    (requesting true [.rng .timeout]).env = .rng .timeout :: [] ∧ (requesting true []).env = [] ∧
    ((requesting false [.rng .timeout]).rngPending = false ∧
      (requesting false [.rng .timeout]).env = .rng .timeout :: []) ∧
    (requesting false [.rngStale .timeout]).env = .rngStale .timeout :: [] :=
  ⟨⟨rfl, rfl⟩, rfl, rfl, ⟨rfl, rfl⟩, rfl⟩

/-! ### Witnesses over a whole word list -/

/-- A memory listed by an injective address function is read by the function's value. -/
theorem lookup_map {g : Nat → Nat} (hg : ∀ i j, g i = g j → i = j) (v : Nat → Byte) (l : List Nat) {i : Nat}
    (hi : i ∈ l) : Memory.lookup (l.map fun j => (g j, v j)) (g i) = some (v i) := by
  induction l with
  | nil => cases hi
  | cons j rest ih =>
    rw [List.map_cons, Memory.lookup]
    by_cases h : j = i
    · subst h; simp
    · rw [if_neg fun e => h (hg _ _ e)]
      exact ih (by simpa [Ne.symm h] using hi)

/-- The cells of a list of 2048 words of two bytes, word j being j in big-endian order, behind some cells of MN. -/
def numbered (mn : Memory) : State :=
  { idle with
    wlCount := 2048#12, mnCount := 24#5, sklen := sklens 32
    mem := mn ++ (List.range 6144).map fun i =>
      (0x10000 + 32 * (i / 3) + i % 3,
        if i % 3 = 0 then 2#8 else if i % 3 = 1 then BitVec.ofNat 8 (i / 3 / 256) else BitVec.ofNat 8 (i / 3)) }

theorem lookup_append_right {m n : Memory} {a : Nat} (h : ∀ c ∈ m, c.1 ≠ a) : Memory.lookup (m ++ n) a = n.lookup a := by
  induction m with
  | nil => rfl
  | cons c rest ih =>
    obtain ⟨b, v⟩ := c
    have hb : b ≠ a := h (b, v) (by simp)
    rw [List.cons_append, Memory.lookup, if_neg hb, ih fun d hd => h d (by simp [hd])]

theorem lookup_append_left {m n : Memory} {a : Nat} {v : Byte} (h : Memory.lookup m a = some v) :
    Memory.lookup (m ++ n) a = some v := by
  induction m with
  | nil => cases h
  | cons c rest ih =>
    obtain ⟨b, w⟩ := c
    rw [List.cons_append]
    rw [Memory.lookup] at h ⊢
    split at h
    · rename_i hb; rw [if_pos hb]; exact h
    · rename_i hb; rw [if_neg hb]; exact ih h

theorem byteAt_of_lookup {s : State} {a : Nat} {v : Byte} (h : Memory.lookup s.mem a = some v) : byteAt s a = v := by
  simp [byteAt, Memory.load, h]

/-- The cells of MN lie below the LUT. -/
def Below (mn : Memory) : Prop := ∀ c ∈ mn, c.1 < 0x10000

theorem numbered_byte {mn : Memory} (hm : Below mn) {i : Nat} (hi : i < 6144) :
    byteAt (numbered mn) (0x10000 + 32 * (i / 3) + i % 3) =
      if i % 3 = 0 then 2#8 else if i % 3 = 1 then BitVec.ofNat 8 (i / 3 / 256) else BitVec.ofNat 8 (i / 3) := by
  apply byteAt_of_lookup
  show Memory.lookup (mn ++ _) _ = _
  rw [lookup_append_right fun c hc => by have := hm c hc; omega]
  exact lookup_map (g := fun i => 0x10000 + 32 * (i / 3) + i % 3) (by intro i j h; omega) _ _
    (List.mem_range.2 hi)

/-- Word j of the list. -/
theorem numbered_word {mn : Memory} (hm : Below mn) {j : Nat} (hj : j < 2048) :
    lutWord (numbered mn) j = [BitVec.ofNat 8 (j / 256), BitVec.ofNat 8 j] := by
  have h0 := numbered_byte hm (i := 3 * j) (by omega)
  have h1 := numbered_byte hm (i := 3 * j + 1) (by omega)
  have h2 := numbered_byte hm (i := 3 * j + 2) (by omega)
  simp only [show 3 * j / 3 = j by omega, show 3 * j % 3 = 0 by omega, show (3 * j + 1) / 3 = j by omega,
    show (3 * j + 1) % 3 = 1 by omega, show (3 * j + 2) / 3 = j by omega, show (3 * j + 2) % 3 = 2 by omega] at h0 h1 h2
  rw [lutWord, wordAt, lutBase, show byteAt (numbered mn) (0x10000 + 32 * j) = 2#8 from h0]
  simp only [readBytes]
  show [byteAt _ (0x10000 + 32 * j + 1 + 0), byteAt _ (0x10000 + 32 * j + 1 + 1)] = _
  rw [show 0x10000 + 32 * j + 1 + 0 = 0x10000 + 32 * j + 1 by omega,
    show 0x10000 + 32 * j + 1 + 1 = 0x10000 + 32 * j + 2 by omega, h1, h2]
  simp

theorem numbered_injective {mn : Memory} (hm : Below mn) {i j : Nat} (hi : i < 2048) (hj : j < 2048)
    (h : lutWord (numbered mn) i = lutWord (numbered mn) j) : i = j := by
  rw [numbered_word hm hi, numbered_word hm hj] at h
  simp only [List.cons.injEq, and_true] at h
  have h1 := congrArg BitVec.toNat h.1
  have h2 := congrArg BitVec.toNat h.2
  simp only [BitVec.toNat_ofNat] at h1 h2
  omega

/-- DecodeInvertsEncode: 2048 pairwise distinct words. -/
theorem witness_distinct_words :
    (numbered []).wlCount.toNat = 2048 ∧ (sklenAt (numbered []) 0).toNat = 32 ∧
    ∀ i j, i < 2048 → j < 2048 → lutWord (numbered []) i = lutWord (numbered []) j → i = j :=
  ⟨by decide, by decide, fun _ _ hi hj h => numbered_injective (by simp [Below]) hi hj h⟩

/-- MN holding words p k of the numbered list. -/
def phrase (p : Nat → Nat) : Memory :=
  (List.range 72).map fun i =>
    (0x800 + 32 * (i / 3) + i % 3,
      if i % 3 = 0 then 2#8 else if i % 3 = 1 then BitVec.ofNat 8 (p (i / 3) / 256) else BitVec.ofNat 8 (p (i / 3)))

theorem phrase_below (p : Nat → Nat) : Below (phrase p) := by
  intro c hc
  obtain ⟨i, hi, rfl⟩ := List.mem_map.1 hc
  have := List.mem_range.1 hi
  show 0x800 + 32 * (i / 3) + i % 3 < 0x10000
  omega

theorem phrase_byte (p : Nat → Nat) {i : Nat} (hi : i < 72) :
    byteAt (numbered (phrase p)) (0x800 + 32 * (i / 3) + i % 3) =
      if i % 3 = 0 then 2#8 else if i % 3 = 1 then BitVec.ofNat 8 (p (i / 3) / 256) else BitVec.ofNat 8 (p (i / 3)) := by
  apply byteAt_of_lookup
  exact lookup_append_left (lookup_map (g := fun i => 0x800 + 32 * (i / 3) + i % 3)
    (by intro i j h; omega) _ _ (List.mem_range.2 hi))

theorem phrase_word (p : Nat → Nat) {k : Nat} (hk : k < 24) :
    mnWord (numbered (phrase p)) k = [BitVec.ofNat 8 (p k / 256), BitVec.ofNat 8 (p k)] := by
  have h0 := phrase_byte p (i := 3 * k) (by omega)
  have h1 := phrase_byte p (i := 3 * k + 1) (by omega)
  have h2 := phrase_byte p (i := 3 * k + 2) (by omega)
  simp only [show 3 * k / 3 = k by omega, show 3 * k % 3 = 0 by omega, show (3 * k + 1) / 3 = k by omega,
    show (3 * k + 1) % 3 = 1 by omega, show (3 * k + 2) / 3 = k by omega, show (3 * k + 2) % 3 = 2 by omega] at h0 h1 h2
  rw [mnWord, wordAt, mnBase, show byteAt (numbered (phrase p)) (0x800 + 32 * k) = 2#8 from h0]
  simp only [readBytes]
  show [byteAt _ (0x800 + 32 * k + 1 + 0), byteAt _ (0x800 + 32 * k + 1 + 1)] = _
  rw [show 0x800 + 32 * k + 1 + 0 = 0x800 + 32 * k + 1 by omega,
    show 0x800 + 32 * k + 1 + 1 = 0x800 + 32 * k + 2 by omega, h1, h2]
  simp

/-- The phrase of in-range words has the positions it was made from. -/
theorem phrase_positions (p : Nat → Nat) (hp : ∀ k, k < 24 → p k < 2048) :
    Positions (numbered (phrase p)) fun k => p k.val := by
  intro k
  have e : lutWord (numbered (phrase p)) (p k.val) = mnWord (numbered (phrase p)) k.val := by
    rw [numbered_word (phrase_below p) (hp _ k.isLt), phrase_word p k.isLt]
  exact ⟨hp _ k.isLt, e, fun j hj h => by
    have hj : j < p k.val := hj
    have := numbered_injective (phrase_below p) (by have := hp _ k.isLt; omega) (hp _ k.isLt) (h.trans e.symm)
    omega⟩

/-- The first word of the phrase that is out of range is absent, the words before it are not. -/
theorem phrase_absent (p : Nat → Nat) (k : Fin 24) (hk : 2048 ≤ p k.val) (hu : p k.val < 65536)
    (hp : ∀ k' : Fin 24, k' < k → p k'.val < 2048) : FirstAbsent (numbered (phrase p)) k := by
  refine ⟨fun j hj h => ?_, fun k' hk' => ⟨p k'.val, hp k' hk', ?_⟩⟩
  · rw [numbered_word (phrase_below p) hj, phrase_word p k.isLt] at h
    simp only [List.cons.injEq, and_true] at h
    have h1 := congrArg BitVec.toNat h.1
    have h2 := congrArg BitVec.toNat h.2
    simp only [BitVec.toNat_ofNat] at h1 h2
    omega
  · rw [numbered_word (phrase_below p) (hp k' hk'), phrase_word p k'.isLt]

/-- Words2idxResult, DecodeResult: a phrase whose first absent word is the first, and one where it is the last. -/
theorem witness_absent :
    FirstAbsent (numbered (phrase fun _ => 2048)) 0 ∧
    FirstAbsent (numbered (phrase fun k => if k = 23 then 4000 else 2047)) 23 ∧
    (numbered (phrase fun _ => 2048)).wlCount.toNat = 2048 ∧ (numbered (phrase fun _ => 2048)).mnCount.toNat = 24 := by
  refine ⟨phrase_absent _ 0 (by decide) (by decide) (by decide), phrase_absent _ 23 (by decide) (by decide) (by decide),
    rfl, rfl⟩

/-- Words2idxResult, DecodeResult, DecodeIsItsStepCommands: the phrase of 32 zero bytes (spec/95 L2.3), whose checksum
holds, and the phrase of twenty-four words 0, whose checksum fails. -/
theorem witness_positions :
    (Positions (numbered (phrase fun k => if k = 23 then 102 else 0)) fun k => if k.val = 23 then 102 else 0) ∧
    checksum (bitsToBytes ((join ((List.finRange 24).map fun k => if k.val = 23 then 102 else 0)).take 256)) 8 =
      (join ((List.finRange 24).map fun k => if k.val = 23 then 102 else 0)).drop 256 ∧
    (Positions (numbered (phrase fun _ => 0)) fun _ => 0) ∧
    checksum (bitsToBytes ((join ((List.finRange 24).map fun _ => 0)).take 256)) 8 ≠
      (join ((List.finRange 24).map fun _ => 0)).drop 256 := by
  refine ⟨phrase_positions (fun k => if k = 23 then 102 else 0) ?_, by decide +kernel, phrase_positions (fun _ => 0) ?_,
    by decide +kernel⟩
  · intro k _; split <;> omega
  · intro k _; omega

/-- SubstitutedWordsDecodeDifferently: the phrases of 32 zero bytes and of 32 bytes FF (spec/95 L2.3). -/
theorem witness_substitution :
    (Positions (numbered (phrase fun k => if k = 23 then 102 else 0)) fun k => if k.val = 23 then 102 else 0) ∧
    (Positions (numbered (phrase fun k => if k = 23 then 1967 else 2047)) fun k => if k.val = 23 then 1967 else 2047) ∧
    (numbered (phrase fun k => if k = 23 then 1967 else 2047)).wlCount.toNat = 2048 ∧
    (numbered (phrase fun k => if k = 23 then 1967 else 2047)).mnCount.toNat = 24 ∧
    (∃ k : Fin 24, (if k.val = 23 then 102 else 0) ≠ (if k.val = 23 then 1967 else 2047)) ∧
    checksum (bitsToBytes ((join ((List.finRange 24).map fun k => if k.val = 23 then 1967 else 2047)).take 256)) 8 =
      (join ((List.finRange 24).map fun k => if k.val = 23 then 1967 else 2047)).drop 256 := by
  refine ⟨witness_positions.1, phrase_positions (fun k => if k = 23 then 1967 else 2047) ?_, rfl, rfl, ⟨0, by decide⟩,
    by decide +kernel⟩
  intro k _; split <;> omega

end Sys2Proof.Tests
end

namespace Sys2Proof.Machine
open Sys2Proof

/-! SUPPORT and PROOFS. The state: what a step can leave, said once as an inductive relation, and from it the invariant
(spec/10_state.md, R120 to R125, R136), the interrupt level (R128) and the LUT (R41); the registers as the port shows
them (R22 to R35, R45); EQ (R24). -/

/-! ### Everything a step can do -/

/-- The state with the model's own schedule changed: the events to come, the turn mark and the count of free answers,
none of which is part of the block (assumptions 1 to 3). -/
@[simps] def State.withSchedule (s : State) (env : List Event) (turn : Bool) (draws : Nat) : State :=
  { s with env := env, turnTaken := turn, draws := draws }

theorem byteAt_withSchedule (s : State) (env : List Event) (turn : Bool) (draws a : Nat) :
    byteAt (s.withSchedule env turn draws) a = byteAt s a := byteAt_congr rfl rfl a

/-- What an execute step of a state can leave (R123): nothing new, staged writes, a staged error, or a request to the
CSPRNG for GENENT (R113). -/
inductive Executes (s : State) : State → Prop
  | waits : Executes s s
  | stages (ws : List Write) : Executes s (stage ws s)
  | raises (e : ErrorName) (info : Word) : Executes s (raise e info s)
  | requests (dst : Slot) (w : Word) (hflight : s.inflight = some w) (hdecode : decode w = .ok (.genent dst))
      (hlast : s.attempts ≠ 3) : Executes s { s with attempts := s.attempts + 1, rngPending := true }

/-- What the end of an outstanding CSPRNG attempt can leave (R113): nothing but the withdrawn request, or with it staged
writes or a staged error. -/
inductive Answers (s : State) : State → Prop
  | retries : Answers s { s with rngPending := false }
  | stages (ws : List Write) : Answers s (stage ws { s with rngPending := false })
  | raises (e : ErrorName) (info : Word) : Answers s (raise e info { s with rngPending := false })

/-- What a step can leave, one constructor per kind of step (R16, R57): nothing new in the block, a host access, an event
of the reset input or a power-up (R136), the end of a CSPRNG attempt (R113), the complete step (R124, R125), or an
execute step (R123). It says what becomes of the block, and of the schedule only whose event was taken. -/
inductive Steps (s : State) : State → Prop
  | rests (env : List Event) (turn : Bool) (draws : Nat) : Steps s (s.withSchedule env turn draws)
  | access (a : Access) (rest : List Event) (henv : s.env = .host a :: rest) :
      Steps s (hostAccess a (s.withSchedule rest false s.draws))
  | asserts (rest : List Event) (henv : s.env = .rst true :: rest) :
      Steps s (resetBlock { s.withSchedule rest s.turnTaken s.draws with rst := true })
  | releases (rest : List Event) (henv : s.env = .rst false :: rest) :
      Steps s { s.withSchedule rest s.turnTaken s.draws with rst := false }
  | powers (rest : List Event) (henv : s.env = .powerUp :: rest) :
      Steps s (powerUp (s.withSchedule rest s.turnTaken s.draws))
  | answers (env : List Event) (turn : Bool) (draws : Nat) (t : State) (hpending : s.rngPending = true)
      (h : Answers (s.withSchedule env turn draws) t) : Steps s t
  | completes (env : List Event) (turn : Bool) (st : Staged) (hbusy : s.busy = true) (hpending : s.rngPending = false)
      (hstaged : s.staged = some st) : Steps s (complete (s.withSchedule env turn s.draws))
  | executes (env : List Event) (turn : Bool) (t : State) (hbusy : s.busy = true) (hpending : s.rngPending = false)
      (hstaged : s.staged = none) (h : Executes (s.withSchedule env turn s.draws) t) : Steps s t

theorem exec_executes {i : Instr} {s t : State} {w : Word} (hflight : s.inflight = some w) (hdecode : decode w = .ok i)
    (h : exec i s = .next t) : Executes s t := by
  rcases exec_cases i s with (⟨ws, he⟩ | ⟨e, info, he⟩) | ⟨dst, rfl, ⟨-, he⟩ | ⟨-, hlast, he⟩⟩ <;>
    rw [he] at h <;> cases h
  · exact .stages ws
  · exact .raises e info
  · exact .waits
  · exact .requests dst w hflight hdecode hlast

theorem executeStep_executes {s t : State} (h : executeStep s = .next t) : Executes s t := by
  rcases executeStep_cases s with ⟨-, he⟩ | ⟨w, e, -, -, he⟩ | ⟨w, i, hw, hd, he⟩ <;> rw [he] at h
  · cases h; exact .waits
  · cases h; exact .raises ..
  · exact exec_executes hw hd h

theorem rngAnswered_answers (a : RngAnswer) {s : State} (hp : s.rngPending = true) : Answers s (rngAnswered a s) := by
  rcases rngAnswered_cases a s with ⟨hn, -⟩ | ⟨-, he | ⟨ws, he⟩ | ⟨e, info, he⟩⟩
  · simp [hp] at hn
  · exact he ▸ .retries
  · exact he ▸ .stages ws
  · exact he ▸ .raises e info

/-- An answer to no request leaves the block as it is, any other ends an attempt (R112, R136). -/
theorem rngAnswered_steps (a : RngAnswer) (s : State) (env : List Event) (turn : Bool) (draws : Nat) :
    Steps s (rngAnswered a (s.withSchedule env turn draws)) := by
  by_cases hp : s.rngPending = true
  · exact .answers env turn draws _ hp (rngAnswered_answers a hp)
  · rcases rngAnswered_cases a (s.withSchedule env turn draws) with ⟨-, he⟩ | ⟨hy, -⟩
    · rw [he]; exact .rests env turn draws
    · exact absurd hy hp

theorem engineStep_steps {s t : State} (env : List Event) (turn : Bool) (hp : s.rngPending = false)
    (h : engineStep (s.withSchedule env turn s.draws) = .next t) : Steps s t := by
  rcases engineStep_cases (s.withSchedule env turn s.draws) with ⟨-, he⟩ | ⟨hb, ⟨st, hs⟩, he⟩ | ⟨hb, hs, he⟩ <;>
    rw [he] at h
  · cases h; exact .rests env turn s.draws
  · cases h; exact .completes env turn st hb hp hs
  · exact .executes env turn t hb hp hs (executeStep_executes h)

theorem engineTurn_steps {s t : State} (rest : List Event)
    (h : engineTurn (s.withSchedule rest s.turnTaken s.draws) = .next t) : Steps s t := by
  rcases engineTurn_cases (s.withSchedule rest s.turnTaken s.draws) with ⟨-, he⟩ | ⟨-, -, -, he⟩ | ⟨-, hp, -, he⟩ <;>
    rw [he] at h
  · cases h; exact .rests ..
  · cases h; exact .rests ..
  · exact engineStep_steps rest true hp h

/-- Every step is of one of the kinds of `Steps`. -/
theorem step_steps {s t : State} (h : step s = .next t) : Steps s t := by
  cases henv : s.env with
  | nil =>
    rw [step_nil henv, quietStep] at h
    split at h
    · cases h; exact rngAnswered_steps _ s s.env s.turnTaken (s.draws + 1)
    · exact engineStep_steps s.env s.turnTaken (by simpa using ‹¬s.rngPending = true›) h
  | cons e rest =>
    rw [step_cons henv] at h
    cases e with
    | host a => cases h; exact .access a rest henv
    | engine => exact engineTurn_steps rest h
    | rng a => cases h; exact rngAnswered_steps a s rest (s.turnTaken || s.rngPending) s.draws
    | rngStale a => cases h; exact .rests rest s.turnTaken s.draws
    | rst level =>
      cases level <;> cases h
      · exact .releases rest henv
      · exact .asserts rest henv
    | powerUp => cases h; exact .powers rest henv

/-! ### The invariant -/

theorem blockInvariant_reset : BlockInvariant State.reset where
  memory := Memory.wf_nil
  busy_inflight := rfl
  inflight_cmd := nofun
  busy_flags := nofun
  no_error _ := ⟨rfl, rfl⟩
  error_code := nofun
  staged_busy := nofun
  pending := nofun
  reset_idle := nofun

section Keeps

variable {s t : State}

theorem blockInvariant_resetBlock (h : s.mem.wf = true) : BlockInvariant (resetBlock s) :=
  { blockInvariant_reset with memory := Memory.wf_lutOnly s.mem h, reset_idle := fun _ => rfl }

theorem blockInvariant_powerUp : BlockInvariant (powerUp s) :=
  { blockInvariant_reset with reset_idle := fun _ => rfl }

theorem blockInvariant_withSchedule (h : BlockInvariant s) (env : List Event) (turn : Bool) (draws : Nat) :
    BlockInvariant (s.withSchedule env turn draws) := { h with }

/-- Staging, as every execute step and CSPRNG answer does it: in flight and with no request outstanding. -/
theorem blockInvariant_staged (h : BlockInvariant s) (hb : s.busy = true) (hp : s.rngPending = false)
    (st : Option Staged) : BlockInvariant { s with staged := st } :=
  { h with staged_busy := fun _ => hb, pending := fun hy => by simp [hp] at hy }

/-- An outstanding request is one of a busy engine with nothing staged, so withdrawing it leaves nothing to show. -/
theorem blockInvariant_withdrawn (h : BlockInvariant s) : BlockInvariant { s with rngPending := false } :=
  { h with pending := nofun }

theorem BlockInvariant.busy_of_pending (h : BlockInvariant s) (hp : s.rngPending = true) : s.busy = true := by
  obtain ⟨-, -, dst, w, hw, -⟩ := h.pending hp
  rw [h.busy_inflight, hw, Option.isSome_some]

/-- A new attempt's request (R113): the count of attempts, below 3 before, is not 0 after. -/
theorem blockInvariant_request (h : BlockInvariant s) (hstaged : s.staged = none) {dst : Slot} {w : Word}
    (hflight : s.inflight = some w) (hdecode : decode w = .ok (.genent dst)) (hlast : s.attempts ≠ 3) :
    BlockInvariant { s with attempts := s.attempts + 1, rngPending := true } :=
  have succ_ne_zero : ∀ n : Fin 4, n ≠ 3 → n + 1 ≠ 0 := by decide
  { h with pending := fun _ => ⟨hstaged, succ_ne_zero _ hlast, dst, w, hflight, hdecode⟩ }

theorem blockInvariant_executes (h : BlockInvariant s) (hb : s.busy = true) (hp : s.rngPending = false)
    (hs : s.staged = none) (he : Executes s t) : BlockInvariant t := by
  cases he with
  | waits => exact h
  | stages ws => exact blockInvariant_staged h hb hp _
  | raises e info => exact blockInvariant_staged h hb hp _
  | requests dst w hflight hdecode hlast => exact blockInvariant_request h hs hflight hdecode hlast

theorem blockInvariant_answers (h : BlockInvariant s) (hp : s.rngPending = true) (ha : Answers s t) :
    BlockInvariant t := by
  have hw := blockInvariant_withdrawn h
  have hb := h.busy_of_pending hp
  cases ha with
  | retries => exact hw
  | stages ws => exact blockInvariant_staged hw hb rfl _
  | raises e info => exact blockInvariant_staged hw hb rfl _

/-- Staged writes touch the buffers and data registers alone, none of which the invariant but for the memory's form
speaks of. -/
theorem blockInvariant_applyWrites (h : BlockInvariant s) (ws : List Write) : BlockInvariant (applyWrites s ws) where
  memory := wf_applyWrites s ws h.memory
  busy_inflight := by simpa using h.busy_inflight
  inflight_cmd := by simpa using h.inflight_cmd
  busy_flags := by simpa using h.busy_flags
  no_error := by simpa using h.no_error
  error_code := by simpa using h.error_code
  staged_busy := by simpa using h.staged_busy
  pending := by simpa using h.pending
  reset_idle := by simpa using h.reset_idle

/-- Back to idle: nothing is in flight any more, so nothing may be staged or outstanding. -/
theorem blockInvariant_finish (h : BlockInvariant s) (hp : s.rngPending = false) : BlockInvariant (finish s) :=
  { h with
    busy_inflight := rfl, inflight_cmd := nofun, busy_flags := nofun, staged_busy := nofun, reset_idle := fun _ => rfl
    pending := fun hy => by simp [hp] at hy }

theorem blockInvariant_reported (h : BlockInvariant s) (hb : s.busy = false) (e : ErrorName) (info : Word) :
    BlockInvariant { s with err := true, errcode := e.code, errinfo := info } :=
  { h with
    busy_flags := fun hy => by simp [hb] at hy
    no_error := nofun
    error_code := fun _ => ⟨e, rfl⟩ }

theorem blockInvariant_complete (h : BlockInvariant s) (hp : s.rngPending = false) : BlockInvariant (complete s) := by
  rcases complete_cases s with ⟨-, hc⟩ | ⟨ws, -, hc⟩ | ⟨e, info, -, hc⟩ <;> rw [hc]
  · exact h
  · exact blockInvariant_finish (blockInvariant_applyWrites h ws) (by simpa using hp)
  · exact blockInvariant_reported (blockInvariant_finish h hp) rfl e info

/-- An accepted write of CMD (R122): out of reset and idle, so with no request outstanding. -/
theorem blockInvariant_issue (h : BlockInvariant s) (hr : s.rst = false) (hb : s.busy = false) (v : Word) :
    BlockInvariant (issue v s) where
  memory := h.memory
  busy_inflight := rfl
  inflight_cmd _ hw := Option.some.inj hw
  busy_flags _ := ⟨rfl, rfl⟩
  no_error _ := ⟨rfl, rfl⟩
  error_code := nofun
  staged_busy _ := rfl
  pending hp := by simp [h.busy_of_pending hp] at hb
  reset_idle hy := by simp [hr] at hy

theorem blockInvariant_writeTarget (h : BlockInvariant s) (hr : s.rst = false) (v : Word) (tg : Target)
    (hwf : (writeTarget v s tg).mem.wf = true) : BlockInvariant (writeTarget v s tg) := by
  rcases writeTarget_cases v s tg with he | ⟨-, he⟩ | ⟨-, he⟩ | ⟨-, he⟩ | ⟨-, he⟩ | ⟨-, he⟩
  · rwa [he]
  · rw [he]; exact { h with }
  · rw [he]
    exact { h with busy_flags := fun hy => by simp [h.busy_flags hy, writeAck] }
  · rw [he, writeCmd]
    split
    · exact { h with }
    · exact blockInvariant_issue h hr (by simpa using ‹¬s.busy = true›) v
  · rw [he]; exact { h with }
  · rw [he]; exact { h with memory := hwf }

theorem blockInvariant_hostAccess (h : BlockInvariant s) (a : Access) : BlockInvariant (hostAccess a s) := by
  have hwf := wf_hostAccess a s h.memory
  cases a with
  | read off size => simp only [hostAccess]; split <;> exact { h with }
  | write off size v =>
    simp only [hostAccess] at hwf ⊢
    split at hwf
    · exact { h with }
    · rename_i tg htg
      exact { blockInvariant_writeTarget h ((accessTarget_eq_some ..).1 htg).1 v tg hwf with }

theorem blockInvariant_steps (h : BlockInvariant s) (hst : Steps s t) : BlockInvariant t := by
  cases hst with
  | rests env turn draws => exact blockInvariant_withSchedule h ..
  | access a rest henv => exact blockInvariant_hostAccess (blockInvariant_withSchedule h ..) a
  | asserts rest henv => exact blockInvariant_resetBlock h.memory
  | releases rest henv => exact { h with reset_idle := nofun }
  | powers rest henv => exact blockInvariant_powerUp
  | answers env turn draws t hp ha => exact blockInvariant_answers (blockInvariant_withSchedule h env turn draws) hp ha
  | completes env turn st hb hp hs => exact blockInvariant_complete (blockInvariant_withSchedule h ..) hp
  | executes env turn t hb hp hs he =>
    exact blockInvariant_executes (blockInvariant_withSchedule h env turn s.draws) hb hp hs he

end Keeps

/-- Settles O9: reset shows no flag and has nothing in flight. -/
theorem resetMeetsInvariant : Obligations.ResetMeetsInvariant := blockInvariant_reset

/-- Settles O10, by the kinds of step that `Steps` lists. -/
theorem stepKeepsInvariant : Obligations.StepKeepsInvariant := fun _ _ h hst => blockInvariant_steps h (step_steps hst)


/-! ### What an accepted access reads and writes -/

/-- The offset of R47's map at which a target stands. -/
def Target.offset : Target → Nat
  | .id => 0x000
  | .ctrl => 0x004
  | .status => 0x008
  | .ack => 0x00C
  | .cmd => 0x010
  | .errinfo => 0x014
  | .arg => 0x018
  | .wlCount => 0x01C
  | .msglen => 0x020
  | .bitalen => 0x024
  | .bitblen => 0x028
  | .mnCount => 0x02C
  | .sklen i => 0x040 + 4 * i.val
  | .idx k => 0x080 + 4 * k.val
  | .buffer base => base

/-- The map selects each target from its own offset alone. -/
theorem offset_of_target {off : Nat} {tg : Target} (h4 : off % 4 = 0) (h : target off = some tg) : off = tg.offset := by
  have offset_low : ∀ j : Fin 12, (lowTargets[j.val]'(by simp [lowTargets])).offset = 4 * j.val := by decide
  rcases target_cases h4 ((target_isSome h4).1 (by simp [h])) with ⟨j, ho, ht⟩ | ⟨i, ho, ht⟩ | ⟨k, ho, ht⟩ | ⟨-, ht⟩ <;>
    cases h.symm.trans ht
  · rw [ho, offset_low]
  · exact ho
  · exact ho
  · rfl

/-- The aligned offset selects the target (R47, R49). -/
def Selects (off : BitVec 17) (tg : Target) : Prop := off.toNat % 4 = 0 ∧ target off.toNat = some tg

theorem selects_id : Selects 0x000#17 .id := ⟨rfl, rfl⟩
theorem selects_ctrl : Selects 0x004#17 .ctrl := ⟨rfl, rfl⟩
theorem selects_status : Selects 0x008#17 .status := ⟨rfl, rfl⟩
theorem selects_ack : Selects 0x00C#17 .ack := ⟨rfl, rfl⟩
theorem selects_errinfo : Selects 0x014#17 .errinfo := ⟨rfl, rfl⟩
theorem selects_arg : Selects 0x018#17 .arg := ⟨rfl, rfl⟩
theorem selects_wlCount : Selects 0x01C#17 .wlCount := ⟨rfl, rfl⟩
theorem selects_msglen : Selects 0x020#17 .msglen := ⟨rfl, rfl⟩
theorem selects_bitalen : Selects 0x024#17 .bitalen := ⟨rfl, rfl⟩
theorem selects_bitblen : Selects 0x028#17 .bitblen := ⟨rfl, rfl⟩
theorem selects_mnCount : Selects 0x02C#17 .mnCount := ⟨rfl, rfl⟩

theorem selects_ofNat {n : Nat} {tg : Target} (hn : n < 2 ^ 17) (h4 : n % 4 = 0) (h : target n = some tg) :
    Selects (BitVec.ofNat 17 n) tg := by
  have ht : (BitVec.ofNat 17 n).toNat = n := by rw [BitVec.toNat_ofNat, Nat.mod_eq_of_lt hn]
  exact ⟨by rw [ht, h4], by rw [ht, h]⟩

theorem selects_sklen (i : Slot) : Selects (BitVec.ofNat 17 (0x040 + 4 * i.val)) (.sklen i) :=
  selects_ofNat (by omega) (by omega) (target_sklen i)

theorem selects_idx (k : Fin 24) : Selects (BitVec.ofNat 17 (0x080 + 4 * k.val)) (.idx k) :=
  selects_ofNat (by omega) (by omega) (target_idx k)

section Accesses

variable {s : State} {off : BitVec 17} {tg : Target}

theorem Selects.accessTarget (h : Selects off tg) (hr : s.rst = false) : accessTarget s off 4 = some tg :=
  (accessTarget_eq_some ..).2 ⟨hr, rfl, h⟩

theorem Selects.memRead (h : Selects off tg) (hr : s.rst = false) :
    memRead s off = some (.readOkay (readTarget s tg)) := by
  simp only [Machine.memRead, hostAccess, h.accessTarget hr]

theorem Selects.memWrite (h : Selects off tg) (hr : s.rst = false) (v : Word) :
    memWrite s off v = { writeTarget v s tg with resp := some .writeOkay } := by
  simp only [Machine.memWrite, hostAccess, h.accessTarget hr]

theorem writeTarget_rst (v : Word) (s : State) (tg : Target) : (writeTarget v s tg).rst = s.rst := by
  rcases writeTarget_cases v s tg with he | ⟨-, he⟩ | ⟨-, he⟩ | ⟨-, he⟩ | ⟨-, he⟩ | ⟨-, he⟩ <;> rw [he]
  · rfl
  · rfl
  · rw [writeCmd]; split <;> rfl

/-- A write and a read of the same offset, one after the other: the answer to the write is no part of what is read. -/
theorem Selects.memRead_memWrite (h : Selects off tg) (hr : s.rst = false) (v : Word) :
    Machine.memRead (Machine.memWrite s off v) off = some (.readOkay (readTarget (writeTarget v s tg) tg)) := by
  have hwr : ({ writeTarget v s tg with resp := some .writeOkay } : State).rst = false :=
    (writeTarget_rst v s tg).trans hr
  rw [h.memWrite hr, h.memRead hwr]
  cases tg <;> rfl

end Accesses

/-! ### STATUS, ACK and the read-only registers -/

/-- Settles O16: R24's table, bit by bit. -/
theorem statusReadsItsFlags : Obligations.StatusReadsItsFlags := by
  intro s hr
  refine ⟨statusWord s, selects_status.memRead hr, ?_⟩
  simp only [statusWord, BitVec.getLsbD_or, getLsbD_flagBit, BitVec.getLsbD_shiftLeft, BitVec.getLsbD_setWidth]
  refine ⟨by simp, by simp, by simp, by simp, by simp, by simp, by simp, by simp, fun j hj => ?_, fun j hj => ?_⟩
  · have hpos : ∀ k, k < 6 → 8 + j ≠ k := by omega
    simp [hpos, show 8 + j < 32 by omega]; omega
  · have hpos : ∀ k, k < 6 → j ≠ k := by omega
    simp [hpos, BitVec.getLsbD_of_ge s.errcode (j - 8) (by omega)]

/-- Settles O17: R22, R27 and R51, by the target each offset selects. -/
theorem readOnlyRegistersIgnoreWrites : Obligations.ReadOnlyRegistersIgnoreWrites := by
  intro s v hr
  refine ⟨selects_id.memRead hr, selects_ack.memRead hr, selects_errinfo.memRead hr, fun off ho => ?_⟩
  simp only [List.mem_cons, List.not_mem_nil, or_false] at ho
  rcases ho with rfl | rfl | rfl
  · exact selects_id.memWrite hr v
  · exact selects_status.memWrite hr v
  · exact selects_errinfo.memWrite hr v

/-- Settles O18: `writeAck` clears by conjunction with the negated bit, as R25's choice by the bit does. -/
theorem ackClearsItsFlags : Obligations.AckClearsItsFlags := by
  intro s v hr
  refine ⟨?_, selects_ack.memRead hr⟩
  have clears : ∀ flag bit : Bool, (flag && !bit) = if bit then false else flag := by decide
  simp only [selects_ack.memWrite hr, writeTarget, writeAck, clears]

/-! ### ARG and the narrow registers -/

/-- The low bits of a host word, as a narrow register keeps them and reads them back (R28). -/
theorem ofNat_mod_two_pow (v : Word) (w : Nat) :
    BitVec.ofNat 32 (v.toNat % 2 ^ w) = (v.setWidth w).setWidth 32 := by
  rw [← BitVec.toNat_setWidth, BitVec.ofNat_toNat]

/-- Settles O19: reads (R28), writes while idle with their frame, and the two in turn. -/
theorem narrowRegistersKeepLowBits : Obligations.NarrowRegistersKeepLowBits := by
  unfold Obligations.NarrowRegistersKeepLowBits
  simp only [BitVec.ofNat_toNat, ofNat_mod_two_pow]
  refine ⟨fun s hr => ?reads, fun s v hr hb => ?writes, fun s v hr hb => ?readsBack⟩
  case reads =>
    exact ⟨selects_arg.memRead hr, selects_wlCount.memRead hr, selects_msglen.memRead hr, selects_bitalen.memRead hr,
      selects_bitblen.memRead hr, selects_mnCount.memRead hr, fun i => (selects_sklen i).memRead hr,
      fun k => (selects_idx k).memRead hr⟩
  case writes =>
    simp only [selects_arg.memWrite hr, selects_wlCount.memWrite hr, selects_msglen.memWrite hr,
      selects_bitalen.memWrite hr, selects_bitblen.memWrite hr, selects_mnCount.memWrite hr,
      (selects_sklen _).memWrite hr, (selects_idx _).memWrite hr, writeTarget, whenIdle_idle hb, and_self, implies_true]
  case readsBack =>
    simp only [selects_arg.memRead_memWrite hr, selects_wlCount.memRead_memWrite hr,
      selects_msglen.memRead_memWrite hr, selects_bitalen.memRead_memWrite hr, selects_bitblen.memRead_memWrite hr,
      selects_mnCount.memRead_memWrite hr, (selects_sklen _).memRead_memWrite hr,
      (selects_idx _).memRead_memWrite hr, writeTarget, whenIdle_idle hb, readTarget, sklenAt, idxAt,
      Vector.getElem_set_self, and_self, implies_true]

/-! ### Reset -/

theorem byteAt_reset {a : Nat} (h : isLut a = false) : byteAt State.reset a = 0#8 := by
  simp [byteAt, Memory.load, Memory.lookup, background, h]

theorem readTarget_reset {tg : Target} (hid : tg ≠ .id) (hlut : ∀ a, tg = .buffer a → a + 4 ≤ 0x10000) :
    readTarget State.reset tg = 0#32 := by
  cases tg with
  | id => exact absurd rfl hid
  | sklen i => simp [readTarget, sklenAt]
  | idx k => simp [readTarget, idxAt]
  | buffer a =>
    have below : ∀ j, j < 4 → byteAt State.reset (a + j) = 0#8 := fun j hj =>
      byteAt_reset (by have := hlut a rfl; simp [isLut]; omega)
    have below0 := below 0 (by decide)
    simp only [readTarget, readLanes, below 1 (by decide), below 2 (by decide), below 3 (by decide), Nat.add_zero] at *
    rw [below0]
    rfl
  | _ => rfl

/-- Settles O28: every target below the LUT but ID reads 0 after reset. -/
theorem resetStateAsTabled : Obligations.ResetStateAsTabled := by
  refine ⟨selects_id.memRead rfl, fun off h4 hm hpos hlut => ?_, rfl, rfl, rfl, rfl, rfl, rfl⟩
  obtain ⟨tg, ht⟩ := Option.isSome_iff_exists.1 ((target_isSome h4).2 hm)
  have ho := offset_of_target h4 ht
  rw [Selects.memRead ⟨h4, ht⟩ rfl, readTarget_reset]
  · rintro rfl
    exact absurd ho (by simp [Target.offset]; omega)
  · rintro a rfl
    simp only [Target.offset] at ho
    omega

/-! ### EQ -/

/-- The write is one of EQ. -/
def Write.setsEq : Write → Bool
  | .eqFlag _ => true
  | .sk _ _ | .sklen _ _ | .msg _ | .msglen _ | .bita _ | .bitalen _ | .bitb _ | .bitblen _ | .idx _ _ | .mn _ _
  | .mnCount _ | .arg _ => false

/-- No write of the list is one of EQ. -/
def EqFree (ws : List Write) : Prop := ∀ w ∈ ws, w.setsEq = false

theorem applyWrite_eqFlag (s : State) (w : Write) (h : w.setsEq = false) : (applyWrite s w).eqFlag = s.eqFlag := by
  cases w
  case eqFlag b => cases h
  all_goals simp only [applyWrite, writeBytes_eqFlag]

theorem applyWrites_eqFlag {ws : List Write} (s : State) (h : EqFree ws) : (applyWrites s ws).eqFlag = s.eqFlag := by
  induction ws generalizing s with
  | nil => rfl
  | cons w ws ih =>
    rw [applyWrites_cons, ih _ fun v hv => h v (List.mem_cons_of_mem w hv),
      applyWrite_eqFlag s w (h w List.mem_cons_self)]

theorem EqFree.append {ws vs : List Write} (hw : EqFree ws) (hv : EqFree vs) : EqFree (ws ++ vs) :=
  List.forall_mem_append.2 ⟨hw, hv⟩

theorem eqFree_nil : EqFree [] := nofun

theorem eqFree_pair {w v : Write} (hw : w.setsEq = false) (hv : v.setsEq = false) : EqFree [w, v] := by
  simp [EqFree, hw, hv]

theorem eqFree_packA (b : Bits) : EqFree (packA b) := eqFree_pair rfl rfl
theorem eqFree_packB (b : Bits) : EqFree (packB b) := eqFree_pair rfl rfl
theorem eqFree_seedWrites (dst : Slot) (v : Bytes) : EqFree (seedWrites dst v) := eqFree_pair rfl rfl
theorem eqFree_entropyWrites (dst : Slot) (e : Bytes) : EqFree (entropyWrites dst e) := eqFree_pair rfl rfl

theorem eqFree_idxWrites (f : Fin 24 → Nat) : EqFree (idxWrites f) := List.forall_mem_map.2 fun _ _ => rfl

theorem eqFree_wordWrites (s : State) (f : Fin 24 → Nat) : EqFree (wordWrites s f) :=
  EqFree.append (List.forall_mem_map.2 fun _ _ => rfl) (List.forall_mem_singleton.2 rfl)

/-- The execute step leaves nothing staged that would change EQ of s. -/
def KeepsEq (r : Result) (s : State) : Prop := ∀ t, r = .next t → (complete t).eqFlag = s.eqFlag

theorem keepsEq_stage {ws : List Write} (s : State) (h : EqFree ws) : KeepsEq (.next (stage ws s)) s := by
  rintro _ ⟨⟩
  rw [complete_stage, finish_eqFlag, applyWrites_eqFlag _ h, stage_eqFlag]

theorem keepsEq_raise (e : ErrorName) (info : Word) (s : State) : KeepsEq (.next (raise e info s)) s := by
  rintro _ ⟨⟩
  rw [complete_raise]
  rfl

theorem keepsEq_ite {p : Prop} [Decidable p] {r q : Result} {s : State} (hr : KeepsEq r s) (hq : KeepsEq q s) :
    KeepsEq (if p then r else q) s := by
  split
  · exact hr
  · exact hq

/-- A command that raises one error or stages its writes. -/
theorem keepsEq_unless {p : Prop} [Decidable p] {q : Result} {s : State} {e : ErrorName} {info : Word}
    (hq : KeepsEq q s) : KeepsEq (if p then .next (raise e info s) else q) s := keepsEq_ite (keepsEq_raise e info s) hq

theorem complete_eqFlag_of_none {t : State} (h : t.staged = none) : (complete t).eqFlag = t.eqFlag := by
  rw [complete_none t h]

/-- With nothing staged before, GENENT's execute step stages no write: its answer does (R113). -/
theorem keepsEq_genent (dst : Slot) {s : State} (hs : s.staged = none) : KeepsEq (exec (.genent dst) s) s := by
  simp only [exec, execGenent]
  split
  · rintro _ ⟨⟩
    exact complete_eqFlag_of_none hs
  · refine keepsEq_unless ?_
    rintro _ ⟨⟩
    exact complete_eqFlag_of_none hs

theorem exec_keepsEq (i : Instr) {s : State} (hs : s.staged = none) (heq : i ≠ .eqbits) (hz : i ≠ .zeroize) :
    KeepsEq (exec i s) s := by
  cases i with
  | eqbits => exact absurd rfl heq
  | zeroize => exact absurd rfl hz
  | genent dst => exact keepsEq_genent dst hs
  | nop => exact keepsEq_stage s eqFree_nil
  | bytes2bits => exact keepsEq_unless (keepsEq_stage s (eqFree_packA _))
  | bits2bytes => exact keepsEq_unless (keepsEq_unless (keepsEq_stage s (eqFree_pair rfl rfl)))
  | checksum n => exact keepsEq_unless (keepsEq_unless (keepsEq_stage s (eqFree_packB _)))
  | ent2bits src => exact keepsEq_unless (keepsEq_stage s (eqFree_packA _))
  | bits2idx => exact keepsEq_unless (keepsEq_stage s (eqFree_idxWrites _))
  | idx2words =>
    refine keepsEq_unless ?_
    cases firstBadIndex s
    · exact keepsEq_stage s (eqFree_wordWrites s _)
    · exact keepsEq_raise _ _ s
  | encode src =>
    exact keepsEq_unless (keepsEq_unless
      (keepsEq_stage s (((eqFree_packA _).append (eqFree_idxWrites _)).append (eqFree_wordWrites s _))))
  | words2idx =>
    refine keepsEq_unless (keepsEq_unless ?_)
    cases firstAbsentWord s
    · exact keepsEq_stage s (eqFree_idxWrites _)
    · exact keepsEq_raise _ _ s
  | idx2bits =>
    simp only [exec, execIdx2bits]
    cases firstBadIndex s
    · exact keepsEq_stage s (eqFree_packA _)
    · exact keepsEq_raise _ _ s
  | bits2ent dst =>
    exact keepsEq_unless (keepsEq_ite (keepsEq_stage s (eqFree_entropyWrites dst _)) (keepsEq_raise _ _ s))
  | decode dst =>
    refine keepsEq_unless (keepsEq_unless ?_)
    cases firstAbsentWord s
    · exact keepsEq_ite
        (keepsEq_stage s (((eqFree_idxWrites _).append (eqFree_packA _)).append (eqFree_entropyWrites dst _)))
        (keepsEq_raise _ _ s)
    · exact keepsEq_raise _ _ s
  | prf dst src => exact keepsEq_unless (keepsEq_unless (keepsEq_stage s (eqFree_seedWrites dst _)))
  | dmaster dst src => exact keepsEq_unless (keepsEq_unless (keepsEq_stage s (eqFree_seedWrites dst _)))
  | dacct dst src =>
    exact keepsEq_unless (keepsEq_unless
      (keepsEq_stage s (List.forall_mem_flatMap.2 fun i _ => eqFree_seedWrites (slotAfter dst i) _)))
  | dprroot dst src => exact keepsEq_unless (keepsEq_stage s (eqFree_seedWrites dst _))
  | dprand dst src => exact keepsEq_unless (keepsEq_stage s (eqFree_seedWrites dst _))

/-- Settles O25: every other command's execute step stages a list without a write of EQ. -/
theorem onlyEqbitsAndZeroizeWriteEq : Obligations.OnlyEqbitsAndZeroizeWriteEq := by
  intro i s t hs he hne
  by_contra hi
  obtain ⟨heq, hz⟩ := not_or.1 hi
  exact hne (exec_keepsEq i hs heq hz t he)

/-! ### The interrupt output -/

theorem irq_eq_true_iff (s : State) : irq s = true ↔ s.done = true ∧ s.irqen = true := Bool.and_eq_true_iff

section Irq

variable {s t : State}

theorem irq_executes (h : Executes s t) : irq t = irq s := by cases h <;> rfl

theorem irq_answers (h : Answers s t) : irq t = irq s := by cases h <;> rfl

/-- The level stays 0 where IRQEN is kept and DONE is not newly set. -/
theorem irq_stays_low (hs : irq s = false) (hd : t.done = true → s.done = true) (he : t.irqen = s.irqen) :
    irq t = false := by
  rw [Bool.eq_false_iff] at hs ⊢
  intro ht
  obtain ⟨hdone, hirqen⟩ := (irq_eq_true_iff t).1 ht
  exact hs ((irq_eq_true_iff s).2 ⟨hd hdone, he ▸ hirqen⟩)

/-- Of the writes, only one to CTRL can raise the level (R23): ACK and CMD clear DONE, the others leave it. -/
theorem irq_writeTarget (hs : irq s = false) (v : Word) (tg : Target) :
    (tg = .ctrl ∧ writeTarget v s tg = writeCtrl v s) ∨ irq (writeTarget v s tg) = false := by
  rcases writeTarget_cases v s tg with he | hctrl | ⟨-, he⟩ | ⟨-, he⟩ | ⟨-, he⟩ | ⟨-, he⟩
  · rw [he]; exact .inr hs
  · exact .inl hctrl
  · rw [he]; exact .inr (irq_stays_low hs (fun h => (Bool.and_eq_true_iff.1 h).1) rfl)
  · rw [he, writeCmd]
    split
    · exact .inr hs
    · exact .inr (irq_stays_low hs nofun rfl)
  · rw [he]; exact .inr hs
  · rw [he]; exact .inr hs

theorem irq_hostAccess {a : Access} (hs : irq s = false) (ht : irq (hostAccess a s) = true) :
    ∃ v : Word, a = .write 0x004#17 4 v ∧ v.getLsbD 0 = true := by
  have unchanged : ¬irq s = true := by simp [hs]
  cases a with
  | read off size => simp only [hostAccess] at ht; split at ht <;> exact absurd ht unchanged
  | write off size v =>
    simp only [hostAccess] at ht
    split at ht
    · exact absurd ht unchanged
    · rename_i tg htg
      obtain ⟨-, rfl, h4, htarget⟩ := (accessTarget_eq_some ..).1 htg
      have ht : irq (writeTarget v s tg) = true := ht
      rcases irq_writeTarget hs v tg with ⟨rfl, he⟩ | hlow
      · obtain rfl : off = 0x004#17 := BitVec.eq_of_toNat_eq (offset_of_target h4 htarget)
        rw [he] at ht
        exact ⟨v, rfl, ((irq_eq_true_iff _).1 ht).2⟩
      · simp [hlow] at ht

end Irq

/-- Settles O26: by the kinds of step, only the complete step and a write to CTRL raise the level. -/
theorem irqRisesOnlyByCompletionOrEnable : Obligations.IrqRisesOnlyByCompletionOrEnable := by
  refine ⟨irq_eq_true_iff, fun s v hr => ⟨selects_ctrl.memWrite hr v, ?_⟩, fun s t hst hs ht => ?_⟩
  · rw [selects_ctrl.memRead hr, readTarget, ctrlWord]
    cases s.irqen <;> rfl
  · have unchanged : ¬irq s = true := by simp [hs]
    cases step_steps hst with
    | rests env turn draws => exact absurd ht unchanged
    | access a rest henv =>
      obtain ⟨v, rfl, hv⟩ := irq_hostAccess (s := s.withSchedule rest false s.draws) hs ht
      exact .inr ⟨v, by rw [henv, List.head?_cons], hv⟩
    | asserts rest henv => cases ht
    | releases rest henv => exact absurd ht unchanged
    | powers rest henv => cases ht
    | answers env turn draws t hp ha => exact absurd (irq_answers ha ▸ ht) unchanged
    | completes env turn st hb hp hstaged =>
      refine .inl ⟨hb, ?_, st, hstaged⟩
      cases st <;> simp only [complete, State.withSchedule_staged, hstaged] <;> rfl
    | executes env turn t hb hp hstaged he => exact absurd (irq_executes he ▸ ht) unchanged

/-! ### The LUT -/

section Lut

variable {s t : State} {a : Nat}

theorem byteAt_executes (h : Executes s t) (a : Nat) : byteAt t a = byteAt s a := by
  cases h <;> exact byteAt_congr rfl rfl a

theorem byteAt_answers (h : Answers s t) (a : Nat) : byteAt t a = byteAt s a := by
  cases h <;> exact byteAt_congr rfl rfl a

/-- No staged write and no error record reaches the LUT (R41). -/
theorem byteAt_complete_lut (s : State) (h : isLut a = true) : byteAt (complete s) a = byteAt s a := by
  rcases complete_cases s with ⟨-, hc⟩ | ⟨ws, -, hc⟩ | ⟨e, info, -, hc⟩ <;> rw [hc]
  · rw [byteAt_finish, byteAt_applyWrites_lut s ws a h]
  · exact byteAt_congr rfl rfl a

theorem byteAt_writeCmd (v : Word) (s : State) (a : Nat) : byteAt (writeCmd v s) a = byteAt s a := by
  rw [writeCmd]
  split <;> exact byteAt_congr rfl rfl a

theorem byteAt_whenIdle {f : State → State} (hf : byteAt (f s) a = byteAt s a) :
    byteAt (whenIdle f s) a = byteAt s a := by
  cases hb : s.busy with
  | true => rw [whenIdle_busy hb]; exact byteAt_congr rfl rfl a
  | false => rw [whenIdle_idle hb, hf]

/-- Of the writes, only one to a buffer word while idle changes a byte, and it changes that word's bytes alone
(R52, R139). -/
theorem byteAt_writeTarget {v : Word} {tg : Target} (hne : byteAt (writeTarget v s tg) a ≠ byteAt s a) :
    ∃ base, tg = .buffer base ∧ s.busy = false ∧ base ≤ a ∧ a < base + 4 := by
  cases tg
  case buffer base =>
    cases hb : s.busy with
    | true => rw [writeTarget, whenIdle_busy hb] at hne; exact absurd (byteAt_congr rfl rfl a) hne
    | false =>
      rw [writeTarget, whenIdle_idle hb, byteAt_writeLanes] at hne
      split at hne
      · rename_i hin; exact ⟨base, rfl, rfl, hin.1, hin.2.1⟩
      · exact absurd rfl hne
  case cmd => exact absurd (byteAt_writeCmd v s a) hne
  case id | ctrl | status | ack | errinfo => exact absurd (byteAt_congr rfl rfl a) hne
  all_goals exact absurd (byteAt_whenIdle (byteAt_congr rfl rfl a)) hne

theorem byteAt_hostAccess {acc : Access} (hne : byteAt (hostAccess acc s) a ≠ byteAt s a) :
    ∃ (off : BitVec 17) (v : Word), acc = .write off 4 v ∧ s.busy = false ∧ off.toNat ≤ a ∧ a < off.toNat + 4 := by
  cases acc with
  | read off size =>
    simp only [hostAccess] at hne; split at hne <;> exact absurd (byteAt_congr rfl rfl a) hne
  | write off size v =>
    simp only [hostAccess] at hne
    split at hne
    · exact absurd (byteAt_congr rfl rfl a) hne
    · rename_i tg htg
      obtain ⟨-, rfl, h4, htarget⟩ := (accessTarget_eq_some ..).1 htg
      have hne : byteAt (writeTarget v s tg) a ≠ byteAt s a := hne
      obtain ⟨base, rfl, hb, hlo, hhi⟩ := byteAt_writeTarget hne
      obtain rfl : off.toNat = base := offset_of_target h4 htarget
      exact ⟨off, v, rfl, hb, hlo, hhi⟩

end Lut

/-- Settles O27, by the kinds of step. -/
theorem onlyTheHostWritesTheLut : Obligations.OnlyTheHostWritesTheLut := by
  intro s t a hst hlo hhi hne
  have hlut : isLut a = true := by simp [isLut, hlo, hhi]
  cases step_steps hst with
  | rests env turn draws => exact absurd (byteAt_withSchedule ..) hne
  | access acc rest henv =>
    rw [← byteAt_withSchedule s rest false s.draws a] at hne
    obtain ⟨off, v, rfl, hb, hoff⟩ := byteAt_hostAccess hne
    exact .inl ⟨off, v, by rw [henv, List.head?_cons], hb, hoff⟩
  | asserts rest henv =>
    rw [byteAt_resetBlock, if_pos hlut] at hne
    exact absurd (byteAt_congr rfl rfl a) hne
  | releases rest henv => exact absurd (byteAt_congr rfl rfl a) hne
  | powers rest henv => exact .inr (by rw [henv, List.head?_cons])
  | answers env turn draws t hp ha => exact absurd (byteAt_answers ha a) hne
  | completes env turn st hb hp hstaged => exact absurd (byteAt_complete_lut _ hlut) hne
  | executes env turn t hb hp hstaged he => exact absurd (byteAt_executes he a) hne

end Sys2Proof.Machine

namespace Sys2Proof.Machine
open Sys2Proof

/-! SUPPORT and PROOFS. The host port (R47 to R60): which accesses are answered ERROR, what the others leave, the lanes
of a buffer word, and which steps the engine takes between two accesses (R57). -/

/-! ### Refused and accepted accesses -/

section Answered

variable {s : State} {off : BitVec 17} {size : Nat} {tg : Target}

theorem exists_selects (h4 : off.toNat % 4 = 0) (hm : Mapped off.toNat) : ∃ tg, Selects off tg :=
  (Option.isSome_iff_exists.1 ((target_isSome h4).2 hm)).imp fun _ ht => ⟨h4, ht⟩

/-- An access selects no target exactly for one of the four reasons of R48, R49, R50 and R136. -/
theorem accessTarget_eq_none_iff (s : State) (off : BitVec 17) (size : Nat) :
    accessTarget s off size = none ↔ s.rst = true ∨ size ≠ 4 ∨ off.toNat % 4 ≠ 0 ∨ ¬Mapped off.toNat := by
  constructor
  · intro h
    by_contra hgood
    simp only [not_or, not_not, Bool.not_eq_true] at hgood
    obtain ⟨hr, rfl, h4, hm⟩ := hgood
    obtain ⟨tg, hsel⟩ := exists_selects h4 hm
    simp [hsel.accessTarget hr] at h
  · refine fun hbad => Option.eq_none_iff_forall_ne_some.2 fun tg h => ?_
    obtain ⟨hr, hsize, h4, ht⟩ := (accessTarget_eq_some ..).1 h
    have hm : Mapped off.toNat := (target_isSome h4).1 (by simp [ht])
    simp [hr, hsize, h4, hm] at hbad

theorem hostAccess_read_refused (h : accessTarget s off size = none) :
    hostAccess (.read off size) s = { s with resp := some (.readError 0#32) } := by simp only [hostAccess, h]

theorem hostAccess_write_refused (h : accessTarget s off size = none) (v : Word) :
    hostAccess (.write off size v) s = { s with resp := some .writeError } := by simp only [hostAccess, h]

theorem hostAccess_read_accepted (h : accessTarget s off size = some tg) :
    hostAccess (.read off size) s = { s with resp := some (.readOkay (readTarget s tg)) } := by
  simp only [hostAccess, h]

theorem hostAccess_write_accepted (h : accessTarget s off size = some tg) (v : Word) :
    hostAccess (.write off size v) s = { writeTarget v s tg with resp := some .writeOkay } := by
  simp only [hostAccess, h]

end Answered

/-- Settles O14: such an access selects no target. -/
theorem badAccessIsAnsweredError : Obligations.BadAccessIsAnsweredError := by
  intro s off size v hbad
  have hnone := (accessTarget_eq_none_iff s off size).2 hbad
  exact ⟨hostAccess_read_refused hnone, hostAccess_write_refused hnone v⟩

/-- Settles O15: an aligned mapped offset selects a target. -/
theorem goodAccessIsAnsweredOkay : Obligations.GoodAccessIsAnsweredOkay := by
  intro s off v hr h4 hm
  obtain ⟨tg, hsel⟩ := exists_selects h4 hm
  have htg := hsel.accessTarget hr
  exact ⟨⟨readTarget s tg, hostAccess_read_accepted htg⟩, by rw [hostAccess_write_accepted htg]⟩

/-! ### The operands of a command in flight -/

/-- A write while busy reaches the flags and IRQEN alone: it is taken by CTRL or ACK, rejected by CMD, or dropped
(R139). -/
theorem writeTarget_of_busy {s : State} (hb : s.busy = true) (v : Word) (tg : Target) :
    writeTarget v s tg =
      { s with
        irqen := (writeTarget v s tg).irqen, done := (writeTarget v s tg).done
        cmdrej := (writeTarget v s tg).cmdrej, wbusy := (writeTarget v s tg).wbusy } := by
  rcases writeTarget_cases v s tg with he | ⟨-, hctrl⟩ | ⟨-, hack⟩ | ⟨-, hcmd⟩ | ⟨-, hdropped⟩ | ⟨hidle, -⟩
  · rw [he]
  · rw [hctrl]; rfl
  · rw [hack]; rfl
  · rw [hcmd, writeCmd, if_pos hb]
  · rw [hdropped]
  · simp [hb] at hidle

/-- Settles O13: a refused access and a read change the answer alone, an accepted write is `writeTarget_of_busy`. -/
theorem operandsFrozenWhileBusy : Obligations.OperandsFrozenWhileBusy := by
  intro a s hb
  cases a with
  | read off size =>
    cases htg : accessTarget s off size with
    | none => rw [hostAccess_read_refused htg]
    | some tg => rw [hostAccess_read_accepted htg]
  | write off size v =>
    cases htg : accessTarget s off size with
    | none => rw [hostAccess_write_refused htg]
    | some tg => rw [hostAccess_write_accepted htg, writeTarget_of_busy hb]

/-! ### The lanes of a buffer word -/

/-- Four bytes one above the other, as the union of the bytes shifted to their lanes: each bit of the word lies in one
lane, and a byte has no bit above its own eight. -/
theorem append_eq_or_shiftLeft (b0 b1 b2 b3 : Byte) :
    b3 ++ b2 ++ b1 ++ b0 =
      b0.setWidth 32 ||| b1.setWidth 32 <<< 8 ||| b2.setWidth 32 <<< 16 ||| b3.setWidth 32 <<< 24 := by
  have clear_above : ∀ (b : Byte) (i : Nat), 8 ≤ i → b.getLsbD i = false := BitVec.getLsbD_of_ge
  refine BitVec.eq_of_getLsbD_eq fun i hi => ?_
  simp only [BitVec.getLsbD_append, BitVec.getLsbD_or, BitVec.getLsbD_shiftLeft, BitVec.getLsbD_setWidth, Nat.sub_sub]
  obtain h | h | h | h : i < 8 ∨ (8 ≤ i ∧ i < 16) ∨ (16 ≤ i ∧ i < 24) ∨ 24 ≤ i := by omega
  all_goals grind

/-- A buffer's word lies wholly within the buffer (R47): each run begins and ends at a multiple of 4. -/
theorem isBuffer_lane {off j : Nat} (h4 : off % 4 = 0) (h : isBuffer off = true) (hj : j < 4) :
    isBuffer (off + j) = true := by
  rw [isBuffer_iff] at h ⊢
  omega

theorem selects_buffer {off : BitVec 17} (h4 : off.toNat % 4 = 0) (h : isBuffer off.toNat = true) :
    Selects off (.buffer off.toNat) := ⟨h4, target_buffer h⟩

theorem memWrite_buffer {s : State} {off : BitVec 17} (hr : s.rst = false) (hb : s.busy = false)
    (h4 : off.toNat % 4 = 0) (h : isBuffer off.toNat = true) (v : Word) :
    memWrite s off v = { writeLanes off.toNat v s with resp := some .writeOkay } := by
  rw [(selects_buffer h4 h).memWrite hr, writeTarget, whenIdle_idle hb]

theorem byteAt_memWrite_buffer {s : State} {off : BitVec 17} (hr : s.rst = false) (hb : s.busy = false)
    (h4 : off.toNat % 4 = 0) (h : isBuffer off.toNat = true) (v : Word) (a : Nat) :
    byteAt (memWrite s off v) a = byteAt (writeLanes off.toNat v s) a := by
  rw [memWrite_buffer hr hb h4 h]
  exact byteAt_congr rfl rfl a

/-- Settles O20: the read's bytes one above the other, and the written bytes by `byteAt_writeLanes`. -/
theorem bufferWordsHaveLittleEndianLanes : Obligations.BufferWordsHaveLittleEndianLanes := by
  refine ⟨fun s off hr h4 h => ?read, fun s off v hr hb h4 h => ⟨fun j hj => ?lane, fun a ha => ?others, ?registers⟩⟩
  case read => rw [(selects_buffer h4 h).memRead hr, readTarget, readLanes, append_eq_or_shiftLeft]
  case lane =>
    rw [byteAt_memWrite_buffer hr hb h4 h, byteAt_writeLanes, if_pos ⟨by omega, by omega, isBuffer_lane h4 h hj⟩,
      Nat.add_sub_cancel_left]
    rfl
  case others =>
    rw [byteAt_memWrite_buffer hr hb h4 h, byteAt_writeLanes, if_neg fun hin => ha ⟨hin.1, hin.2.1⟩]
  case registers => rw [memWrite_buffer hr hb h4 h, writeLanes_eq]

/-! ### The engine's steps -/

theorem engineStep_of_idle {s : State} (hb : s.busy = false) : engineStep s = .next s := by simp [engineStep, hb]

theorem engineStep_of_staged {s : State} {st : Staged} (hb : s.busy = true) (hs : s.staged = some st) :
    engineStep s = .next (complete s) := by simp only [engineStep, hb, hs, if_true]

theorem engineStep_of_decodes {s : State} {w : Word} {i : Instr} (hb : s.busy = true) (hs : s.staged = none)
    (hw : s.inflight = some w) (hd : decode w = .ok i) : engineStep s = exec i s := by
  simp only [engineStep, hb, hs, if_true, executeStep, hw, hd]

/-- What a step that is the busy engine's next one does, by what is staged (R123 to R125). -/
theorem engineStep_of_busy {s : State} (hb : s.busy = true) {r : Result} (h : r = engineStep s) :
    r = engineStep s ∧ (∀ w i, s.staged = none → s.inflight = some w → decode w = .ok i → r = exec i s) ∧
      ∀ st, s.staged = some st → r = .next (complete s) :=
  ⟨h, fun _ _ hs hw hd => h.trans (engineStep_of_decodes hb hs hw hd), fun _ hs => h.trans (engineStep_of_staged hb hs)⟩

theorem step_quiet {s : State} (henv : s.env = []) (hp : s.rngPending = false) : step s = engineStep s := by
  simp [step_nil henv, quietStep, hp]

theorem engineTurn_of_idle {s : State} (hb : s.busy = false) : engineTurn s = .next s := by simp [engineTurn, hb]

/-- A turn that R57 does not put off: the first since the last access, or with no access to come. -/
theorem turnWithheld_eq_false {s : State} (h : s.turnTaken = false ∨ ∀ a, .host a ∉ s.env) :
    turnWithheld s = false := by
  refine Bool.eq_false_iff.2 fun hw => ?_
  obtain ⟨ht, a, ha⟩ := (turnWithheld_iff s).1 hw
  rcases h with hfirst | hlast
  · simp [hfirst] at ht
  · exact hlast a ha

theorem engineTurn_of_withheld {s : State} (hw : turnWithheld s = true) : engineTurn s = .next s := by
  simp [engineTurn, hw]

theorem engineTurn_of_open {s : State} (hb : s.busy = true) (hp : s.rngPending = false) (hw : turnWithheld s = false) :
    engineTurn s = engineStep { s with turnTaken := true } := by simp [engineTurn, hb, hp, hw]

/-! ### The mark of the turn taken -/

theorem turnTaken_executes {s t : State} (h : Executes s t) : t.turnTaken = s.turnTaken := by cases h <;> rfl

theorem turnTaken_complete (s : State) : (complete s).turnTaken = s.turnTaken := by
  rcases complete_cases s with ⟨-, hc⟩ | ⟨ws, -, hc⟩ | ⟨e, info, -, hc⟩ <;> rw [hc]
  · rw [finish_turnTaken, applyWrites_turnTaken]
  · rfl

theorem turnTaken_engineStep {s t : State} (h : engineStep s = .next t) : t.turnTaken = s.turnTaken := by
  rcases engineStep_cases s with ⟨-, he⟩ | ⟨-, -, he⟩ | ⟨-, -, he⟩ <;> rw [he] at h
  · cases h; rfl
  · cases h; exact turnTaken_complete s
  · exact turnTaken_executes (executeStep_executes h)

theorem turnTaken_rngAnswered (a : RngAnswer) (s : State) : (rngAnswered a s).turnTaken = s.turnTaken := by
  rcases rngAnswered_cases a s with ⟨-, he⟩ | ⟨-, he | ⟨ws, he⟩ | ⟨e, info, he⟩⟩ <;> rw [he] <;> rfl

theorem turnTaken_engineTurn {s t : State} (ht : s.turnTaken = true) (h : engineTurn s = .next t) :
    t.turnTaken = true := by
  rcases engineTurn_cases s with ⟨-, he⟩ | ⟨-, -, -, he⟩ | ⟨-, -, -, he⟩ <;> rw [he] at h
  · cases h; exact ht
  · cases h; exact ht
  · exact turnTaken_engineStep h

theorem turnTaken_quietStep {s t : State} (h : quietStep s = .next t) : t.turnTaken = s.turnTaken := by
  rw [quietStep] at h
  split at h
  · cases h; exact turnTaken_rngAnswered ..
  · exact turnTaken_engineStep h

theorem turnTaken_eventStep {e : Event} {s t : State} (ht : s.turnTaken = true) (h : eventStep e s = .next t) :
    t.turnTaken = true ∨ ∃ a, e = .host a := by
  cases e with
  | host a => exact .inr ⟨a, rfl⟩
  | engine => exact .inl (turnTaken_engineTurn ht h)
  | rng a => cases h; exact .inl (by rw [turnTaken_rngAnswered, ht, Bool.true_or])
  | rngStale a => cases h; exact .inl ht
  | rst level => cases level <;> cases h <;> exact .inl ht
  | powerUp => cases h; exact .inl ht

/-- Only a host access opens the engine's next turn (R57). -/
theorem turnTaken_step {s t : State} (ht : s.turnTaken = true) (h : step s = .next t) :
    t.turnTaken = true ∨ ∃ a, s.env.head? = some (.host a) := by
  cases henv : s.env with
  | nil => rw [step_nil henv] at h; exact .inl ((turnTaken_quietStep h).trans ht)
  | cons e rest =>
    rw [step_cons henv] at h
    refine (turnTaken_eventStep (s := { s with env := rest }) ht h).imp_right ?_
    rintro ⟨a, rfl⟩
    exact ⟨a, rfl⟩

/-- Settles O6: by the head of the events, and for a listed turn by whether R57 withholds it. -/
theorem stepRunsTheDecodedCommand : Obligations.StepRunsTheDecodedCommand := by
  refine ⟨fun s hb hp => ⟨fun henv => ?quiet, fun rest henv => ⟨fun hopen => ?turn, fun ht ha => ?withheld⟩⟩,
    fun s rest hb => ⟨fun henv hp => ?idleQuiet, fun henv => ?idleTurn⟩, fun s a rest henv => step_cons henv,
    fun _ _ => turnTaken_step⟩
  case quiet => exact engineStep_of_busy hb (step_quiet henv hp)
  case turn =>
    exact engineStep_of_busy (s := { s with env := rest, turnTaken := true }) hb
      ((step_cons henv).trans (engineTurn_of_open hb hp (turnWithheld_eq_false hopen)))
  case withheld => exact (step_cons henv).trans (engineTurn_of_withheld ((turnWithheld_iff _).2 ⟨ht, ha⟩))
  case idleQuiet => exact (step_quiet henv hp).trans (engineStep_of_idle hb)
  case idleTurn => exact (step_cons henv).trans (engineTurn_of_idle hb)

end Sys2Proof.Machine

namespace Sys2Proof
open Sys2Proof.Machine

/-! SUPPORT and PROOFS. The command word (R63 to R70): a word is its five fields, a command is its row's opcode with the
operands the row has, and the decoder accepts exactly the words commands encode to. -/

/-! ### The fields of a word (R64) -/

/-- A slot's number determines the four bits it was read from. -/
theorem slotBits_inj {a b : BitVec 4} (h : Fin.ofNat 16 a.toNat = Fin.ofNat 16 b.toNat) : a = b := by
  have hmod : a.toNat % 16 = b.toNat % 16 := congrArg Fin.val h
  bv_omega

/-- A word is its five fields one above the other: no bit lies outside them (R63). -/
theorem word_eq_append (w : Word) :
    w.extractLsb' 25 7 ++ w.extractLsb' 16 9 ++ w.extractLsb' 12 4 ++ w.extractLsb' 8 4 ++ w.extractLsb' 0 8 = w := by
  rw [BitVec.extractLsb'_append_extractLsb'_eq_extractLsb' (show 25 = 16 + 9 from rfl),
    BitVec.extractLsb'_append_extractLsb'_eq_extractLsb' (show 16 = 12 + 4 from rfl),
    BitVec.extractLsb'_append_extractLsb'_eq_extractLsb' (show 12 = 8 + 4 from rfl),
    BitVec.extractLsb'_append_extractLsb'_eq_extractLsb' (show 8 = 0 + 8 from rfl)]
  exact BitVec.extractLsb'_eq_self

theorem word_ext {v w : Word} (hrsv : fieldRsv v = fieldRsv w) (haux : fieldAux v = fieldAux w)
    (hsrc : fieldSrc v = fieldSrc w) (hdst : fieldDst v = fieldDst w) (hopc : fieldOpc v = fieldOpc w) : v = w := by
  simp only [fieldRsv, fieldAux, fieldOpc] at hrsv haux hopc
  rw [← word_eq_append v, ← word_eq_append w, hrsv, haux, slotBits_inj hsrc, slotBits_inj hdst, hopc]

/-- DST as the statements spell it (R64). -/
theorem toNat_shiftRight_and_eq_fieldDst (w : Word) : (w >>> 8 &&& 0xF#32).toNat = (fieldDst w).val := by
  simpa [fieldDst] using Nat.and_two_pow_sub_one_eq_mod (w.toNat >>> 8) 4

/-! ### The fields of an assembled word (R70) -/

section Assemble
variable (o : Opcode) (dst src : Slot) (aux : BitVec 9)

/-- An assembled word bit by bit: each bit comes from the field it lies in, and AUX has none above its own nine. -/
theorem getLsbD_assemble {i : Nat} (hi : i < 32) :
    (assemble o dst src aux).getLsbD i =
      if i < 8 then o.code.getLsbD i else if i < 12 then dst.val.testBit (i - 8)
      else if i < 16 then src.val.testBit (i - 12) else aux.getLsbD (i - 16) := by
  have above : ∀ (s : Slot) (j : Nat), 4 ≤ j → s.val.testBit j = false := fun s j hj =>
    Nat.testBit_lt_two_pow (s.isLt.trans_le (Nat.pow_le_pow_right Nat.two_pos hj))
  simp only [assemble, BitVec.getLsbD_or, BitVec.getLsbD_shiftLeft, BitVec.getLsbD_setWidth, BitVec.getLsbD_ofNat]
  grind

@[simp] theorem fieldRsv_assemble : fieldRsv (assemble o dst src aux) = 0#7 := by
  refine BitVec.eq_of_getLsbD_eq fun i hi => ?_
  rw [fieldRsv, BitVec.getLsbD_extractLsb', getLsbD_assemble _ _ _ _ (by omega)]
  grind

@[simp] theorem fieldAux_assemble : fieldAux (assemble o dst src aux) = aux := by
  refine BitVec.eq_of_getLsbD_eq fun i hi => ?_
  rw [fieldAux, BitVec.getLsbD_extractLsb', getLsbD_assemble _ _ _ _ (by omega)]
  grind

@[simp] theorem fieldSrc_assemble : fieldSrc (assemble o dst src aux) = src := by
  have bits : (assemble o dst src aux).extractLsb' 12 4 = BitVec.ofFin src := by
    refine BitVec.eq_of_getLsbD_eq fun i hi => ?_
    rw [BitVec.getLsbD_extractLsb', getLsbD_assemble _ _ _ _ (by omega), BitVec.getLsbD_ofFin]
    grind
  simp [fieldSrc, bits]

@[simp] theorem fieldDst_assemble : fieldDst (assemble o dst src aux) = dst := by
  have bits : (assemble o dst src aux).extractLsb' 8 4 = BitVec.ofFin dst := by
    refine BitVec.eq_of_getLsbD_eq fun i hi => ?_
    rw [BitVec.getLsbD_extractLsb', getLsbD_assemble _ _ _ _ (by omega), BitVec.getLsbD_ofFin]
    grind
  simp [fieldDst, bits]

@[simp] theorem fieldOpc_assemble : fieldOpc (assemble o dst src aux) = o.code := by
  refine BitVec.eq_of_getLsbD_eq fun i hi => ?_
  rw [fieldOpc, BitVec.getLsbD_extractLsb', getLsbD_assemble _ _ _ _ (by omega)]
  grind

end Assemble

theorem eq_assemble_iff {w : Word} {o : Opcode} {dst src : Slot} {aux : BitVec 9} :
    w = assemble o dst src aux ↔ fieldRsv w = 0#7 ∧ fieldAux w = aux ∧ fieldSrc w = src ∧ fieldDst w = dst ∧
      fieldOpc w = o.code := by
  constructor
  · rintro rfl
    simp
  · rintro ⟨hrsv, haux, hsrc, hdst, hopc⟩
    apply word_ext <;> simpa

/-! ### The rows of the map (R67) -/

theorem Opcode.mem_all (o : Opcode) : o ∈ Opcode.all := by cases o <;> decide

theorem Opcode.ofCode_code (o : Opcode) : Opcode.ofCode o.code = some o := by cases o <;> rfl

theorem Opcode.eq_of_code_eq {o p : Opcode} (h : o.code = p.code) : o = p := by
  simpa [Opcode.ofCode_code] using congrArg Opcode.ofCode h

theorem Opcode.ofCode_eq_none_iff {b : Byte} : Opcode.ofCode b = none ↔ ∀ o : Opcode, o.code ≠ b := by
  simp [Opcode.ofCode, Opcode.mem_all]

/-- RSV and every field the row marks 0 are 0 (R66). -/
theorem reservedFieldSet_eq_false_iff {o : Opcode} {w : Word} :
    reservedFieldSet o w = false ↔ fieldRsv w = 0#7 ∧ (o.usesDst = false → fieldDst w = 0) ∧
      (o.usesSrc = false → fieldSrc w = 0) ∧ (o.usesAux = false → fieldAux w = 0#9) := by
  simp [reservedFieldSet, and_assoc]

/-- Every command is some row's, with the fields that are no operands of the row at 0. -/
theorem exists_instr (i : Instr) :
    ∃ (o : Opcode) (dst src : Slot) (aux : BitVec 9), o.instr dst src aux = i ∧ (o.usesDst = false → dst = 0) ∧
      (o.usesSrc = false → src = 0) ∧ (o.usesAux = false → aux = 0#9) := by
  cases i with
  | nop => exact ⟨.nop, 0, 0, 0#9, rfl, fun _ => rfl, fun _ => rfl, fun _ => rfl⟩
  | bytes2bits => exact ⟨.bytes2bits, 0, 0, 0#9, rfl, fun _ => rfl, fun _ => rfl, fun _ => rfl⟩
  | bits2bytes => exact ⟨.bits2bytes, 0, 0, 0#9, rfl, fun _ => rfl, fun _ => rfl, fun _ => rfl⟩
  | eqbits => exact ⟨.eqbits, 0, 0, 0#9, rfl, fun _ => rfl, fun _ => rfl, fun _ => rfl⟩
  | checksum n => exact ⟨.checksum, 0, 0, n, rfl, fun _ => rfl, fun _ => rfl, nofun⟩
  | ent2bits src => exact ⟨.ent2bits, 0, src, 0#9, rfl, fun _ => rfl, nofun, fun _ => rfl⟩
  | bits2idx => exact ⟨.bits2idx, 0, 0, 0#9, rfl, fun _ => rfl, fun _ => rfl, fun _ => rfl⟩
  | idx2words => exact ⟨.idx2words, 0, 0, 0#9, rfl, fun _ => rfl, fun _ => rfl, fun _ => rfl⟩
  | encode src => exact ⟨.encode, 0, src, 0#9, rfl, fun _ => rfl, nofun, fun _ => rfl⟩
  | words2idx => exact ⟨.words2idx, 0, 0, 0#9, rfl, fun _ => rfl, fun _ => rfl, fun _ => rfl⟩
  | idx2bits => exact ⟨.idx2bits, 0, 0, 0#9, rfl, fun _ => rfl, fun _ => rfl, fun _ => rfl⟩
  | bits2ent dst => exact ⟨.bits2ent, dst, 0, 0#9, rfl, nofun, fun _ => rfl, fun _ => rfl⟩
  | decode dst => exact ⟨.decode, dst, 0, 0#9, rfl, nofun, fun _ => rfl, fun _ => rfl⟩
  | prf dst src => exact ⟨.prf, dst, src, 0#9, rfl, nofun, nofun, fun _ => rfl⟩
  | dmaster dst src => exact ⟨.dmaster, dst, src, 0#9, rfl, nofun, nofun, fun _ => rfl⟩
  | dacct dst src => exact ⟨.dacct, dst, src, 0#9, rfl, nofun, nofun, fun _ => rfl⟩
  | dprroot dst src => exact ⟨.dprroot, dst, src, 0#9, rfl, nofun, nofun, fun _ => rfl⟩
  | dprand dst src => exact ⟨.dprand, dst, src, 0#9, rfl, nofun, nofun, fun _ => rfl⟩
  | genent dst => exact ⟨.genent, dst, 0, 0#9, rfl, nofun, fun _ => rfl, fun _ => rfl⟩
  | zeroize => exact ⟨.zeroize, 0, 0, 0#9, rfl, fun _ => rfl, fun _ => rfl, fun _ => rfl⟩

/-- The word of a row's command: the row's opcode and its operands, every other field 0 (R66, R70). -/
theorem encode_instr {o : Opcode} {dst src : Slot} {aux : BitVec 9} (hdst : o.usesDst = false → dst = 0)
    (hsrc : o.usesSrc = false → src = 0) (haux : o.usesAux = false → aux = 0#9) :
    encode (o.instr dst src aux) = assemble o dst src aux := by
  have operands_only : encode (o.instr dst src aux) = assemble o (if o.usesDst then dst else 0)
      (if o.usesSrc then src else 0) (if o.usesAux then aux else 0#9) := by cases o <;> rfl
  grind

/-- Only DACCT restricts an operand, its destination to 11 (R67). -/
theorem wellFormed_instr_iff {o : Opcode} {dst src : Slot} {aux : BitVec 9} :
    WellFormed (o.instr dst src aux) ↔ ¬(o = .dacct ∧ 11 < dst.val) := by
  cases o <;> simp [WellFormed, Instr.wellFormed, Opcode.instr]

/-! ### The decoder's answers (R68) -/

theorem decode_eq_unknownOpcode {w : Word} (h : ∀ o : Opcode, o.code ≠ fieldOpc w) :
    decode w = .error .unknownOpcode := by
  rw [decode, Opcode.ofCode_eq_none_iff.2 h]

section Row
variable {o : Opcode} {w : Word} (ho : o.code = fieldOpc w)
include ho

theorem decode_eq_reservedField (h : reservedFieldSet o w = true) : decode w = .error .reservedField := by
  simp [decode, ← ho, Opcode.ofCode_code, h]

theorem decode_eq_dacctDestination (h : reservedFieldSet o w = false)
    (hwf : ¬WellFormed (o.instr (fieldDst w) (fieldSrc w) (fieldAux w))) : decode w = .error .dacctDestination := by
  simp [decode, ← ho, Opcode.ofCode_code, h, hwf]

theorem decode_eq_ok (h : reservedFieldSet o w = false)
    (hwf : WellFormed (o.instr (fieldDst w) (fieldSrc w) (fieldAux w))) :
    decode w = .ok (o.instr (fieldDst w) (fieldSrc w) (fieldAux w)) := by
  simp [decode, ← ho, Opcode.ofCode_code, h, hwf]

end Row

/-- Where the decoder accepts a word: none of R68's three cases holds. -/
theorem decode_eq_ok_iff {w : Word} {i : Instr} :
    decode w = .ok i ↔ ∃ o : Opcode, o.code = fieldOpc w ∧ reservedFieldSet o w = false ∧
      o.instr (fieldDst w) (fieldSrc w) (fieldAux w) = i ∧ WellFormed i := by
  refine ⟨fun h => ?_, fun ⟨o, ho, hres, hi, hwf⟩ => ?_⟩
  · obtain ⟨o, ho⟩ : ∃ o : Opcode, o.code = fieldOpc w := by
      by_contra hnone
      cases (decode_eq_unknownOpcode (not_exists.1 hnone)).symm.trans h
    cases hres : reservedFieldSet o w with
    | true => cases (decode_eq_reservedField ho hres).symm.trans h
    | false =>
      by_cases hwf : WellFormed (o.instr (fieldDst w) (fieldSrc w) (fieldAux w))
      · cases (decode_eq_ok ho hres hwf).symm.trans h
        exact ⟨o, ho, hres, rfl, hwf⟩
      · cases (decode_eq_dacctDestination ho hres hwf).symm.trans h
  · subst hi
    exact decode_eq_ok ho hres hwf

/-! ### The round trips -/

/-- Settles O1: the word's fields are the command's operands, and its row admits them. -/
theorem decodeReadsBackEncode : Obligations.DecodeReadsBackEncode := by
  intro i hwf
  obtain ⟨o, dst, src, aux, rfl, hdst, hsrc, haux⟩ := exists_instr i
  rw [encode_instr hdst hsrc haux, decode_eq_ok_iff]
  refine ⟨o, ?code, reservedFieldSet_eq_false_iff.2 ?admitted, ?operands, hwf⟩
  case code => rw [fieldOpc_assemble]
  case admitted => simpa using ⟨hdst, hsrc, haux⟩
  case operands => rw [fieldDst_assemble, fieldSrc_assemble, fieldAux_assemble]

/-- Settles O2: the word's fields are those the decoded command is assembled from. -/
theorem encodeReadsBackDecode : Obligations.EncodeReadsBackDecode := by
  intro w i h
  obtain ⟨o, ho, hres, rfl, hwf⟩ := decode_eq_ok_iff.1 h
  obtain ⟨hrsv, hdst, hsrc, haux⟩ := reservedFieldSet_eq_false_iff.1 hres
  rw [encode_instr hdst hsrc haux]
  exact ⟨hwf, (eq_assemble_iff.2 ⟨hrsv, rfl, rfl, rfl, ho.symm⟩).symm⟩

/-- The decoder accepts exactly the words of the commands. -/
theorem decode_eq_ok_iff_encode {w : Word} {i : Instr} : decode w = .ok i ↔ WellFormed i ∧ encode i = w :=
  ⟨encodeReadsBackDecode w i, fun ⟨hwf, hw⟩ => hw ▸ decodeReadsBackEncode i hwf⟩

/-- Settles O5: each word is the one its command encodes to (R70). -/
theorem sampleWordsDecode : Obligations.SampleWordsDecode := by
  simp only [Obligations.SampleWordsDecode, decode_eq_ok_iff_encode]
  decide

/-! ### The opcode table (R67) -/

/-- The bits a row fixes: RSV, OPC, and each field that is no operand. -/
def Opcode.mask (o : Opcode) : Word :=
  0x7F#7 ++ (if o.usesAux then 0#9 else 0x1FF#9) ++ (if o.usesSrc then 0#4 else 0xF#4) ++
    (if o.usesDst then 0#4 else 0xF#4) ++ 0xFF#8

/-- The table has one row per opcode: its word with every operand 0, and its mask. -/
theorem opcodeTable_eq_map : opcodeTable = Opcode.all.map fun o => (assemble o 0 0 0#9, o.mask) := by decide

theorem mem_opcodeTable_iff {r : Word × Word} :
    r ∈ opcodeTable ↔ ∃ o : Opcode, (assemble o 0 0 0#9, o.mask) = r := by
  simp [opcodeTable_eq_map, Opcode.mem_all]

/-- A field under a mask of all ones, or of zeros where the field is an operand. -/
theorem and_ite_allOnes {n : Nat} (b : BitVec n) (operand : Bool) :
    b &&& (if operand then 0#n else BitVec.allOnes n) = if operand then 0#n else b := by
  split
  · exact BitVec.and_zero
  · exact BitVec.and_allOnes

section Mask
variable (o : Opcode) (w : Word)

theorem fieldRsv_and_mask : fieldRsv (w &&& o.mask) = fieldRsv w := by
  have hmask : o.mask.extractLsb' 25 7 = BitVec.allOnes 7 := by cases o <;> rfl
  rw [fieldRsv, BitVec.extractLsb'_and, hmask, BitVec.and_allOnes, fieldRsv]

theorem fieldAux_and_mask : fieldAux (w &&& o.mask) = if o.usesAux then 0#9 else fieldAux w := by
  have hmask : o.mask.extractLsb' 16 9 = if o.usesAux then 0#9 else BitVec.allOnes 9 := by cases o <;> rfl
  rw [fieldAux, BitVec.extractLsb'_and, hmask, and_ite_allOnes, fieldAux]

theorem fieldSrc_and_mask : fieldSrc (w &&& o.mask) = if o.usesSrc then 0 else fieldSrc w := by
  have hmask : o.mask.extractLsb' 12 4 = if o.usesSrc then 0#4 else BitVec.allOnes 4 := by cases o <;> rfl
  rw [fieldSrc, BitVec.extractLsb'_and, hmask, and_ite_allOnes]
  split <;> rfl

theorem fieldDst_and_mask : fieldDst (w &&& o.mask) = if o.usesDst then 0 else fieldDst w := by
  have hmask : o.mask.extractLsb' 8 4 = if o.usesDst then 0#4 else BitVec.allOnes 4 := by cases o <;> rfl
  rw [fieldDst, BitVec.extractLsb'_and, hmask, and_ite_allOnes]
  split <;> rfl

theorem fieldOpc_and_mask : fieldOpc (w &&& o.mask) = fieldOpc w := by
  have hmask : o.mask.extractLsb' 0 8 = BitVec.allOnes 8 := by cases o <;> rfl
  rw [fieldOpc, BitVec.extractLsb'_and, hmask, BitVec.and_allOnes, fieldOpc]

end Mask

/-- A word meets a row's match under its mask exactly where the decoder finds the row's OPC and no reserved field
set. -/
theorem and_mask_eq_iff {o : Opcode} {w : Word} :
    w &&& o.mask = assemble o 0 0 0#9 ↔ o.code = fieldOpc w ∧ reservedFieldSet o w = false := by
  rw [eq_assemble_iff, reservedFieldSet_eq_false_iff, fieldRsv_and_mask, fieldAux_and_mask, fieldSrc_and_mask,
    fieldDst_and_mask, fieldOpc_and_mask]
  grind

/-- A row's match is its OPC with zeros above, so a word cut to OPC meets it where the word's OPC is the row's. -/
theorem and_opc_eq_iff {o : Opcode} {w : Word} : w &&& 0xFF#32 = assemble o 0 0 0#9 ↔ o.code = fieldOpc w := by
  have hopc : fieldOpc (w &&& 0xFF#32) = fieldOpc w := BitVec.extractLsb'_and.trans BitVec.and_allOnes
  rw [eq_assemble_iff, hopc, eq_comm (a := o.code)]
  simp [fieldRsv, fieldAux, fieldSrc, fieldDst, BitVec.extractLsb'_and]

/-- Settles O3: a row accepts the word where the decoder finds an opcode and no reserved field set, and DACCT's
destination decides the rest. -/
theorem decodableWordsAreTheTables : Obligations.DecodableWordsAreTheTables := by
  intro w
  have table : (∃ r ∈ opcodeTable, w &&& r.2 = r.1) ↔
      ∃ o : Opcode, o.code = fieldOpc w ∧ reservedFieldSet o w = false := by
    simp [mem_opcodeTable_iff, and_mask_eq_iff]
  have dacct : w &&& 0xFF#32 = 0x32#32 ↔ Opcode.dacct.code = fieldOpc w := and_opc_eq_iff (o := .dacct)
  rw [table, dacct, toNat_shiftRight_and_eq_fieldDst]
  constructor
  · rintro ⟨i, h⟩
    obtain ⟨o, ho, hres, rfl, hwf⟩ := decode_eq_ok_iff.1 h
    exact ⟨⟨o, ho, hres⟩, fun ⟨hd, h11⟩ => wellFormed_instr_iff.1 hwf ⟨Opcode.eq_of_code_eq (ho.trans hd.symm), h11⟩⟩
  · rintro ⟨⟨o, ho, hres⟩, hd⟩
    exact ⟨_, decode_eq_ok ho hres (wellFormed_instr_iff.2 fun ⟨h, h11⟩ => hd ⟨h ▸ ho, h11⟩)⟩

/-! ### Illegal words in flight (R68) -/

theorem engineStep_of_illegal {s : State} {w : Word} {e : DecodeError} (hb : s.busy = true) (hs : s.staged = none)
    (hw : s.inflight = some w) (hd : decode w = .error e) :
    engineStep s = .next (raise .illegalCommand e.info s) := by
  simp only [engineStep, hb, hs, if_true, executeStep, hw, hd]

/-- Settles O4: each clause is one of the decoder's three errors, said by the table's rows. -/
theorem illegalWordsRaise : Obligations.IllegalWordsRaise := by
  intro s w hb hs hw
  refine ⟨fun hnone => ?unknown, fun r hr hopc hmask => ?reserved, fun hdacct h11 => ?destination⟩
  case unknown =>
    refine engineStep_of_illegal hb hs hw (decode_eq_unknownOpcode fun o ho => ?_)
    exact hnone _ (mem_opcodeTable_iff.2 ⟨o, rfl⟩) (and_opc_eq_iff.2 ho)
  case reserved =>
    obtain ⟨o, rfl⟩ := mem_opcodeTable_iff.1 hr
    have ho : o.code = fieldOpc w := and_opc_eq_iff.1 hopc
    have hres : reservedFieldSet o w = true := by
      by_contra hclear
      exact hmask (and_mask_eq_iff.2 ⟨ho, by simpa using hclear⟩)
    exact engineStep_of_illegal hb hs hw (decode_eq_reservedField ho hres)
  case destination =>
    obtain ⟨ho, hres⟩ := (and_mask_eq_iff (o := .dacct)).1 hdacct
    rw [toNat_shiftRight_and_eq_fieldDst] at h11
    exact engineStep_of_illegal hb hs hw
      (decode_eq_dacctDestination ho hres fun hwf => wellFormed_instr_iff.1 hwf ⟨rfl, h11⟩)

end Sys2Proof

namespace Sys2Proof.Machine
open Sys2Proof

/-! SUPPORT and PROOFS. The bit codec (R73 to R80): bit strings as unsigned integers and as bytes, the packed buffers seen
as byte strings, what a command that writes one buffer and its length leaves, and BYTES2BITS, BITS2BYTES and EQBITS. -/

/-! ### Bit strings and unsigned integers (R10) -/

theorem bitsN_succ (n v : Nat) : bitsN (n + 1) v = v.testBit n :: bitsN n v := by
  simp [bitsN, List.range_succ_eq_map, Function.comp_def, Nat.sub_sub, Nat.add_comm]

theorem bitsN_two_pow_mul_add (n k v : Nat) : bitsN n (2 ^ n * k + v) = bitsN n v := by
  refine List.map_congr_left fun i hi => ?_
  have hlt : n - 1 - i < n := by have := List.mem_range.1 hi; omega
  have hlow : ∀ x : Nat, x.testBit (n - 1 - i) = (x % 2 ^ n).testBit (n - 1 - i) := by
    simp [Nat.testBit_mod_two_pow, hlt]
  rw [hlow, Nat.mul_add_mod, ← hlow]

theorem bitsN_uint (s : Bits) : bitsN s.length (uint s) = s := by
  induction s with
  | nil => rfl
  | cons b s ih =>
    have hbit : (2 ^ s.length * b.toNat + uint s).testBit s.length = b := by
      rw [Nat.testBit_two_pow_mul_add _ (uint_lt s)]
      cases b <;> simp
    rw [uint, Nat.mul_comm, List.length_cons, bitsN_succ, hbit, bitsN_two_pow_mul_add, ih]

theorem uint_bitsN (n v : Nat) : uint (bitsN n v) = v % 2 ^ n := by
  induction n with
  | zero => simp [bitsN, uint, Nat.mod_one]
  | succ n ih => rw [bitsN_succ, uint, length_bitsN, ih, Nat.mod_pow_succ, Nat.toNat_testBit, Nat.mul_comm, Nat.add_comm]

theorem byteBits_eq_bitsN (x : Byte) : byteBits x = bitsN 8 x.toNat := rfl

theorem ofNat_uint_byteBits (x : Byte) : BitVec.ofNat 8 (uint (byteBits x)) = x := by
  rw [byteBits_eq_bitsN, uint_bitsN, Nat.mod_eq_of_lt x.isLt, BitVec.ofNat_toNat, BitVec.setWidth_eq]

theorem byteBits_ofNat_uint {s : Bits} (h : s.length = 8) : byteBits (BitVec.ofNat 8 (uint s)) = s := by
  have hlt : uint s < 2 ^ 8 := h ▸ uint_lt s
  rw [byteBits_eq_bitsN, BitVec.toNat_ofNat, Nat.mod_eq_of_lt hlt, ← h, bitsN_uint]

/-! ### Bit strings and byte strings (R75, R76) -/

/-- The first byte takes the first eight bits. -/
theorem bitsToBytes_append {s : Bits} (h : s.length = 8) (r : Bits) :
    bitsToBytes (s ++ r) = BitVec.ofNat 8 (uint s) :: bitsToBytes r := by
  have hlen : (s ++ r).length / 8 = r.length / 8 + 1 := by rw [List.length_append, h]; omega
  have hfirst : (s ++ r).take 8 = s := List.take_left' h
  have hnext : ∀ i, (s ++ r).drop (8 * (i + 1)) = r.drop (8 * i) := fun i => by
    rw [Nat.mul_succ, Nat.add_comm, ← List.drop_drop, List.drop_left' h]
  simp only [bitsToBytes, hlen, List.range_succ_eq_map, List.map_cons, List.map_map, Function.comp_def, hnext,
    Nat.mul_zero, List.drop_zero, hfirst]

theorem bitsToBytes_bytesToBits (b : Bytes) : bitsToBytes (bytesToBits b) = b := by
  induction b with
  | nil => rfl
  | cons x b ih => rw [bytesToBits_cons, bitsToBytes_append (length_byteBits x), ofNat_uint_byteBits, ih]

theorem bytesToBits_bitsToBytes {n : Nat} {s : Bits} (h : s.length = 8 * n) : bytesToBits (bitsToBytes s) = s := by
  induction n generalizing s with
  | zero => rw [List.length_eq_zero_iff.1 h]; rfl
  | succ n ih =>
    have hfirst : (s.take 8).length = 8 := by rw [List.length_take]; omega
    have hrest : (s.drop 8).length = 8 * n := by rw [List.length_drop]; omega
    rw [← List.take_append_drop 8 s, bitsToBytes_append hfirst, bytesToBits_cons, byteBits_ofNat_uint hfirst, ih hrest]

/-- Settles O31: eight bits and their byte determine each other (R10), and both conversions go byte by byte. -/
theorem bitsAndBytesAreInverse : Obligations.BitsAndBytesAreInverse :=
  ⟨bitsToBytes_bytesToBits, fun s h => bytesToBits_bitsToBytes (n := s.length / 8) (by omega)⟩

theorem bytesToBits_zeros (n : Nat) : bytesToBits (zeros n) = zeroBits (8 * n) := by
  induction n with
  | zero => rfl
  | succ n ih =>
    have hsucc : zeros (n + 1) = 0#8 :: zeros n := List.replicate_succ
    have hzero : byteBits 0#8 = zeroBits 8 := rfl
    rw [hsucc, bytesToBits_cons, hzero, ih, zeroBits, zeroBits, List.replicate_append_replicate]
    exact congrArg zeroBits (by omega)

theorem getD_append_zeros (b : Bytes) (n j : Nat) :
    (b ++ zeros n).getD j 0#8 = if j < b.length then b.getD j 0#8 else 0#8 := by
  split
  · exact List.getD_append _ _ _ _ ‹_›
  · rw [List.getD_append_right _ _ _ _ (by omega), getD_zeros]

/-! ### A packed buffer as a byte string (R37, R75) -/

/-- Whole bytes of a packed buffer are its bit string. -/
theorem packedBits_eq_bytesToBits (s : State) (base n : Nat) :
    packedBits s base (8 * n) = bytesToBits (readBytes s base n) := by
  refine List.ext_getElem (by simp) fun i hi _ => ?_
  have hlt : i / 8 < n := by rw [length_packedBits] at hi; omega
  have hbit := getD_bytesToBits (readBytes s base n) (i / 8) (i % 8) (by omega)
  rw [Nat.div_add_mod, getD_readBytes s base n _ hlt] at hbit
  rw [← List.getD_eq_getElem (bytesToBits _) false, hbit]
  simp only [packedBits, List.getElem_map, List.getElem_range]

theorem bitsToBytes_packedBits (s : State) (base n : Nat) :
    bitsToBytes (packedBits s base (8 * n)) = readBytes s base n := by
  rw [packedBits_eq_bytesToBits, bitsToBytes_bytesToBits]

theorem packedBits_eq_packedBits_iff {s : State} {base base' len len' : Nat} :
    packedBits s base len = packedBits s base' len' ↔ len = len' ∧ ∀ j, j < len →
      (byteAt s (base + j / 8)).getLsbD (7 - j % 8) = (byteAt s (base' + j / 8)).getLsbD (7 - j % 8) := by
  refine ⟨fun h => ?_, fun ⟨hlen, hbits⟩ => hlen ▸ List.map_congr_left fun j hj => hbits j (List.mem_range.1 hj)⟩
  obtain rfl : len = len' := by simpa using congrArg List.length h
  exact ⟨rfl, fun j hj => List.map_inj_left.1 h j (List.mem_range.2 hj)⟩

/-! ### Commands that write one buffer and its length (R74, R124) -/

theorem byteMask_of_lt {a : Nat} (h : a < 0x800) : byteMask a = 0xFF#8 := by
  have hlen : isLenByte a = false := by simp [isLenByte, isLut]; omega
  simp [byteMask, hlen]

/-- What a byte reads as once a write and a register write after it are committed. -/
theorem byteAt_complete_pair (s : State) (w : Write) {r : Write} (hr : r.range = (0, 0)) (a : Nat) :
    byteAt (complete (stage [w, r] s)) a =
      if w.range.1 ≤ a ∧ a < w.range.1 + w.range.2 then w.data.getD (a - w.range.1) 0#8 &&& byteMask a
      else byteAt s a := by
  have hnone : ¬(r.range.1 ≤ a ∧ a < r.range.1 + r.range.2) := by rw [hr]; omega
  rw [complete_stage, byteAt_finish, applyWrites_cons, applyWrites_cons, applyWrites_nil, byteAt_applyWrite _ r,
    if_neg hnone, byteAt_applyWrite, byteAt_stage]

/-- Below MN every bit of the data is kept. -/
theorem byteAt_complete_pair_data (s : State) (w : Write) {r : Write} (hr : r.range = (0, 0))
    (hw : w.range.1 + w.range.2 ≤ 0x800) {i : Nat} (hi : i < w.range.2) :
    byteAt (complete (stage [w, r] s)) (w.range.1 + i) = w.data.getD i 0#8 := by
  rw [byteAt_complete_pair s w hr, if_pos ⟨by omega, by omega⟩, Nat.add_sub_cancel_left, byteMask_of_lt (by omega)]
  exact BitVec.and_allOnes

theorem readBytes_complete_pair (s : State) (w : Write) {r : Write} (hr : r.range = (0, 0))
    (hw : w.range.1 + w.range.2 ≤ 0x800) (hdata : w.data.length = w.range.2) :
    readBytes (complete (stage [w, r] s)) w.range.1 w.range.2 = w.data := by
  refine List.ext_getElem (by rw [length_readBytes, hdata]) fun i hi hi' => ?_
  rw [length_readBytes] at hi
  rw [← List.getD_eq_getElem _ 0#8, getD_readBytes _ _ _ _ hi, byteAt_complete_pair_data s w hr hw hi,
    List.getD_eq_getElem _ _ hi']

/-- `PackA` of a string that fits, committed (R74). -/
theorem bitaWritten_packA (s : State) {b : Bits} (h : b.length ≤ 512) :
    BitaWritten s (complete (stage (packA b) s)) b where
  registers := by
    rw [complete_stage]
    simp only [packA, applyWrites_cons, applyWrites_nil, applyWrite]
    rw [writeBytes_eq]
    rfl
  length := by
    have hset : (complete (stage (packA b) s)).bitalen = BitVec.ofNat 10 b.length := rfl
    rw [hset, BitVec.toNat_ofNat, Nat.mod_eq_of_lt (by omega)]
  bits := by
    have hlen : (b ++ zeroBits (512 - b.length)).length = 8 * 64 := by
      rw [List.length_append, length_zeroBits]; omega
    have hbytes : (bitsToBytes (b ++ zeroBits (512 - b.length))).length = 64 := by rw [length_bitsToBytes, hlen]
    have hread : readBytes (complete (stage (packA b) s)) bitaBase 64 = bitsToBytes (b ++ zeroBits (512 - b.length)) :=
      readBytes_complete_pair s (.bita _) rfl (by simp [Write.range, bitaBase]) hbytes
    calc packedBits (complete (stage (packA b) s)) bitaBase (8 * 64)
        = bytesToBits (bitsToBytes (b ++ zeroBits (512 - b.length))) := by rw [packedBits_eq_bytesToBits, hread]
      _ = b ++ zeroBits (512 - b.length) := bytesToBits_bitsToBytes hlen
  others a ha := by
    rw [packA, byteAt_complete_pair s _ rfl]
    exact if_neg ha

/-- A byte string packed into BITA stands there byte for byte. -/
theorem BitaWritten.bytes {s t : State} {m : Bytes} (h : BitaWritten s t (bytesToBits m)) (hm : m.length ≤ 64) :
    readBytes t bitaBase 64 = m ++ zeros (64 - m.length) := by
  have hpad : zeroBits (512 - (bytesToBits m).length) = bytesToBits (zeros (64 - m.length)) := by
    rw [bytesToBits_zeros, length_bytesToBits]
    exact congrArg zeroBits (by omega)
  calc readBytes t bitaBase 64
      = bitsToBytes (packedBits t bitaBase 512) := (bitsToBytes_packedBits t bitaBase 64).symm
    _ = bitsToBytes (bytesToBits (m ++ zeros (64 - m.length))) := by rw [h.bits, hpad, bytesToBits_append]
    _ = m ++ zeros (64 - m.length) := bitsToBytes_bytesToBits _

/-! ### The commands -/

theorem decode_eq_ok_iff_eq {w : Word} {i : Instr} (h : WellFormed i) : decode w = .ok i ↔ w = encode i :=
  decode_eq_ok_iff_encode.trans ⟨fun ⟨_, hw⟩ => hw.symm, fun hw => ⟨h, hw.symm⟩⟩

theorem getD_msgb {s : State} {j : Nat} (hj : j < s.msglen.toNat) (h : s.msglen.toNat ≤ 256) :
    (msgb s).getD j 0#8 = byteAt s (0x100 + j) := by
  have hread : (msgBytes s).getD j 0#8 = byteAt s (0x100 + j) := getD_readBytes s msgBase 256 j (by omega)
  rw [msgb, List.getD_eq_getElem?_getD, List.getElem?_take_of_lt hj, ← List.getD_eq_getElem?_getD, hread]

/-- Settles O36: BITA's bytes are those of the message, and its bits are theirs. -/
theorem bytes2bitsResult : Obligations.Bytes2bitsResult := by
  refine ⟨fun w => decode_eq_ok_iff_eq rfl, fun s => ⟨fun h => if_pos h, fun h => ?_⟩⟩
  have hmsg : (msgb s).length = s.msglen.toNat := length_msgb s (by omega)
  have hbits : (bytesToBits (msgb s)).length = 8 * s.msglen.toNat := by rw [length_bytesToBits, hmsg]
  have hwritten : BitaWritten s (complete (stage (packA (bytesToBits (msgb s))) s)) (bytesToBits (msgb s)) :=
    bitaWritten_packA s (by omega)
  refine ⟨_, if_neg (by omega), hwritten, hwritten.length.trans hbits, fun j hj => ?_⟩
  calc byteAt (complete (stage (packA (bytesToBits (msgb s))) s)) (0x200 + j)
      = (readBytes (complete (stage (packA (bytesToBits (msgb s))) s)) bitaBase 64).getD j 0#8 :=
        (getD_readBytes _ bitaBase 64 j (by omega)).symm
    _ = (msgb s ++ zeros (64 - (msgb s).length)).getD j 0#8 := by rw [hwritten.bytes (by omega)]
    _ = (msgb s).getD j 0#8 := by rw [getD_append_zeros, if_pos (by omega)]
    _ = byteAt s (0x100 + j) := getD_msgb hj (by omega)

/-- Settles O37: BITS_A is whole bytes of BITA, and these are what MSG is written with. -/
theorem bits2bytesResult : Obligations.Bits2bytesResult := by
  refine ⟨fun w => decode_eq_ok_iff_eq rfl, fun s => ⟨fun h => if_pos h, fun h h8 => ?length, fun h h8 => ?_⟩⟩
  case length => exact (if_neg (by omega)).trans (if_pos h8)
  have hbytes : bitsToBytes (bitsA s) = readBytes s bitaBase (s.bitalen.toNat / 8) := by
    rw [← bitsToBytes_packedBits, Nat.mul_div_cancel' (Nat.dvd_of_mod_eq_zero h8), bitsA]
  have hexec : exec .bits2bytes s = .next (stage
      [.msg (bitsToBytes (bitsA s) ++ zeros (256 - (bitsToBytes (bitsA s)).length)),
        .msglen (BitVec.ofNat 9 (s.bitalen.toNat / 8))] s) := (if_neg (by omega)).trans (if_neg (by omega))
  rw [hbytes] at hexec
  refine ⟨_, hexec, ?registers, fun j hj => ?message, fun a ha => ?others⟩
  case registers =>
    rw [complete_stage]
    simp only [applyWrites_cons, applyWrites_nil, applyWrite]
    rw [writeBytes_eq]
    rfl
  case message =>
    refine (byteAt_complete_pair_data s (.msg _) rfl (by simp [Write.range, msgBase]) hj).trans ?_
    rw [Write.data, getD_append_zeros, length_readBytes]
    exact ite_congr rfl (fun hlt => getD_readBytes s bitaBase _ _ hlt) fun _ => rfl
  case others =>
    rw [byteAt_complete_pair s _ rfl]
    exact if_neg ha

/-- Settles O38: EqualBits is equality, and packed bits are equal if their lengths and each of their bits are. -/
theorem eqbitsResult : Obligations.EqbitsResult := by
  refine ⟨fun w => decode_eq_ok_iff_eq rfl, fun s => ⟨fun h => if_pos h, fun hA hB => ?_⟩⟩
  refine ⟨_, equalBits (bitsA s) (bitsB s), if_neg (by omega), rfl, ?_⟩
  rw [equalBits_iff, bitsA, bitsB, packedBits_eq_packedBits_iff, ← BitVec.toNat_inj]
  rfl

end Sys2Proof.Machine

namespace Sys2Proof.Machine
open Sys2Proof

/-! SUPPORT and PROOFS. The checksum: how long the hash and the PRF are (R84, R99), what `PackB` leaves in BITB, and
CHECKSUM (R81, R83). -/

/-! ### Lengths of the hash and the PRF -/

@[simp] theorem length_shaDigest (s : ShaState) : (shaDigest s).length = 32 := by simp [shaDigest]

@[simp] theorem length_sha256 (b : Bytes) : (sha256 b).length = 32 := length_shaDigest _

theorem length_checksum (b : Bytes) {n : Nat} (h : n ≤ 256) : (checksum b n).length = n := by
  rw [checksum, List.length_take, length_bytesToBits, length_sha256]
  exact Nat.min_eq_left h

@[simp] theorem length_lane64Bytes (v : Lane) : (lane64Bytes v).length = 8 := by simp [lane64Bytes]

/-- Lanes 0 to 16 hold the sponge's rate, 136 bytes; a shorter answer is cut from them. -/
theorem length_squeeze (A : Lanes) {m : Nat} (h : m ≤ rate) : (squeeze A m).length = m := by
  rw [squeeze, List.length_take_of_le]
  simpa [List.length_flatMap, rate] using h

theorem length_sponge136 (p : Bytes) {m : Nat} (h : m ≤ rate) : (sponge136 p m).length = m := length_squeeze _ h

@[simp] theorem length_prf (k x : Bytes) : (prf k x).length = 64 := length_sponge136 _ (by decide)

/-- Settles O33: the digest is eight words of four bytes, and the PRF squeezes 512 bits from one block. -/
theorem hashAndPrfLengths : Obligations.HashAndPrfLengths := ⟨length_sha256, length_prf⟩

/-! ### BITB (R74) -/

/-- After 512 bits are written to a 64-byte buffer below MN as its bytes, the buffer reads as those bits. -/
theorem packedBits_complete_pair (s : State) (w : Write) {r : Write} (hr : r.range = (0, 0))
    (hw : w.range.1 + w.range.2 ≤ 0x800) (hsize : w.range.2 = 64) {b : Bits} (hb : b.length = 512)
    (hdata : w.data = bitsToBytes b) : packedBits (complete (stage [w, r] s)) w.range.1 512 = b := by
  have hread : readBytes (complete (stage [w, r] s)) w.range.1 w.range.2 = w.data :=
    readBytes_complete_pair s w hr hw (by rw [hdata, length_bitsToBytes, hb, hsize])
  rw [hsize, hdata] at hread
  calc packedBits (complete (stage [w, r] s)) w.range.1 (8 * 64)
      = bytesToBits (bitsToBytes b) := by rw [packedBits_eq_bytesToBits, hread]
    _ = b := bytesToBits_bitsToBytes (n := 64) hb

/-- `PackB` of a string that fits, committed (R74). -/
theorem bitbWritten_packB (s : State) {b : Bits} (h : b.length ≤ 512) :
    BitbWritten s (complete (stage (packB b) s)) b where
  registers := by
    rw [complete_stage]
    simp only [packB, applyWrites_cons, applyWrites_nil, applyWrite]
    rw [writeBytes_eq]
    rfl
  length := by
    have hset : (complete (stage (packB b) s)).bitblen = BitVec.ofNat 10 b.length := rfl
    rw [hset, BitVec.toNat_ofNat, Nat.mod_eq_of_lt (by omega)]
  bits := packedBits_complete_pair s (.bitb _) rfl (by simp [Write.range, bitbBase]) rfl
    (by rw [List.length_append, length_zeroBits]; omega) rfl
  others a ha := by
    rw [packB, byteAt_complete_pair s _ rfl]
    exact if_neg ha

/-! ### CHECKSUM -/

/-- CHECKSUM has one operand, the length in bits 24 to 16; the slot fields of its word are 0 (R66). -/
theorem encode_checksum (n : BitVec 9) : encode (.checksum n) = 0x00000010#32 ||| BitVec.ofNat 32 n.toNat <<< 16 := by
  have hsrc : BitVec.ofNat 32 (0 : Slot).val <<< 12 = 0#32 := by decide
  have hdst : BitVec.ofNat 32 (0 : Slot).val <<< 8 = 0#32 := by decide
  rw [encode, assemble, hsrc, hdst, BitVec.or_zero, BitVec.or_zero, ← BitVec.ofNat_toNat, BitVec.or_comm]
  rfl

theorem exec_checksum_of_length {s : State} {n : BitVec 9} (hmsg : s.msglen.toNat ≤ 256) (hn : n.toNat ≤ 256) :
    exec (.checksum n) s = .next (stage (packB (checksum (msgb s) n.toNat)) s) :=
  (if_neg (by omega)).trans (if_neg (by omega))

/-- Settles O39: the two capacity checks in order, then `PackB` of the first n bits of the hash. -/
theorem checksumResult : Obligations.ChecksumResult := by
  intro s n
  refine ⟨fun w => encode_checksum n ▸ decode_eq_ok_iff_eq rfl, fun hmsg => if_pos hmsg, fun hmsg hn => ?tooLong,
    fun hmsg hn => ?checked⟩
  case tooLong => exact (if_neg (by omega)).trans (if_pos hn)
  case checked =>
    have hlen : (checksum (msgb s) n.toNat).length = n.toNat := length_checksum _ hn
    have hwritten : BitbWritten s (complete (stage (packB (checksum (msgb s) n.toNat)) s)) (checksum (msgb s) n.toNat) :=
      bitbWritten_packB s (by omega)
    exact ⟨_, exec_checksum_of_length hmsg hn, hwritten, hwritten.length.trans hlen⟩

end Sys2Proof.Machine

namespace Sys2Proof.Machine
open Sys2Proof

/-! SUPPORT and PROOFS. The mnemonic codec (R86 to R98): groups and their join, what committing one command after
another leaves, the staged families of the codec (BITA, IDX, MN, a slot's entropy), the step commands, and ENCODE and
DECODE as sequences of them. -/

/-! ### Groups of 11 bits and their join (R87) -/

theorem join_cons (v : Nat) (l : List Nat) : join (v :: l) = bitsN 11 v ++ join l := rfl

theorem group_lt (s : Bits) (k : Nat) : group s k < 2048 :=
  (length_group_lt s k).trans_le (Nat.pow_le_pow_right (by omega) (List.length_take_le 11 _))

theorem group_append_zero {s : Bits} (h : s.length = 11) (r : Bits) : group (s ++ r) 0 = uint s := by
  rw [group, Nat.mul_zero, List.drop_zero, Config.groupBits, List.take_left' h]

theorem group_append_succ {s : Bits} (h : s.length = 11) (r : Bits) (k : Nat) :
    group (s ++ r) (k + 1) = group r k := by
  rw [group, Config.groupBits, Nat.mul_succ, Nat.add_comm, ← List.drop_drop, List.drop_left' h, group, Config.groupBits]

theorem join_map_group {n : Nat} {s : Bits} (h : s.length = 11 * n) : join ((List.range n).map (group s)) = s := by
  induction n generalizing s with
  | zero => rw [List.length_eq_zero_iff.1 h]; rfl
  | succ n ih =>
    have hfirst : (s.take 11).length = 11 := by rw [List.length_take]; omega
    have hrest : (s.drop 11).length = 11 * n := by rw [List.length_drop]; omega
    have hbits : bitsN 11 (uint (s.take 11)) = s.take 11 := by simpa only [hfirst] using bitsN_uint (s.take 11)
    calc join ((List.range (n + 1)).map (group s))
        = join ((List.range (n + 1)).map (group (s.take 11 ++ s.drop 11))) := by rw [List.take_append_drop]
      _ = bitsN 11 (uint (s.take 11)) ++ join ((List.range n).map (group (s.drop 11))) := by
        simp only [List.range_succ_eq_map, List.map_cons, List.map_map, Function.comp_def, group_append_zero hfirst,
          group_append_succ hfirst, join_cons]
      _ = s := by rw [hbits, ih hrest, List.take_append_drop]

theorem group_join {l : List Nat} (hl : ∀ v ∈ l, v < 2048) {k : Nat} (hk : k < l.length) : group (join l) k = l[k] := by
  induction l generalizing k with
  | nil => cases hk
  | cons v l ih =>
    obtain ⟨hv, hrest⟩ := List.forall_mem_cons.1 hl
    cases k with
    | zero => rw [join_cons, group_append_zero (length_bitsN 11 v), uint_bitsN]; exact Nat.mod_eq_of_lt hv
    | succ k => rw [join_cons, group_append_succ (length_bitsN 11 v)]; exact ih hrest (Nat.lt_of_succ_lt_succ hk)

/-- The bits of a mnemonic whose words stand at the positions f: the join of the 24 numbers (R87, R95, R97). -/
def phraseBits (f : Fin 24 → Nat) : Bits := join ((List.finRange 24).map f)

@[simp] theorem length_phraseBits (f : Fin 24 → Nat) : (phraseBits f).length = 264 := by
  rw [phraseBits, length_join, List.length_map, List.length_finRange]

theorem group_phraseBits {f : Fin 24 → Nat} (hf : ∀ k, f k < 2048) (k : Fin 24) : group (phraseBits f) k.val = f k := by
  rw [phraseBits, group_join (by simpa using hf) (by simp)]
  simp

/-- The 24 groups of a mnemonic's bits, which number its words (R91, R93). -/
def groupsOf (b : Bits) (k : Fin 24) : Nat := group b k.val

theorem groupsOf_lt (b : Bits) (k : Fin 24) : groupsOf b k < 2048 := group_lt b k.val

theorem phraseBits_groupsOf {b : Bits} (h : b.length = 264) : phraseBits (groupsOf b) = b := by
  have hrange : (List.finRange 24).map (groupsOf b) = (List.range 24).map (group b) := by
    rw [← List.map_coe_finRange_eq_range, List.map_map]
    rfl
  rw [phraseBits, hrange]
  exact join_map_group h

theorem eq_of_phraseBits_eq {f g : Fin 24 → Nat} (hf : ∀ k, f k < 2048) (hg : ∀ k, g k < 2048)
    (h : phraseBits f = phraseBits g) : f = g :=
  funext fun k => by rw [← group_phraseBits hf k, h, group_phraseBits hg k]

/-- Settles O32: a string is cut after its first 11 bits, and a number below 2048 is the value of its 11 bits. -/
theorem groupsAndJoinAreInverse : Obligations.GroupsAndJoinAreInverse :=
  ⟨fun _ h => ⟨fun k _ => group_lt _ k, join_map_group h⟩,
    fun f hf => ⟨length_phraseBits f, group_phraseBits hf⟩⟩

/-! ### Commands committed one after the other (R123, R124) -/

theorem writeBytes_finish (s : State) (base n : Nat) (data : Bytes) :
    writeBytes (finish s) base n data = finish (writeBytes s base n data) := by
  induction n with
  | zero => rfl
  | succ n ih => rw [writeBytes_succ, ih, writeBytes_succ]; rfl

theorem writeBytes_stage (vs : List Write) (s : State) (base n : Nat) (data : Bytes) :
    writeBytes (stage vs s) base n data = stage vs (writeBytes s base n data) := by
  induction n with
  | zero => rfl
  | succ n ih => rw [writeBytes_succ, ih, writeBytes_succ]; rfl

/-- Staged writes and the end of a command touch different fields. -/
theorem applyWrites_finish (s : State) (ws : List Write) : applyWrites (finish s) ws = finish (applyWrites s ws) := by
  induction ws generalizing s with
  | nil => rfl
  | cons w ws ih =>
    have hstep : applyWrite (finish s) w = finish (applyWrite s w) := by
      cases w with
      | sk | msg | bita | bitb | mn => exact writeBytes_finish ..
      | sklen | msglen | bitalen | bitblen | idx | mnCount | arg | eqFlag => rfl
    rw [applyWrites_cons, hstep, ih, applyWrites_cons]

theorem applyWrites_stage (vs : List Write) (s : State) (ws : List Write) :
    applyWrites (stage vs s) ws = stage vs (applyWrites s ws) := by
  induction ws generalizing s with
  | nil => rfl
  | cons w ws ih =>
    have hstep : applyWrite (stage vs s) w = stage vs (applyWrite s w) := by
      cases w with
      | sk | msg | bita | bitb | mn => exact writeBytes_stage ..
      | sklen | msglen | bitalen | bitblen | idx | mnCount | arg | eqFlag => rfl
    rw [applyWrites_cons, hstep, ih, applyWrites_cons]

/-- A successful command leaves its writes applied and the engine idle (R124). -/
theorem complete_stage_eq_finish (ws : List Write) (s : State) :
    complete (stage ws s) = finish (applyWrites s ws) := by
  rw [complete_stage, applyWrites_stage]
  rfl

/-- Two commands committed one after the other leave what one command with both their writes leaves. -/
theorem complete_stage_complete_stage (ws vs : List Write) (s : State) :
    complete (stage vs (complete (stage ws s))) = complete (stage (ws ++ vs) s) := by
  simp only [complete_stage_eq_finish, applyWrites_finish, applyWrites_append]
  rfl

theorem wlCount_complete_stage (ws : List Write) (s : State) : (complete (stage ws s)).wlCount = s.wlCount := by
  rw [complete_stage_eq_finish, finish_wlCount, applyWrites_wlCount]

theorem err_complete_stage (ws : List Write) (s : State) : (complete (stage ws s)).err = s.err := by
  rw [complete_stage_eq_finish, finish_err, applyWrites_err]

theorem wf_complete_stage (ws : List Write) {s : State} (h : s.mem.wf = true) :
    (complete (stage ws s)).mem.wf = true := wf_complete (stage ws s) h

theorem isLut_lutBase {i j : Nat} (hi : i < 2048) (hj : j < 32) : isLut (lutBase i + j) = true := by
  have hrange : 0x10000 ≤ lutBase i + j ∧ lutBase i + j < 0x20000 := by rw [lutBase]; omega
  simp only [isLut, hrange, decide_true, Bool.and_self]

theorem byteAt_complete_stage_lut (s : State) (ws : List Write) {i j : Nat} (hi : i < 2048) (hj : j < 32) :
    byteAt (complete (stage ws s)) (lutBase i + j) = byteAt s (lutBase i + j) :=
  byteAt_complete_lut _ (isLut_lutBase hi hj)

/-! ### BITA, IDX, MN and a slot after the writes the codec stages -/

/-- The commit of `PackA(b)` (R74). -/
def commitBits (b : Bits) (s : State) : State := complete (stage (packA b) s)

/-- The commit of the 24 index registers (R91, R94). -/
def commitIndices (f : Fin 24 → Nat) (s : State) : State := complete (stage (idxWrites f) s)

/-- The commit of the 24 words that stand at the positions f (R92). -/
def commitWords (f : Fin 24 → Nat) (s : State) : State := complete (stage (wordWrites s f) s)

/-- The commit of 32 bytes of entropy in a slot (R96). -/
def commitEntropy (dst : Slot) (e : Bytes) (s : State) : State := complete (stage (entropyWrites dst e) s)

theorem length_skb_of_eq {s : State} {src : Slot} (h : (sklenAt s src).toNat = 32) : (skb s src).length = 32 :=
  (length_skb s src (by omega)).trans h

theorem packedBits_take (s : State) (base : Nat) {n m : Nat} (h : n ≤ m) :
    (packedBits s base m).take n = packedBits s base n := by
  rw [packedBits, ← List.map_take, List.take_range, Nat.min_eq_left h, packedBits]

theorem bitsA_of_bitaWritten {s t : State} {b : Bits} (h : BitaWritten s t b) (hb : b.length ≤ 512) : bitsA t = b := by
  rw [bitsA, h.length, ← packedBits_take t bitaBase hb, h.bits, List.take_left]

theorem bitsA_commitBits {b : Bits} (s : State) (hb : b.length ≤ 512) : bitsA (commitBits b s) = b :=
  bitsA_of_bitaWritten (bitaWritten_packA s hb) hb

theorem exists_commitBits_eq {b : Bits} (s : State) (hb : b.length ≤ 512) :
    ∃ m, commitBits b s = { finish s with bitalen := BitVec.ofNat 10 b.length, mem := m } :=
  ⟨_, (bitaWritten_packA s hb).registers⟩

theorem toNat_bitalen_commitBits {b : Bits} (s : State) (hb : b.length ≤ 512) :
    (commitBits b s).bitalen.toNat = b.length := (bitaWritten_packA s hb).length

theorem packedBits_commitBits {b : Bits} (s : State) (hb : b.length ≤ 512) :
    packedBits (commitBits b s) bitaBase 512 = b ++ zeroBits (512 - b.length) := (bitaWritten_packA s hb).bits

theorem byteAt_commitBits_of_not_bita {b : Bits} (s : State) (hb : b.length ≤ 512) {a : Nat}
    (ha : ¬(0x200 ≤ a ∧ a < 0x240)) : byteAt (commitBits b s) a = byteAt s a :=
  (bitaWritten_packA s hb).others a ha

theorem idxAt_commitBits {b : Bits} (s : State) (hb : b.length ≤ 512) (k : Fin 24) :
    idxAt (commitBits b s) k = idxAt s k := by
  obtain ⟨m, hm⟩ := exists_commitBits_eq s hb
  rw [hm]
  rfl

theorem commitIndices_eq (f : Fin 24 → Nat) (s : State) :
    commitIndices f s = { finish s with idx := Vector.ofFn fun k => BitVec.ofNat 16 (f k) } := by
  rw [commitIndices, complete_stage_eq_finish, idxWrites, applyWrites_idx_all]
  rfl

theorem commitIndices_registers (f : Fin 24 → Nat) (s : State) :
    commitIndices f s = { finish s with idx := (commitIndices f s).idx } := by rw [commitIndices_eq]

theorem byteAt_commitIndices (f : Fin 24 → Nat) (s : State) (a : Nat) : byteAt (commitIndices f s) a = byteAt s a := by
  rw [commitIndices_eq]
  exact byteAt_congr rfl rfl a

theorem toNat_idxAt_commitIndices {f : Fin 24 → Nat} (hf : ∀ k, f k < 2048) (s : State) (k : Fin 24) :
    (idxAt (commitIndices f s) k).toNat = f k := by
  rw [commitIndices_eq, idxAt, Vector.getElem_ofFn, BitVec.toNat_ofNat]
  exact Nat.mod_eq_of_lt ((hf k).trans (by omega))

theorem exists_applyWrites_mn_eq (l : List (Fin 24)) (e : Fin 24 → Bytes) (s : State) :
    ∃ m, applyWrites s (l.map fun k => .mn k (e k)) = { s with mem := m } := by
  induction l generalizing s with
  | nil => exact ⟨s.mem, rfl⟩
  | cons k l ih =>
    obtain ⟨m, hm⟩ := ih (applyWrite s (.mn k (e k)))
    refine ⟨m, ?_⟩
    rw [List.map_cons, applyWrites_cons, hm, applyWrite, writeBytes_eq]

theorem exists_commitWords_eq (f : Fin 24 → Nat) (s : State) :
    ∃ m, commitWords f s = { finish s with mnCount := 24#5, mem := m } := by
  obtain ⟨m, hm⟩ := exists_applyWrites_mn_eq (List.finRange 24) (fun k => entryAt s (lutBase (f k))) s
  refine ⟨m, ?_⟩
  rw [commitWords, complete_stage_eq_finish, wordWrites, applyWrites_append, hm]
  rfl

theorem commitWords_registers (f : Fin 24 → Nat) (s : State) :
    commitWords f s = { finish s with mnCount := 24#5, mem := (commitWords f s).mem } := by
  obtain ⟨m, hm⟩ := exists_commitWords_eq f s
  rw [hm]

theorem idxAt_commitWords (f : Fin 24 → Nat) (s : State) (k : Fin 24) : idxAt (commitWords f s) k = idxAt s k := by
  rw [commitWords_registers]
  rfl

theorem mnCount_commitWords (f : Fin 24 → Nat) (s : State) : (commitWords f s).mnCount = 24#5 := by
  rw [commitWords_registers]

/-- A byte of `MN[k]` is the entry's byte, cut to the bits a LEN byte has (R39). -/
theorem byteAt_commitWords_mn (f : Fin 24 → Nat) (s : State) (k : Fin 24) {j : Nat} (hj : j < 32) :
    byteAt (commitWords f s) (mnBase k.val + j) = byteAt s (lutBase (f k) + j) &&& byteMask (mnBase k.val + j) := by
  have hcount : ∀ u : State, byteAt (applyWrites u [.mnCount 24#5]) (mnBase k.val + j) = byteAt u (mnBase k.val + j) :=
    fun u => byteAt_congr rfl rfl _
  have hentry : (entryAt s (lutBase (f k))).getD j 0#8 = byteAt s (lutBase (f k) + j) := getD_readBytes s _ _ j hj
  rw [commitWords, complete_stage_eq_finish, byteAt_finish, wordWrites, applyWrites_append, hcount,
    byteAt_applyWrites_mn _ _ _ _ _ hj, if_pos (List.mem_finRange k), hentry]

theorem isLenByte_iff (a : Nat) :
    isLenByte a = true ↔ ((0x800 ≤ a ∧ a < 0xB00) ∨ (0x10000 ≤ a ∧ a < 0x20000)) ∧ a % 32 = 0 := by
  simp only [isLenByte, isLut, Bool.and_eq_true, Bool.or_eq_true, decide_eq_true_eq]

/-- Byte j of a word entry has the same bits in MN and in the LUT: byte 0 is LEN in both (R39). -/
theorem byteMask_mn_eq_lut (k : Fin 24) {i j : Nat} (hi : i < 2048) (hj : j < 32) :
    byteMask (mnBase k.val + j) = byteMask (lutBase i + j) := by
  have hlen : isLenByte (mnBase k.val + j) = isLenByte (lutBase i + j) := by
    rw [Bool.eq_iff_iff, isLenByte_iff, isLenByte_iff, mnBase, lutBase]
    omega
  rw [byteMask, byteMask, hlen]

/-- In a memory in canonical form a LEN byte has no bit to lose, so MN holds the entry's bytes themselves. -/
theorem byteAt_commitWords_mn_of_wf {s : State} (hwf : s.mem.wf = true) {f : Fin 24 → Nat} (hf : ∀ k, f k < 2048)
    (k : Fin 24) {j : Nat} (hj : j < 32) :
    byteAt (commitWords f s) (mnBase k.val + j) = byteAt s (lutBase (f k) + j) := by
  rw [byteAt_commitWords_mn f s k hj, byteMask_mn_eq_lut k (hf k) hj, byteAt_and_byteMask s hwf]

theorem byteAt_commitWords_of_not_mn (f : Fin 24 → Nat) (s : State) {a : Nat} (ha : ¬(0x800 ≤ a ∧ a < 0xB00)) :
    byteAt (commitWords f s) a = byteAt s a := by
  rw [commitWords, complete_stage_eq_finish, byteAt_finish, byteAt_applyWrites_of_not_mem]
  intro w hw
  rcases List.mem_append.1 hw with hw | hw
  · obtain ⟨k, -, rfl⟩ := List.mem_map.1 hw
    simp only [Write.range, mnBase]
    omega
  · rw [List.mem_singleton.1 hw]
    simp only [Write.range]
    omega

/-- A value of 64 bytes and its length in a slot, committed (R38, R124). -/
theorem slotWritten_pair (s : State) (dst : Slot) {v : Bytes} (hv : v.length = 64) (n : BitVec 7) :
    SlotWritten s (complete (stage [.sk dst v, .sklen dst n] s)) dst v n where
  registers := by
    rw [complete_stage_eq_finish]
    simp only [applyWrites_cons, applyWrites_nil, applyWrite]
    rw [writeBytes_eq]
    rfl
  slot := readBytes_complete_pair s (.sk dst v) rfl (by simp only [Write.range, skBase]; omega) hv
  others a ha := by
    rw [byteAt_complete_pair s _ rfl]
    exact if_neg ha

theorem skb_of_slotWritten {s t : State} {dst : Slot} {v : Bytes} {n : BitVec 7} (h : SlotWritten s t dst v n) :
    skb t dst = v.take n.toNat := by
  have hlen : sklenAt t dst = n := by rw [h.registers, sklenAt]; exact Vector.getElem_set_self _
  rw [skb, h.slot, hlen]

theorem idxAt_of_slotWritten {s t : State} {dst : Slot} {v : Bytes} {n : BitVec 7} (h : SlotWritten s t dst v n)
    (k : Fin 24) : idxAt t k = idxAt s k := by
  rw [h.registers]
  rfl

theorem slotWritten_commitEntropy (s : State) (dst : Slot) {e : Bytes} (he : e.length = 32) :
    SlotWritten s (commitEntropy dst e s) dst (e ++ zeros 32) 32#7 :=
  slotWritten_pair s dst (by rw [List.length_append, he, length_zeros]) _

theorem exists_commitEntropy_eq (s : State) (dst : Slot) {e : Bytes} (he : e.length = 32) :
    ∃ m, commitEntropy dst e s = { finish s with sklen := s.sklen.set dst.val 32#7, mem := m } :=
  ⟨_, (slotWritten_commitEntropy s dst he).registers⟩

theorem skb_commitEntropy (s : State) (dst : Slot) {e : Bytes} (he : e.length = 32) :
    skb (commitEntropy dst e s) dst = e :=
  (skb_of_slotWritten (slotWritten_commitEntropy s dst he)).trans (List.take_left' he)

/-! ### Command words with slot operands (R64, R70) -/

theorem assemble_slots (o : Opcode) (dst src : Slot) : assemble o dst src 0#9 =
    o.code.setWidth 32 ||| BitVec.ofNat 32 src.val <<< 12 ||| BitVec.ofNat 32 dst.val <<< 8 := by
  have haux : (0#9).setWidth 32 <<< 16 = 0#32 := by decide
  rw [assemble, haux, BitVec.zero_or, BitVec.or_comm, BitVec.or_assoc]

theorem assemble_src (o : Opcode) (src : Slot) :
    assemble o 0 src 0#9 = o.code.setWidth 32 ||| BitVec.ofNat 32 src.val <<< 12 := by
  have hdst : BitVec.ofNat 32 (0 : Slot).val <<< 8 = 0#32 := by decide
  rw [assemble_slots, hdst, BitVec.or_zero]

theorem assemble_dst (o : Opcode) (dst : Slot) :
    assemble o dst 0 0#9 = o.code.setWidth 32 ||| BitVec.ofNat 32 dst.val <<< 8 := by
  have hsrc : BitVec.ofNat 32 (0 : Slot).val <<< 12 = 0#32 := by decide
  rw [assemble_slots, hsrc, BitVec.or_zero]

/-! ### Checksummed bit strings (R86, R96) -/

/-- The entropy part of a mnemonic's bits: the bytes of their first 256 (R96). -/
def entropyOf (b : Bits) : Bytes := bitsToBytes (b.take 256)

/-- The last 8 of a mnemonic's bits are the checksum of its entropy (R96). -/
def ChecksumHolds (b : Bits) : Prop := checksum (entropyOf b) 8 = b.drop 256

theorem length_entropyOf {b : Bits} (hb : b.length = 264) : (entropyOf b).length = 32 := by
  rw [entropyOf, length_bitsToBytes, List.length_take, hb]
  rfl

theorem length_mnBits {e : Bytes} (he : e.length = 32) : (mnBits e).length = 264 := by
  rw [mnBits, List.length_append, length_bytesToBits, he, length_checksum e (by decide)]
  rfl

theorem entropyOf_mnBits {e : Bytes} (he : e.length = 32) : entropyOf (mnBits e) = e := by
  have hlen : (bytesToBits e).length = 256 := by rw [length_bytesToBits, he]
  rw [entropyOf, mnBits, List.take_left' hlen, bitsToBytes_bytesToBits]

theorem checksumHolds_mnBits {e : Bytes} (he : e.length = 32) : ChecksumHolds (mnBits e) := by
  have hlen : (bytesToBits e).length = 256 := by rw [length_bytesToBits, he]
  rw [ChecksumHolds, entropyOf_mnBits he, mnBits, List.drop_left' hlen]
  rfl

/-- Where the checksum holds, the bits are those of their entropy. -/
theorem mnBits_entropyOf {b : Bits} (hb : b.length = 264) (h : ChecksumHolds b) : mnBits (entropyOf b) = b := by
  have hlen : (b.take 256).length = 8 * 32 := by rw [List.length_take, hb]; rfl
  have hbits : bytesToBits (entropyOf b) = b.take 256 := bytesToBits_bitsToBytes hlen
  calc bytesToBits (entropyOf b) ++ checksum (entropyOf b) 8
      = b.take 256 ++ b.drop 256 := by rw [hbits, h]
    _ = b := List.take_append_drop 256 b

theorem byteBits_inj {x y : Byte} : byteBits x = byteBits y ↔ x = y :=
  ⟨fun h => by rw [← ofNat_uint_byteBits x, h, ofNat_uint_byteBits], congrArg byteBits⟩

/-- The first 8 bits of the hash are its first byte. -/
theorem checksum_eight (b : Bytes) : checksum b 8 = byteBits ((sha256 b).getD 0 0#8) := by
  have hlen := length_sha256 b
  rw [checksum]
  cases hb : sha256 b with
  | nil => rw [hb] at hlen; cases hlen
  | cons x r => rw [bytesToBits_cons, List.take_left' (length_byteBits x), List.getD_cons_zero]

/-! ### What each command of the codec stages where nothing is wrong -/

section Exec
variable {s : State} {dst src : Slot} {f : Fin 24 → Nat}

theorem exec_ent2bits (h : (sklenAt s src).toNat = 32) :
    exec (.ent2bits src) s = .next (stage (packA (mnBits (skb s src))) s) := if_neg (not_not.2 h)

theorem exec_bits2idx (h : s.bitalen.toNat = 264) :
    exec .bits2idx s = .next (stage (idxWrites (groupsOf (bitsA s))) s) := if_neg (not_not.2 h)

theorem firstBadIndex_of_lt (hf : ∀ k, (idxAt s k).toNat = f k) (hlt : ∀ k, f k < 2048) : firstBadIndex s = none :=
  (firstBadIndex_eq_none s).2 fun k => by rw [hf]; exact Nat.le_of_lt_succ (hlt k)

theorem exec_idx2words (hwl : s.wlCount.toNat = 2048) (hf : ∀ k, (idxAt s k).toNat = f k) (hlt : ∀ k, f k < 2048) :
    exec .idx2words s = .next (stage (wordWrites s f) s) := by
  rw [exec, execIdx2words, if_neg (not_not.2 hwl), firstBadIndex_of_lt hf hlt, funext hf]

theorem exec_encode (hwl : s.wlCount.toNat = 2048) (h : (sklenAt s src).toNat = 32) :
    exec (.encode src) s = .next (stage (packA (mnBits (skb s src)) ++ idxWrites (groupsOf (mnBits (skb s src))) ++
      wordWrites s (groupsOf (mnBits (skb s src)))) s) :=
  (if_neg (not_not.2 hwl)).trans (if_neg (not_not.2 h))

theorem exec_words2idx (hwl : s.wlCount.toNat = 2048) (hmn : s.mnCount.toNat = 24) (hpos : Positions s f) :
    exec .words2idx s = .next (stage (idxWrites f) s) := by
  obtain ⟨hnone, hf⟩ := positions_wordPosition hpos
  rw [exec, execWords2idx, if_neg (not_not.2 hwl), if_neg (not_not.2 hmn), hnone, funext hf]

theorem exec_idx2bits (hf : ∀ k, (idxAt s k).toNat = f k) (hlt : ∀ k, f k < 2048) :
    exec .idx2bits s = .next (stage (packA (phraseBits f)) s) := by
  rw [exec, execIdx2bits, firstBadIndex_of_lt hf hlt, funext hf]
  rfl

theorem exec_bits2ent_of_checksum (h : s.bitalen.toNat = 264) (hsum : ChecksumHolds (bitsA s)) :
    exec (.bits2ent dst) s = .next (stage (entropyWrites dst (entropyOf (bitsA s))) s) :=
  (if_neg (not_not.2 h)).trans (if_pos ((equalBits_iff _ _).2 hsum))

theorem exec_bits2ent_of_mismatch (h : s.bitalen.toNat = 264) (hsum : ¬ChecksumHolds (bitsA s)) :
    exec (.bits2ent dst) s = .next (raise .checksumMismatch 0#32 s) :=
  (if_neg (not_not.2 h)).trans (if_neg fun heq => hsum ((equalBits_iff _ _).1 heq))

/-- DECODE of words that all stand in the LUT: the checksum decides. -/
theorem exec_decode_of_positions (hwl : s.wlCount.toNat = 2048) (hmn : s.mnCount.toNat = 24) (hpos : Positions s f) :
    exec (.decode dst) s =
      if equalBits (checksum (entropyOf (phraseBits f)) 8) ((phraseBits f).drop 256) then
        .next (stage (idxWrites f ++ packA (phraseBits f) ++ entropyWrites dst (entropyOf (phraseBits f))) s)
      else .next (raise .checksumMismatch 0#32 s) := by
  obtain ⟨hnone, hf⟩ := positions_wordPosition hpos
  rw [exec, execDecode, if_neg (not_not.2 hwl), if_neg (not_not.2 hmn), hnone, funext hf]
  rfl

theorem exec_decode_of_checksum (hwl : s.wlCount.toNat = 2048) (hmn : s.mnCount.toNat = 24) (hpos : Positions s f)
    (hsum : ChecksumHolds (phraseBits f)) :
    exec (.decode dst) s =
      .next (stage (idxWrites f ++ packA (phraseBits f) ++ entropyWrites dst (entropyOf (phraseBits f))) s) :=
  (exec_decode_of_positions hwl hmn hpos).trans (if_pos ((equalBits_iff _ _).2 hsum))

theorem exec_decode_of_mismatch (hwl : s.wlCount.toNat = 2048) (hmn : s.mnCount.toNat = 24) (hpos : Positions s f)
    (hsum : ¬ChecksumHolds (phraseBits f)) : exec (.decode dst) s = .next (raise .checksumMismatch 0#32 s) :=
  (exec_decode_of_positions hwl hmn hpos).trans (if_neg fun heq => hsum ((equalBits_iff _ _).1 heq))

end Exec

/-! ### The step commands -/

/-- Settles O40: `PackA` of the 256 bits of the entropy and the first 8 of its hash. -/
theorem ent2bitsResult : Obligations.Ent2bitsResult := by
  intro s src
  refine ⟨fun w => assemble_src .ent2bits src ▸ decode_eq_ok_iff_eq rfl, fun h => if_pos h, fun h => ?_⟩
  have hbits : (mnBits (skb s src)).length = 264 := length_mnBits (length_skb_of_eq h)
  have hwritten := bitaWritten_packA s (b := mnBits (skb s src)) (by omega)
  exact ⟨_, exec_ent2bits h, hwritten, hwritten.length.trans hbits⟩

/-- Settles O41: each group of 11 bits is below 2048, so its 16-bit register holds it whole. -/
theorem bits2idxResult : Obligations.Bits2idxResult := by
  refine ⟨fun w => decode_eq_ok_iff_eq rfl, fun s => ⟨fun h => if_pos h, fun h => ?_⟩⟩
  have hidx := toNat_idxAt_commitIndices (groupsOf_lt (bitsA s)) s
  refine ⟨_, exec_bits2idx h, commitIndices_registers _ s, fun k => ⟨hidx k, ?_⟩⟩
  exact (hidx k).le.trans (Nat.le_of_lt_succ (groupsOf_lt _ k))

/-- Settles O42: with no index out of range, MN holds the LUT's entries byte for byte. -/
theorem idx2wordsResult : Obligations.Idx2wordsResult := by
  refine ⟨fun w => decode_eq_ok_iff_eq rfl, fun s hwf => ⟨fun hwl => if_pos hwl, fun hwl k hk => ?badIndex,
    fun hwl hidx => ?_⟩⟩
  case badIndex =>
    rw [exec, execIdx2words, if_neg (not_not.2 hwl), (firstBadIndex_eq_some s k).2 hk]
  have hlt : ∀ k, (idxAt s k).toNat < 2048 := fun k => Nat.lt_succ_of_le (hidx k)
  exact ⟨_, exec_idx2words hwl (fun _ => rfl) hlt, commitWords_registers _ s,
    fun k j hj => byteAt_commitWords_mn_of_wf hwf hlt k hj, fun a ha => byteAt_commitWords_of_not_mn _ s ha⟩

/-- Settles O44: IDX takes the least positions of the words, and a position is below 2048. -/
theorem words2idxResult : Obligations.Words2idxResult := by
  refine ⟨fun w => decode_eq_ok_iff_eq rfl, fun s => ⟨fun hwl => if_pos hwl, fun hwl hmn => ?count,
    fun hwl hmn k hk => ?absent, fun hwl hmn f hpos => ?_⟩⟩
  case count => exact (if_neg (not_not.2 hwl)).trans (if_pos hmn)
  case absent =>
    rw [exec, execWords2idx, if_neg (not_not.2 hwl), if_neg (not_not.2 hmn), (firstAbsentWord_eq_some s k).2 hk]
  exact ⟨_, exec_words2idx hwl hmn hpos, commitIndices_registers f s, toNat_idxAt_commitIndices (fun k => (hpos k).1) s⟩

/-- Settles O45: `PackA` of the join of 24 numbers, which has 264 bits. -/
theorem idx2bitsResult : Obligations.Idx2bitsResult := by
  refine ⟨fun w => decode_eq_ok_iff_eq rfl, fun s => ⟨fun k hk => ?badIndex, fun hidx => ?_⟩⟩
  case badIndex => rw [exec, execIdx2bits, (firstBadIndex_eq_some s k).2 hk]
  have hlen := length_phraseBits fun k => (idxAt s k).toNat
  have hwritten := bitaWritten_packA s (hlen.le.trans (by decide))
  exact ⟨_, exec_idx2bits (fun _ => rfl) fun k => Nat.lt_succ_of_le (hidx k), hwritten, hwritten.length.trans hlen⟩

/-- A mnemonic's 264 bits in BITA are 32 bytes of entropy and the checksum's byte. -/
theorem bitsA_of_bitalen {s : State} (h : s.bitalen.toNat = 264) :
    bitsA s = bytesToBits (readBytes s bitaBase 32) ++ byteBits (byteAt s (0x200 + 32)) := by
  have hread : readBytes s bitaBase 33 = readBytes s bitaBase 32 ++ [byteAt s (0x200 + 32)] := by
    rw [readBytes, List.range_succ, List.map_append]
    rfl
  have hbits : bitsA s = bytesToBits (readBytes s bitaBase 33) := by
    rw [bitsA, h]
    exact packedBits_eq_bytesToBits s bitaBase 33
  rw [hbits, hread, bytesToBits_append, bytesToBits_cons, bytesToBits_nil, List.append_nil]

theorem entropyOf_bitsA {s : State} (h : s.bitalen.toNat = 264) : entropyOf (bitsA s) = readBytes s bitaBase 32 := by
  rw [entropyOf, bitsA_of_bitalen h, List.take_left' (by simp), bitsToBytes_bytesToBits]

/-- The checksum of BITA read byte by byte: byte 32 is the first byte of the hash of bytes 0 to 31 (R96). -/
theorem checksumHolds_bitsA_iff {s : State} (h : s.bitalen.toNat = 264) :
    ChecksumHolds (bitsA s) ↔ (sha256 (readBytes s bitaBase 32)).getD 0 0#8 = byteAt s (0x200 + 32) := by
  rw [ChecksumHolds, entropyOf_bitsA h, checksum_eight, bitsA_of_bitalen h, List.drop_left' (by simp), byteBits_inj]

/-- Settles O46: the checksum's byte decides, and the slot takes the 32 bytes before it. -/
theorem bits2entResult : Obligations.Bits2entResult := by
  intro s dst
  refine ⟨fun w => assemble_dst .bits2ent dst ▸ decode_eq_ok_iff_eq rfl, fun h => if_pos h,
    fun h hne => exec_bits2ent_of_mismatch h fun hsum => hne ((checksumHolds_bitsA_iff h).1 hsum), fun h heq => ?_⟩
  refine ⟨_, exec_bits2ent_of_checksum h ((checksumHolds_bitsA_iff h).2 heq), ?_⟩
  rw [entropyOf_bitsA h]
  exact slotWritten_commitEntropy s dst (length_readBytes ..)

/-! ### ENCODE as its step commands (R93) -/

theorem wordWrites_complete_stage (s : State) (ws : List Write) {f : Fin 24 → Nat} (hf : ∀ k, f k < 2048) :
    wordWrites (complete (stage ws s)) f = wordWrites s f := by
  have hentry : ∀ k, entryAt (complete (stage ws s)) (lutBase (f k)) = entryAt s (lutBase (f k)) := fun k =>
    readBytes_congr fun j hj => byteAt_complete_stage_lut s ws (hf k) hj
  simp only [wordWrites, hentry]

/-- ENCODE's writes, committed at once, leave what the three step commands' commits leave. -/
theorem complete_encode (s : State) (b : Bits) {f : Fin 24 → Nat} (hf : ∀ k, f k < 2048) :
    complete (stage (packA b ++ idxWrites f ++ wordWrites s f) s) =
      commitWords f (commitIndices f (commitBits b s)) := by
  have htwo : commitIndices f (commitBits b s) = complete (stage (packA b ++ idxWrites f) s) :=
    complete_stage_complete_stage ..
  rw [htwo, commitWords, wordWrites_complete_stage s _ hf, complete_stage_complete_stage]

/-- One state left two ways: the same registers and the same bytes. -/
theorem registers_and_bytes_of_eq {t u : State} (h : t = u) :
    t = { u with mem := t.mem } ∧ ∀ a, byteAt t a = byteAt u a := by
  subst h
  exact ⟨rfl, fun _ => rfl⟩

theorem exec_bits2idx_commitBits {b : Bits} (s : State) (hb : b.length = 264) :
    exec .bits2idx (commitBits b s) = .next (stage (idxWrites (groupsOf b)) (commitBits b s)) := by
  have hexec := exec_bits2idx ((toNat_bitalen_commitBits s (by omega)).trans hb)
  rwa [bitsA_commitBits s (by omega)] at hexec

theorem exec_idx2words_commitIndices {s : State} {f : Fin 24 → Nat} (hwl : s.wlCount.toNat = 2048)
    (hf : ∀ k, f k < 2048) :
    exec .idx2words (commitIndices f s) = .next (stage (wordWrites (commitIndices f s) f) (commitIndices f s)) :=
  exec_idx2words (by rwa [commitIndices, wlCount_complete_stage]) (toNat_idxAt_commitIndices hf s) hf

/-- Settles O56: each step command finds what the one before it committed, and the commits add up to ENCODE's. -/
theorem encodeIsItsStepCommands : Obligations.EncodeIsItsStepCommands := by
  intro s src hwl h
  have hbits : (mnBits (skb s src)).length = 264 := length_mnBits (length_skb_of_eq h)
  have hwl' : (commitBits (mnBits (skb s src)) s).wlCount.toNat = 2048 := by rwa [commitBits, wlCount_complete_stage]
  exact ⟨_, _, _, _, exec_encode hwl h, exec_ent2bits h, exec_bits2idx_commitBits s hbits,
    exec_idx2words_commitIndices hwl' (groupsOf_lt _),
    registers_and_bytes_of_eq (complete_encode s _ (groupsOf_lt _)).symm⟩

theorem commitWords_registers_of_encode (s : State) {b : Bits} (hb : b.length = 264) (f : Fin 24 → Nat) :
    commitWords f (commitIndices f (commitBits b s)) =
      { finish s with
        bitalen := 264#10, idx := (commitWords f (commitIndices f (commitBits b s))).idx, mnCount := 24#5
        mem := (commitWords f (commitIndices f (commitBits b s))).mem } := by
  obtain ⟨m, hm⟩ := exists_commitBits_eq s (b := b) (by omega)
  obtain ⟨m', hm'⟩ := exists_commitWords_eq f (commitIndices f (commitBits b s))
  rw [hm', commitIndices_eq, hm, hb]
  rfl

/-- Settles O43: what the three step commands' commits leave, each seen through the ones after it. -/
theorem encodeResult : Obligations.EncodeResult := by
  intro s src hwf
  refine ⟨fun w => assemble_src .encode src ▸ decode_eq_ok_iff_eq rfl, fun hwl => if_pos hwl,
    fun hwl h => (if_neg (not_not.2 hwl)).trans (if_pos h), fun hwl h => ⟨_, exec_encode hwl h, ?_⟩⟩
  have hbits : (mnBits (skb s src)).length = 264 := length_mnBits (length_skb_of_eq h)
  generalize mnBits (skb s src) = b at hbits ⊢
  rw [complete_encode s b (groupsOf_lt b)]
  refine ⟨commitWords_registers_of_encode s hbits _, ?bita, fun k => ?idx, fun k j hj => ?mn, fun a hA hM => ?others⟩
  case bita =>
    have hkept : packedBits (commitWords (groupsOf b) (commitIndices (groupsOf b) (commitBits b s))) bitaBase 512 =
        packedBits (commitBits b s) bitaBase 512 := packedBits_congr fun i hi => by
      rw [byteAt_commitWords_of_not_mn _ _ (by rw [bitaBase]; omega), byteAt_commitIndices]
    rw [hkept, packedBits_commitBits s (by omega), hbits]
  case idx => rw [idxAt_commitWords, toNat_idxAt_commitIndices (groupsOf_lt b), groupsOf]
  case mn =>
    have hwf' := wf_complete_stage (idxWrites (groupsOf b)) (wf_complete_stage (packA b) hwf)
    refine (byteAt_commitWords_mn_of_wf hwf' (groupsOf_lt b) k hj).trans ?_
    rw [byteAt_complete_stage_lut _ _ (groupsOf_lt b k) hj, byteAt_complete_stage_lut _ _ (groupsOf_lt b k) hj]
    rfl
  case others =>
    rw [byteAt_commitWords_of_not_mn _ _ hM, byteAt_commitIndices, byteAt_commitBits_of_not_bita s (by omega) hA]

/-! ### DECODE as its step commands (R97) -/

/-- DECODE's writes, committed at once, leave what the three step commands' commits leave. -/
theorem complete_decode (s : State) (dst : Slot) (f : Fin 24 → Nat) (b : Bits) (e : Bytes) :
    complete (stage (idxWrites f ++ packA b ++ entropyWrites dst e) s) =
      commitEntropy dst e (commitBits b (commitIndices f s)) := by
  rw [commitEntropy, commitBits, commitIndices, complete_stage_complete_stage, complete_stage_complete_stage,
    List.append_assoc]

theorem exec_idx2bits_commitIndices {f : Fin 24 → Nat} (s : State) (hf : ∀ k, f k < 2048) :
    exec .idx2bits (commitIndices f s) = .next (stage (packA (phraseBits f)) (commitIndices f s)) :=
  exec_idx2bits (toNat_idxAt_commitIndices hf s) hf

theorem exec_bits2ent_commitBits {b : Bits} (s : State) (dst : Slot) (hb : b.length = 264) (hsum : ChecksumHolds b) :
    exec (.bits2ent dst) (commitBits b s) = .next (stage (entropyWrites dst (entropyOf b)) (commitBits b s)) := by
  have hA : bitsA (commitBits b s) = b := bitsA_commitBits s (by omega)
  have hexec := exec_bits2ent_of_checksum (dst := dst) ((toNat_bitalen_commitBits s (by omega)).trans hb)
    (hA.symm ▸ hsum)
  rwa [hA] at hexec

/-- Settles O57: each step command finds what the one before it committed, and the commits add up to DECODE's. -/
theorem decodeIsItsStepCommands : Obligations.DecodeIsItsStepCommands := by
  intro s dst f hwl hmn hpos hsum
  have hf : ∀ k, f k < 2048 := fun k => (hpos k).1
  exact ⟨_, _, _, _, exec_decode_of_checksum hwl hmn hpos hsum, exec_words2idx hwl hmn hpos,
    exec_idx2bits_commitIndices s hf, exec_bits2ent_commitBits _ dst (length_phraseBits f) hsum,
    registers_and_bytes_of_eq (complete_decode s dst f _ _).symm⟩

theorem commitEntropy_registers_of_decode (s : State) (dst : Slot) {f : Fin 24 → Nat} {b : Bits} {e : Bytes}
    (hb : b.length = 264) (he : e.length = 32) :
    commitEntropy dst e (commitBits b (commitIndices f s)) =
      { finish s with
        bitalen := 264#10, idx := (commitEntropy dst e (commitBits b (commitIndices f s))).idx
        sklen := s.sklen.set dst.val 32#7, mem := (commitEntropy dst e (commitBits b (commitIndices f s))).mem } := by
  obtain ⟨m, hm⟩ := exists_commitBits_eq (commitIndices f s) (b := b) (by omega)
  obtain ⟨m', hm'⟩ := exists_commitEntropy_eq (commitBits b (commitIndices f s)) dst he
  rw [hm', hm, commitIndices_eq, hb]
  rfl

/-- Settles O47: what the three step commands' commits leave, each seen through the ones after it. -/
theorem decodeResult : Obligations.DecodeResult := by
  intro s dst
  refine ⟨fun w => assemble_dst .decode dst ▸ decode_eq_ok_iff_eq rfl, fun hwl => if_pos hwl,
    fun hwl hmn => (if_neg (not_not.2 hwl)).trans (if_pos hmn), fun hwl hmn k hk => ?absent,
    fun hwl hmn f hpos => ⟨exec_decode_of_mismatch hwl hmn hpos,
      fun hsum => ⟨_, exec_decode_of_checksum hwl hmn hpos hsum, ?_⟩⟩⟩
  case absent =>
    rw [exec, execDecode, if_neg (not_not.2 hwl), if_neg (not_not.2 hmn), (firstAbsentWord_eq_some s k).2 hk]
  have hf : ∀ k, f k < 2048 := fun k => (hpos k).1
  have hbits := length_phraseBits f
  have hslot := slotWritten_commitEntropy (commitBits (phraseBits f) (commitIndices f s)) dst (length_entropyOf hbits)
  rw [complete_decode]
  refine ⟨commitEntropy_registers_of_decode s dst hbits (length_entropyOf hbits), fun k => ?idx, ?bita, hslot.slot,
    fun a hA hS => ?others⟩
  case idx => rw [idxAt_of_slotWritten hslot, idxAt_commitBits _ (by omega), toNat_idxAt_commitIndices hf]
  case bita =>
    have hkept : packedBits (commitEntropy dst (entropyOf (phraseBits f))
        (commitBits (phraseBits f) (commitIndices f s))) bitaBase 512 =
          packedBits (commitBits (phraseBits f) (commitIndices f s)) bitaBase 512 :=
      packedBits_congr fun i hi => hslot.others _ (by rw [bitaBase, skBase]; omega)
    rw [hkept, packedBits_commitBits _ (by omega), hbits]
    rfl
  case others => rw [hslot.others a hS, byteAt_commitBits_of_not_bita _ (by omega) hA, byteAt_commitIndices]

/-! ### Mnemonics and their entropy (R97, R98) -/

/-- DECODE of words that stand in the LUT and whose checksum holds gives their entropy and reports no error. -/
theorem decode_entropy {s : State} (dst : Slot) {f : Fin 24 → Nat} (hwl : s.wlCount.toNat = 2048)
    (hmn : s.mnCount.toNat = 24) (hpos : Positions s f) (hsum : ChecksumHolds (phraseBits f)) :
    ∃ t, exec (.decode dst) s = .next t ∧ (complete t).err = s.err ∧
      skb (complete t) dst = entropyOf (phraseBits f) := by
  refine ⟨_, exec_decode_of_checksum hwl hmn hpos hsum, err_complete_stage _ s, ?_⟩
  rw [complete_decode, skb_commitEntropy _ dst (length_entropyOf (length_phraseBits f))]

/-- Settles O59: the checksum makes the bits those of their entropy, and the bits give the positions back. -/
theorem substitutedWordsDecodeDifferently : Obligations.SubstitutedWordsDecodeDifferently := by
  intro s u dst f g hwl hmn hpos hwl' hmn' hpos' hdiff hsum hsum'
  obtain ⟨t, ht, -, hskb⟩ := decode_entropy dst hwl hmn hpos hsum
  obtain ⟨v, hv, -, hskb'⟩ := decode_entropy dst hwl' hmn' hpos' hsum'
  refine ⟨t, v, ht, hv, fun hsame => ?_⟩
  have hentropy : entropyOf (phraseBits f) = entropyOf (phraseBits g) := by rw [← hskb, hsame, hskb']
  have hbits : phraseBits f = phraseBits g := by
    rw [← mnBits_entropyOf (length_phraseBits f) hsum, hentropy, mnBits_entropyOf (length_phraseBits g) hsum']
  obtain ⟨k, hk⟩ := hdiff
  exact hk (congrFun (eq_of_phraseBits_eq (fun k => (hpos k).1) (fun k => (hpos' k).1) hbits) k)

/-- A word is read from its LEN's low five bits and the bytes they count (R39). -/
theorem wordAt_congr {s t : State} {base base' : Nat}
    (hlen : (byteAt t base').toNat % 32 = (byteAt s base).toNat % 32)
    (hchars : ∀ j, 1 ≤ j → j < 32 → byteAt t (base' + j) = byteAt s (base + j)) : wordAt t base' = wordAt s base := by
  rw [wordAt, wordAt, hlen]
  refine List.map_congr_left fun i hi => ?_
  have hi' := List.mem_range.1 hi
  rw [Nat.add_assoc, Nat.add_assoc]
  exact hchars (1 + i) (by omega) (by omega)

theorem lutWord_complete_stage (s : State) (ws : List Write) {j : Nat} (hj : j < 2048) :
    lutWord (complete (stage ws s)) j = lutWord s j :=
  wordAt_congr (by rw [← Nat.add_zero (lutBase j), byteAt_complete_stage_lut s ws hj (by omega)])
    fun i _ hi => byteAt_complete_stage_lut s ws hj hi

/-- The word that stands in MN after the commit is the LUT's, whatever reserved bits its LEN byte had. -/
theorem mnWord_commitWords (f : Fin 24 → Nat) (s : State) (k : Fin 24) :
    mnWord (commitWords f s) k.val = lutWord s (f k) := by
  refine wordAt_congr ?_ fun j h1 hj => ?_
  · have hmask : byteMask (mnBase k.val + 0) = 0x1F#8 := by
      have hlen := (isLenByte_iff (mnBase k.val + 0)).2 (by rw [mnBase]; omega)
      rw [byteMask, if_pos hlen]
    rw [← Nat.add_zero (mnBase k.val), byteAt_commitWords_mn f s k (by omega), hmask, BitVec.toNat_and]
    exact (congrArg (· % 32) (Nat.and_two_pow_sub_one_eq_mod _ 5)).trans (Nat.mod_mod _ _)
  · have hmask : byteMask (mnBase k.val + j) = 0xFF#8 := by
      have hlen := mt (isLenByte_iff (mnBase k.val + j)).1 (by rw [mnBase]; omega)
      rw [byteMask, if_neg hlen]
    rw [byteAt_commitWords_mn f s k hj, hmask]
    exact BitVec.and_allOnes

/-- Among distinct words each stands at one position, so the words written from the LUT are found where they came
from. -/
theorem positions_commitWords {s : State} (hdistinct : ∀ i j, i < 2048 → j < 2048 → lutWord s i = lutWord s j → i = j)
    {f : Fin 24 → Nat} (hf : ∀ k, f k < 2048) : Positions (commitWords f s) f := by
  intro k
  rw [mnWord_commitWords]
  refine ⟨hf k, lutWord_complete_stage s _ (hf k), fun j hj hsame => ?_⟩
  have hj' : j < 2048 := hj.trans (hf k)
  rw [commitWords, lutWord_complete_stage s _ hj'] at hsame
  exact hj.ne (hdistinct j (f k) hj' (hf k) hsame)

/-- ENCODE reports no error and leaves 24 words of the word list, which number the entropy's groups. -/
theorem encode_phrase {s : State} {src : Slot} (hwl : s.wlCount.toNat = 2048) (h : (sklenAt s src).toNat = 32)
    (hdistinct : ∀ i j, i < 2048 → j < 2048 → lutWord s i = lutWord s j → i = j) :
    ∃ t, exec (.encode src) s = .next t ∧ (complete t).wlCount.toNat = 2048 ∧ (complete t).mnCount.toNat = 24 ∧
      (complete t).err = s.err ∧ Positions (complete t) (groupsOf (mnBits (skb s src))) := by
  refine ⟨_, exec_encode hwl h, by rwa [wlCount_complete_stage], ?_, err_complete_stage _ s, ?_⟩ <;>
    rw [complete_encode s _ (groupsOf_lt _)]
  · rw [mnCount_commitWords]
    rfl
  · refine positions_commitWords (fun i j hi hj hsame => hdistinct i j hi hj ?_) (groupsOf_lt _)
    rwa [commitIndices, lutWord_complete_stage _ _ hi, lutWord_complete_stage _ _ hj, commitBits,
      lutWord_complete_stage _ _ hi, lutWord_complete_stage _ _ hj] at hsame

/-- Settles O58: DECODE finds ENCODE's words where they came from, so their bits are the entropy and its checksum. -/
theorem decodeInvertsEncode : Obligations.DecodeInvertsEncode := by
  intro s src dst hwl h hdistinct
  have hskb := length_skb_of_eq h
  obtain ⟨t, ht, hwl', hmn, herr, hpos⟩ := encode_phrase hwl h hdistinct
  have hphrase : phraseBits (groupsOf (mnBits (skb s src))) = mnBits (skb s src) :=
    phraseBits_groupsOf (length_mnBits hskb)
  have hsum : ChecksumHolds (phraseBits (groupsOf (mnBits (skb s src)))) := by
    rw [hphrase]
    exact checksumHolds_mnBits hskb
  obtain ⟨u, hu, herr', hentropy⟩ := decode_entropy dst hwl' hmn hpos hsum
  exact ⟨t, u, ht, hu, herr'.trans herr, by rw [hentropy, hphrase, entropyOf_mnBits hskb]⟩

end Sys2Proof.Machine

namespace Sys2Proof.Machine
open Sys2Proof

/-! SUPPORT and PROOFS. The PRF command (R99, R101): a PRF value committed to a slot, the two capacity checks, and what
PRF stages when both pass. -/

/-- A PRF value fills the slot, and its length there is 64 (R38, R99, R124). -/
theorem slotWritten_prf (s : State) (dst : Slot) (k x : Bytes) :
    SlotWritten s (complete (stage (seedWrites dst (prf k x)) s)) dst (prf k x) 64#7 :=
  slotWritten_pair s dst (length_prf k x) _

theorem exec_prf_of_capacity {s : State} {dst src : Slot}
    (h : 64 < (sklenAt s src).toNat ∨ 256 < s.msglen.toNat) :
    exec (.prf dst src) s = .next (raise .bufferCapacity 0#32 s) := by
  rw [exec, execPrf]
  by_cases hkey : 64 < (sklenAt s src).toNat
  · exact if_pos hkey
  · have hmsg : 256 < s.msglen.toNat := h.resolve_left hkey
    rw [if_neg hkey, if_pos hmsg]

theorem exec_prf_of_fits {s : State} {dst src : Slot} (hkey : (sklenAt s src).toNat ≤ 64)
    (hmsg : s.msglen.toNat ≤ 256) :
    exec (.prf dst src) s = .next (stage (seedWrites dst (prf (skb s src) (msgb s))) s) := by
  rw [exec, execPrf, if_neg hkey.not_gt, if_neg hmsg.not_gt]

/-- Settles O48: both capacity checks raise the same error, and past them the slot takes the PRF of the message under
the key as both stood before the command, so that dst may be src. -/
theorem prfResult : Obligations.PrfResult := by
  intro s dst src
  refine ⟨fun w => ?word, exec_prf_of_capacity, fun hkey hmsg => ?value⟩
  case word =>
    rw [decode_eq_ok_iff_eq rfl, encode, assemble_slots]
    rfl
  case value => exact ⟨_, exec_prf_of_fits hkey hmsg, slotWritten_prf s dst (skb s src) (msgb s)⟩

end Sys2Proof.Machine

namespace Sys2Proof.Machine
open Sys2Proof

/-! SUPPORT and PROOFS. The derivation tree (R105 to R111): the index's eight characters, the word of a command with two
slot operands, one seed and a run of seeds committed, what each derivation command leaves, and the tree as a
sequence. -/

/-! ### The index's characters (R106) -/

theorem hexDigit_eq : ∀ n < 16,
    hexDigit n = if n < 10 then BitVec.ofNat 8 (0x30 + n) else BitVec.ofNat 8 (0x57 + n) := by decide

/-- Nibble 7 - j of a word, counted from the least significant one. -/
theorem toNat_extractLsb'_nibble (v : Word) {j : Nat} (hj : j < 8) :
    (v.extractLsb' (28 - 4 * j) 4).toNat = v.toNat / 16 ^ (7 - j) % 16 := by
  have hpow : 2 ^ (28 - 4 * j) = 16 ^ (7 - j) := by
    rw [show 28 - 4 * j = 4 * (7 - j) by omega, Nat.pow_mul]
  rw [BitVec.extractLsb'_toNat, Nat.shiftRight_eq_div_pow, hpow]

@[simp] theorem length_hex8 (v : Word) : (hex8 v).length = 8 := by simp [hex8]

theorem getD_hex8 (v : Word) {j : Nat} (hj : j < 8) :
    (hex8 v).getD j 0#8 = hexDigit (v.toNat / 16 ^ (7 - j) % 16) := by
  rw [← toNat_extractLsb'_nibble v hj]
  simp [hex8, hj]

/-- Settles O34: character j is the digit of nibble 7 - j, and a digit is one of sixteen. -/
theorem indexIsEightHexCharacters : Obligations.IndexIsEightHexCharacters := by
  refine fun v => ⟨length_hex8 v, fun j hj => ?_⟩
  rw [getD_hex8 v hj]
  exact hexDigit_eq _ (Nat.mod_lt _ (by decide))

/-! ### Words with two slot operands (R70) -/

theorem decode_eq_ok_iff_slots {o : Opcode} {dst src : Slot} {i : Instr} (henc : encode i = assemble o dst src 0#9)
    (w : Word) : decode w = .ok i ↔
      WellFormed i ∧ w = o.code.setWidth 32 ||| BitVec.ofNat 32 src.val <<< 12 ||| BitVec.ofNat 32 dst.val <<< 8 := by
  rw [decode_eq_ok_iff_encode, henc, assemble_slots, eq_comm (b := w)]

/-! ### One seed committed (R38, R124) -/

theorem skb_eq_slotBytes {s : State} {i : Slot} (h : (sklenAt s i).toNat = 64) : skb s i = slotBytes s i :=
  List.take_of_length_le (by rw [length_slotBytes, h])

theorem slotBytes_congr {s u : State} {i : Slot}
    (hbytes : ∀ j, j < 64 → byteAt u (skBase i + j) = byteAt s (skBase i + j)) : slotBytes u i = slotBytes s i :=
  readBytes_congr hbytes

theorem skb_congr {s u : State} {i : Slot} (hlen : sklenAt u i = sklenAt s i)
    (hbytes : ∀ j, j < 64 → byteAt u (skBase i + j) = byteAt s (skBase i + j)) : skb u i = skb s i := by
  rw [skb, skb, slotBytes_congr hbytes, hlen]

section SlotWritten
variable {s t : State} {dst : Slot} {v : Bytes} {n : BitVec 7}

theorem sklenAt_of_slotWritten (h : SlotWritten s t dst v n) (k : Slot) :
    sklenAt t k = if k = dst then n else sklenAt s k := by
  rw [h.registers]
  exact sklenAt_applyWrite_sklen s dst k n

theorem slotBytes_of_slotWritten_of_ne (h : SlotWritten s t dst v n) {k : Slot} (hk : k ≠ dst) :
    slotBytes t k = slotBytes s k := by
  have hne : k.val ≠ dst.val := Fin.val_ne_of_ne hk
  exact slotBytes_congr fun j hj => h.others _ (by rw [skBase, skBase]; omega)

theorem arg_of_slotWritten (h : SlotWritten s t dst v n) : t.arg = s.arg := by
  rw [h.registers]
  rfl

end SlotWritten

/-! ### A run of seeds committed (R108, R124) -/

theorem val_slotAfter {dst : Slot} {i : Nat} (h : dst.val + i < 16) : (slotAfter dst i).val = dst.val + i :=
  Nat.mod_eq_of_lt h

theorem eq_slotAfter_iff {dst k : Slot} {i : Nat} (h : dst.val + i < 16) :
    k = slotAfter dst i ↔ k.val = dst.val + i := by
  rw [Fin.ext_iff, val_slotAfter h]

/-- Completed without error, the n slots from dst on were written and nothing else: slot dst + i holds seed i, and its
SKLEN is 64. -/
structure SeedsWritten (s t : State) (dst : Slot) (n : Nat) (seed : Nat → Bytes) : Prop where
  registers : t = { finish s with sklen := t.sklen, mem := t.mem }
  lengths : ∀ k : Slot, sklenAt t k = if dst.val ≤ k.val ∧ k.val < dst.val + n then 64#7 else sklenAt s k
  slots : ∀ k : Slot, dst.val ≤ k.val → k.val < dst.val + n → slotBytes t k = seed (k.val - dst.val)
  others : ∀ a, ¬(skBase dst ≤ a ∧ a < skBase dst + 64 * n) → byteAt t a = byteAt s a

section SeedsWritten
variable {s t u : State} {dst : Slot} {n : Nat} {seed : Nat → Bytes}

theorem slotBytes_of_seedsWritten_of_outside (h : SeedsWritten s t dst n seed) {k : Slot}
    (hk : ¬(dst.val ≤ k.val ∧ k.val < dst.val + n)) : slotBytes t k = slotBytes s k :=
  slotBytes_congr fun j hj => h.others _ (by rw [skBase, skBase]; omega)

theorem slotBytes_slotAfter_of_seedsWritten (h : SeedsWritten s t dst n seed) {i : Nat} (hi : i < n)
    (h16 : dst.val + i < 16) : slotBytes t (slotAfter dst i) = seed i := by
  have hval := val_slotAfter h16
  rw [h.slots _ (by omega) (by omega), hval, Nat.add_sub_cancel_left]

theorem arg_of_seedsWritten (h : SeedsWritten s t dst n seed) : t.arg = s.arg := by
  rw [h.registers]
  rfl

theorem seedsWritten_zero (s : State) (dst : Slot) (seed : Nat → Bytes) : SeedsWritten s (finish s) dst 0 seed where
  registers := rfl
  lengths k := by
    rw [if_neg (by omega)]
    rfl
  slots k hle hlt := by omega
  others a _ := byteAt_finish s a

/-- One more seed, committed in the slot after the run's last one. -/
theorem SeedsWritten.succ (h : SeedsWritten s t dst n seed) (hn : dst.val + n < 16)
    (hlast : SlotWritten t u (slotAfter dst n) (seed n) 64#7) : SeedsWritten s u dst (n + 1) seed where
  registers := by
    rw [hlast.registers, h.registers]
    rfl
  lengths k := by
    rw [sklenAt_of_slotWritten hlast]
    by_cases hk : k = slotAfter dst n
    · have hval := (eq_slotAfter_iff hn).1 hk
      rw [if_pos hk, if_pos (by omega)]
    · have hne := mt (eq_slotAfter_iff hn).2 hk
      rw [if_neg hk, h.lengths]
      exact if_congr (by omega) rfl rfl
  slots k hle hlt := by
    by_cases hk : k = slotAfter dst n
    · rw [hk, hlast.slot, val_slotAfter hn, Nat.add_sub_cancel_left]
    · have hne := mt (eq_slotAfter_iff hn).2 hk
      rw [slotBytes_of_slotWritten_of_ne hlast hk, h.slots k hle (by omega)]
  others a ha := by
    have hbase : skBase (slotAfter dst n) = skBase dst + 64 * n := by rw [skBase, skBase, val_slotAfter hn]; omega
    rw [hlast.others a (by omega), h.others a (by omega)]

/-- A run's writes, committed at once, leave what the seeds' commits leave one after the other. -/
theorem seedsWritten_stage (s : State) (dst : Slot) (hseed : ∀ i, (seed i).length = 64) (hn : dst.val + n ≤ 16) :
    SeedsWritten s (complete (stage ((List.range n).flatMap fun i => seedWrites (slotAfter dst i) (seed i)) s))
      dst n seed := by
  induction n with
  | zero => exact seedsWritten_zero s dst seed
  | succ n ih =>
    rw [List.range_succ, List.flatMap_append, List.flatMap_singleton, ← complete_stage_complete_stage]
    exact (ih (by omega)).succ (by omega) (slotWritten_pair _ _ (hseed n) _)

end SeedsWritten

/-! ### What each derivation command leaves (R107 to R110) -/

section Commands
variable {s : State} {dst src : Slot}

theorem dmaster_writes_slot (hlen : (sklenAt s src).toNat = 32) (hmsg : s.msglen.toNat ≤ 256) :
    ∃ t, exec (.dmaster dst src) s = .next t ∧
      SlotWritten s (complete t) dst (prf (skb s src) (labelMaster ++ msgb s)) 64#7 :=
  ⟨_, (if_neg (not_not.2 hlen)).trans (if_neg hmsg.not_gt), slotWritten_prf ..⟩

theorem dacct_writes_slots (hdst : dst.val ≤ 11) (hlen : (sklenAt s src).toNat = 64) :
    ∃ t, exec (.dacct dst src) s = .next t ∧ SeedsWritten s (complete t) dst 5 (accountSeed (skb s src)) :=
  ⟨_, (if_neg hdst.not_gt).trans (if_neg (not_not.2 hlen)),
    seedsWritten_stage s dst (fun _ => length_prf ..) (by omega)⟩

theorem dprroot_writes_slot (hlen : (sklenAt s src).toNat = 64) :
    ∃ t, exec (.dprroot dst src) s = .next t ∧ SlotWritten s (complete t) dst (prf (skb s src) labelPrRoot) 64#7 :=
  ⟨_, if_neg (not_not.2 hlen), slotWritten_prf ..⟩

theorem dprand_writes_slot (hlen : (sklenAt s src).toNat = 64) :
    ∃ t, exec (.dprand dst src) s = .next t ∧ SlotWritten s (complete t) dst (prf (skb s src) (hex8 s.arg)) 64#7 :=
  ⟨_, if_neg (not_not.2 hlen), slotWritten_prf ..⟩

end Commands

/-- Settles O49: the entropy's length is checked before the message's, and past both the slot takes the PRF of the label
and the message. -/
theorem dmasterResult : Obligations.DmasterResult := by
  intro s dst src
  refine ⟨fun w => (decode_eq_ok_iff_slots (o := .dmaster) rfl w).trans (and_iff_right rfl), fun hlen => if_pos hlen,
    fun hlen hmsg => ?capacity, dmaster_writes_slot⟩
  case capacity => exact (if_neg (not_not.2 hlen)).trans (if_pos hmsg)

/-- Settles O50: the five seeds are computed before the first is committed, and the commits, one slot after the other,
leave them all. -/
theorem dacctResult : Obligations.DacctResult := by
  intro s dst src
  refine ⟨fun w => ?word, fun hdst hlen => ?length, fun hdst hlen => ?seeds⟩
  case word => exact (decode_eq_ok_iff_slots (o := .dacct) rfl w).trans (and_congr_left' decide_eq_true_iff)
  case length => exact (if_neg hdst.not_gt).trans (if_pos hlen)
  case seeds =>
    obtain ⟨t, hexec, hseeds⟩ := dacct_writes_slots (dst := dst) hdst hlen
    refine ⟨t, hexec, hseeds.registers, fun k => ⟨fun ⟨hle, hlt⟩ => ⟨?_, hseeds.slots k hle hlt⟩, fun hk => ?_⟩,
      hseeds.others⟩
    · rw [hseeds.lengths, if_pos ⟨hle, hlt⟩]
    · rw [hseeds.lengths, if_neg hk]

/-- Settles O51: the one error is the master seed's length. -/
theorem dprrootResult : Obligations.DprrootResult := by
  intro s dst src
  exact ⟨fun w => (decode_eq_ok_iff_slots (o := .dprroot) rfl w).trans (and_iff_right rfl), fun hlen => if_pos hlen,
    dprroot_writes_slot⟩

/-- Settles O52: the one error is the root seed's length. -/
theorem dprandResult : Obligations.DprandResult := by
  intro s dst src
  exact ⟨fun w => (decode_eq_ok_iff_slots (o := .dprand) rfl w).trans (and_iff_right rfl), fun hlen => if_pos hlen,
    dprand_writes_slot⟩

/-- Settles O53: the length decides between the error and the PRF value, and the value's key and input are the root seed
and ARG. -/
theorem dprandReadsRootSeedAndArgOnly : Obligations.DprandReadsRootSeedAndArgOnly := by
  intro s u dst src hlen harg hbytes
  by_cases h : (sklenAt s src).toNat = 64
  · have hvalue : prf (skb u src) (hex8 u.arg) = prf (skb s src) (hex8 s.arg) := by rw [skb_congr hlen hbytes, harg]
    refine ⟨_, _, if_neg (not_not.2 h), if_neg (not_not.2 (hlen ▸ h)), ?_⟩
    rw [stage_staged, stage_staged, hvalue]
  · exact ⟨_, _, if_pos h, if_pos (hlen ▸ h), rfl⟩

/-! ### The tree as a command sequence (R111) -/

/-- Settles O60: each command writes slots the later ones keep, so the master seed stays for the two commands that read
it, and the public-random root seed for the last. -/
theorem derivationTreeSequence : Obligations.DerivationTreeSequence := by
  intro s hlen hmsg
  obtain ⟨t1, hexec1, hmaster⟩ := dmaster_writes_slot (dst := 1) hlen hmsg
  have hlen1 : (sklenAt (complete t1) 1).toNat = 64 := by
    rw [sklenAt_of_slotWritten hmaster, if_pos rfl]
    rfl
  obtain ⟨t2, hexec2, hacct⟩ := dacct_writes_slots (dst := 2) (by decide) hlen1
  have hlen2 : (sklenAt (complete t2) 1).toNat = 64 := by
    rw [hacct.lengths, if_neg (by decide), hlen1]
  obtain ⟨t3, hexec3, hroot⟩ := dprroot_writes_slot (dst := 7) hlen2
  have hlen3 : (sklenAt (complete t3) 7).toNat = 64 := by
    rw [sklenAt_of_slotWritten hroot, if_pos rfl]
    rfl
  obtain ⟨t4, hexec4, hrand⟩ := dprand_writes_slot (dst := 8) hlen3
  have harg : (complete t3).arg = s.arg :=
    (arg_of_slotWritten hroot).trans ((arg_of_seedsWritten hacct).trans (arg_of_slotWritten hmaster))
  have hkept : ∀ k : Slot, k ≠ 7 → k ≠ 8 → slotBytes (complete t4) k = slotBytes (complete t2) k := fun k h7 h8 =>
    (slotBytes_of_slotWritten_of_ne hrand h8).trans (slotBytes_of_slotWritten_of_ne hroot h7)
  have hkept1 : slotBytes (complete t2) 1 = slotBytes (complete t1) 1 :=
    slotBytes_of_seedsWritten_of_outside hacct (by decide)
  have hslot1 : slotBytes (complete t4) 1 = slotBytes (complete t2) 1 := hkept 1 (by decide) (by decide)
  have hslot7 : slotBytes (complete t4) 7 = slotBytes (complete t3) 7 :=
    slotBytes_of_slotWritten_of_ne hrand (by decide)
  refine ⟨t1, t2, t3, t4, hexec1, hexec2, hexec3, hexec4, ?master, fun j hj => ?accounts, ?root, ?value⟩
  case master => rw [hslot1, hkept1, hmaster.slot]
  case accounts =>
    have hne : ∀ k : Slot, 7 ≤ k.val → slotAfter 2 j ≠ k := fun k hk heq => by
      have hval := (eq_slotAfter_iff (by omega)).1 heq.symm
      omega
    calc slotBytes (complete t4) (slotAfter 2 j)
        = slotBytes (complete t2) (slotAfter 2 j) := hkept _ (hne 7 (by decide)) (hne 8 (by decide))
      _ = accountSeed (skb (complete t1) 1) j := slotBytes_slotAfter_of_seedsWritten hacct hj (by omega)
      _ = prf (slotBytes (complete t4) 1) (labelsAcct.getD j []) := by
        rw [accountSeed, skb_eq_slotBytes hlen1, hslot1, hkept1]
  case root => rw [hslot7, hroot.slot, hslot1, skb_eq_slotBytes hlen2]
  case value => rw [hrand.slot, hslot7, skb_eq_slotBytes hlen3, harg]

end Sys2Proof.Machine

namespace Sys2Proof.Machine
open Sys2Proof

/-! SUPPORT and PROOFS. GENENT and the CSPRNG port (R112 to R114): the head of the loop, what each kind of answer does to
an outstanding request, and the steps around a request. -/

/-! ### The state during and after an attempt (R42, R113) -/

/-- The state with one more attempt counted and its request outstanding (R113). -/
def State.requested (s : State) : State := { s with attempts := s.attempts + 1, rngPending := true }

/-- The state with one more attempt counted and its request withdrawn, as the end of an attempt finds it (R113). -/
def State.attempted (s : State) : State := { s with attempts := s.attempts + 1, rngPending := false }

theorem attempted_eq {s : State} (hpending : s.rngPending = false) :
    s.attempted = { s with attempts := s.attempts + 1 } := by
  rw [State.attempted, ← hpending]

/-! ### The head of the loop (R113) -/

section Exec
variable {s : State} (dst : Slot)

theorem exec_genent_of_pending (hpending : s.rngPending = true) : exec (.genent dst) s = .next s := if_pos hpending

theorem exec_genent_of_exhausted (hpending : s.rngPending = false) (hlast : s.attempts = 3) :
    exec (.genent dst) s = .next (raise .entropyGeneration 3#32 s) :=
  (if_neg (ne_true_of_eq_false hpending)).trans (if_pos hlast)

theorem exec_genent_requests (hpending : s.rngPending = false) (hlast : s.attempts ≠ 3) :
    exec (.genent dst) s = .next s.requested :=
  (if_neg (ne_true_of_eq_false hpending)).trans (if_neg hlast)

end Exec

/-! ### The end of an attempt (R112 to R114) -/

/-- An answer is `Fail` unless it brings 32 bytes (R112). -/
theorem rngResult_eq_none {r : RngAnswer} (hfail : ∀ b, r ≠ .ok b) : rngResult r = none := by
  cases r with
  | ok b => exact absurd rfl (hfail b)
  | short n => rfl
  | error => rfl
  | timeout => rfl

theorem rngAnswered_of_not_pending (r : RngAnswer) {s : State} (hpending : s.rngPending = false) :
    rngAnswered r s = s := if_neg (ne_true_of_eq_false hpending)

section Outstanding
variable {s : State} {dst : Slot} {w : Word}

theorem genentSlot_eq_some (hflight : s.inflight = some w) (hdecode : decode w = .ok (.genent dst)) :
    genentSlot s = some dst := by
  simp only [genentSlot, hflight, hdecode]

theorem rngAnswered_ok (hpending : s.rngPending = true) (hslot : genentSlot s = some dst) (b : Vector Byte 32) :
    rngAnswered (.ok b) s = stage (entropyWrites dst b.toList) { s with rngPending := false } := by
  simp only [rngAnswered, hpending, if_true, hslot, rngResult]

theorem rngAnswered_fail (hpending : s.rngPending = true) (hslot : genentSlot s = some dst) {r : RngAnswer}
    (hfail : ∀ b, r ≠ .ok b) :
    rngAnswered r s =
      if s.attempts = 3 then raise .entropyGeneration 3#32 { s with rngPending := false }
      else { s with rngPending := false } := by
  simp only [rngAnswered, hpending, if_true, hslot, rngResult_eq_none hfail]

end Outstanding

/-! ### An attempt from its request to its answer (R114) -/

section Attempt
variable {s : State} {dst : Slot} {w : Word}

/-- An attempt that brings 32 bytes ends GENENT with them in the slot (R113, R124). -/
theorem slotWritten_attempt (hflight : s.inflight = some w) (hdecode : decode w = .ok (.genent dst))
    (b : Vector Byte 32) :
    SlotWritten s.attempted (complete (rngAnswered (.ok b) s.requested)) dst (b.toList ++ zeros 32) 32#7 := by
  rw [rngAnswered_ok (s := s.requested) rfl (genentSlot_eq_some hflight hdecode)]
  exact slotWritten_commitEntropy s.attempted dst b.length_toList

/-- A failed attempt leaves the loop to its next one, unless it was the third (R113). -/
theorem rngAnswered_attempt_fail (hflight : s.inflight = some w) (hdecode : decode w = .ok (.genent dst))
    (hpending : s.rngPending = false) {r : RngAnswer} (hfail : ∀ b, r ≠ .ok b) :
    rngAnswered r s.requested =
      if s.attempts = 2 then raise .entropyGeneration 3#32 { s with attempts := 3 }
      else { s with attempts := s.attempts + 1 } := by
  have third_iff : ∀ n : Fin 4, n + 1 = 3 ↔ n = 2 := by decide
  calc rngAnswered r s.requested
      = if s.attempts + 1 = 3 then raise .entropyGeneration 3#32 s.attempted else s.attempted :=
        rngAnswered_fail (s := s.requested) rfl (genentSlot_eq_some hflight hdecode) hfail
    _ = _ := by
      simp only [third_iff, attempted_eq hpending]
      by_cases hthird : s.attempts = 2
      · rw [if_pos hthird, if_pos hthird, (third_iff _).2 hthird]
      · rw [if_neg hthird, if_neg hthird]

end Attempt

/-! ### The steps around a request (R112, R114) -/

section Step
variable {s : State}

theorem step_engine_of_pending (hpending : s.rngPending = true) {rest : List Event} (henv : s.env = .engine :: rest) :
    step s = .next { s with env := rest } := by
  rw [step_cons henv]
  exact if_neg (by simp [hpending])

/-- The answer counts with the request as one engine step, so it takes the turn only where a request is outstanding
(R57). -/
theorem step_rng {r : RngAnswer} {rest : List Event} (henv : s.env = .rng r :: rest) :
    step s = .next (rngAnswered r { s with env := rest, turnTaken := s.turnTaken || s.rngPending }) := step_cons henv

theorem step_rng_of_pending (hpending : s.rngPending = true) {r : RngAnswer} {rest : List Event}
    (henv : s.env = .rng r :: rest) : step s = .next (rngAnswered r { s with env := rest, turnTaken := true }) := by
  rw [step_rng henv, hpending, Bool.or_true]

theorem step_rng_of_not_pending (hpending : s.rngPending = false) {r : RngAnswer} {rest : List Event}
    (henv : s.env = .rng r :: rest) : step s = .next { s with env := rest } := by
  rw [step_rng henv, rngAnswered_of_not_pending r (by exact hpending), hpending, Bool.or_false]

theorem step_quiet_of_pending (hpending : s.rngPending = true) (henv : s.env = []) :
    step s = .next (rngAnswered (Config.rngAnswer s.draws) { s with draws := s.draws + 1 }) :=
  (step_nil henv).trans (if_pos hpending)

theorem step_rngStale {r : RngAnswer} {rest : List Event} (henv : s.env = .rngStale r :: rest) :
    step s = .next { s with env := rest } := step_cons henv

end Step

/-- Settles O54: an attempt from its request to either kind of answer, the loop's head after three attempts, and the
steps with a request outstanding and with none. -/
theorem genentResult : Obligations.GenentResult := by
  refine ⟨fun s dst w _ _ hflight hdecode hpending hlast =>
      ⟨_, exec_genent_requests dst hpending hlast, rfl, fun b => ?success, fun r hfail => ?failure⟩,
    fun s dst hpending hlast => exec_genent_of_exhausted dst hpending hlast,
    fun s hpending => ⟨fun dst => exec_genent_of_pending dst hpending, fun _ => step_engine_of_pending hpending,
      fun _ _ => step_rng_of_pending hpending, step_quiet_of_pending hpending⟩,
    fun s _ _ hpending => step_rng_of_not_pending hpending, fun s _ _ => step_rngStale⟩
  case success =>
    have hslot := slotWritten_attempt hflight hdecode b
    exact ⟨_, hslot.registers, rfl, hslot.slot, hslot.others⟩
  case failure => exact rngAnswered_attempt_fail hflight hdecode hpending hfail

end Sys2Proof.Machine

namespace Sys2Proof.Machine
open Sys2Proof

/-! SUPPORT and PROOFS. The control commands (R115, R116): a list of writes seen as its register writes and, where all the
data is zeros, as the bytes it clears; NOP, and ZEROIZE as both halves of what it stages. -/

/-! ### NOP (R115) -/

/-- Settles O35: the row of OPC 0 has no operand, so one of its words with another bit set is no command's word. -/
theorem nopCompletes : Obligations.NopCompletes := by
  have hword : ∀ w : Word, decode w = .ok .nop ↔ w = 0x00000000#32 := fun w => decode_eq_ok_iff_eq rfl
  refine ⟨hword, fun w hopc hne => ?reserved, fun s => ⟨stage [] s, rfl, complete_stage_eq_finish [] s⟩⟩
  case reserved =>
    have ho : Opcode.nop.code = fieldOpc w := and_opc_eq_iff.1 hopc
    cases hres : reservedFieldSet .nop w with
    | true => exact decode_eq_reservedField ho hres
    | false => exact absurd ((hword w).1 (decode_eq_ok ho hres rfl)) hne

/-! ### The register writes of a list (R124) -/

/-- The write names a register, not a buffer. -/
def Write.isRegister (w : Write) : Bool := w.range.2 == 0

theorem applyWrite_of_register {w : Write} (h : w.isRegister = true) (s : State) (m : Memory) :
    applyWrite { s with mem := m } w = { applyWrite s w with mem := m } := by
  cases w with
  | sk | msg | bita | bitb | mn => cases h
  | sklen | msglen | bitalen | bitblen | idx | mnCount | arg | eqFlag => rfl

theorem applyWrite_of_buffer {w : Write} (h : w.isRegister = false) (s : State) :
    applyWrite s w = { s with mem := (applyWrite s w).mem } := by
  cases w with
  | sk | msg | bita | bitb | mn => exact writeBytes_eq ..
  | sklen | msglen | bitalen | bitblen | idx | mnCount | arg | eqFlag => cases h

/-- The registers after a list of writes are those its register writes leave; the buffer writes in between change the
memory alone. -/
theorem exists_applyWrites_eq_registers (s : State) (m : Memory) (ws : List Write) :
    ∃ m', applyWrites { s with mem := m } ws = { applyWrites s (ws.filter Write.isRegister) with mem := m' } := by
  induction ws generalizing s m with
  | nil => exact ⟨m, rfl⟩
  | cons w ws ih =>
    cases hw : w.isRegister with
    | true =>
      rw [applyWrites_cons, applyWrite_of_register hw, List.filter_cons_of_pos hw, applyWrites_cons]
      exact ih (applyWrite s w) m
    | false =>
      rw [applyWrites_cons, applyWrite_of_buffer hw, List.filter_cons_of_neg (by simp [hw])]
      exact ih s _

/-- Every element written with one value leaves the vector of that value. -/
theorem foldl_set_finRange {α : Type} {n : Nat} (v : Vector α n) (x : α) :
    (List.finRange n).foldl (fun v i => v.set i.val x) v = Vector.replicate n x := by
  ext i hi
  rw [getElem_foldl_set (List.finRange n) (fun _ => x) v ⟨i, hi⟩, if_pos (List.mem_finRange _), Vector.getElem_replicate]

/-- The lengths of several slots written. -/
theorem applyWrites_map_sklen (s : State) (l : List Slot) (g : Slot → BitVec 7) :
    applyWrites s (l.map fun i => .sklen i (g i)) =
      { s with sklen := l.foldl (fun v i => v.set i.val (g i)) s.sklen } := by
  induction l generalizing s with
  | nil => rfl
  | cons i l ih => rw [List.map_cons, applyWrites_cons, ih]; rfl

/-- All 16 slot lengths written with one value. -/
theorem applyWrites_sklen_all (s : State) (n : BitVec 7) :
    applyWrites s ((List.finRange 16).map fun i => .sklen i n) = { s with sklen := Vector.replicate 16 n } := by
  have hall : (List.finRange 16).foldl (fun v i => v.set i.val n) s.sklen = Vector.replicate 16 n :=
    foldl_set_finRange s.sklen n
  rw [applyWrites_map_sklen, hall]

/-- All 24 index registers written with one value. -/
theorem applyWrites_idx_all_const (s : State) (v : BitVec 16) :
    applyWrites s ((List.finRange 24).map fun k => .idx k v) = { s with idx := Vector.replicate 24 v } := by
  have hall : (List.finRange 24).foldl (fun x k => x.set k.val v) s.idx = Vector.replicate 24 v :=
    foldl_set_finRange s.idx v
  rw [applyWrites_map_idx, hall]

/-! ### Bytes cleared by a list of writes -/

/-- Where every write stores zeros, no later write undoes that a byte is cleared: the last one to reach it stores 0. -/
theorem byteAt_applyWrites_zeros {ws : List Write} (s : State) (hzero : ∀ w ∈ ws, w.data = zeros w.range.2) (a : Nat)
    (ha : ∃ w ∈ ws, w.range.1 ≤ a ∧ a < w.range.1 + w.range.2) : byteAt (applyWrites s ws) a = 0#8 := by
  induction ws using List.reverseRecOn with
  | nil => simp at ha
  | append_singleton ws w ih =>
    obtain ⟨hws, hw⟩ := List.forall_mem_append.1 hzero
    rw [applyWrites_append, applyWrites_cons, applyWrites_nil, byteAt_applyWrite]
    split
    · rw [hw w List.mem_cons_self, getD_zeros, BitVec.zero_and]
    · refine ih hws ?_
      obtain ⟨v, hv, hrange⟩ := ha
      rcases List.mem_append.1 hv with hv | hv
      · exact ⟨v, hv, hrange⟩
      · cases List.mem_singleton.1 hv
        contradiction

/-! ### ZEROIZE (R116) -/

theorem data_of_mem_zeroizeWrites : ∀ w ∈ zeroizeWrites, w.data = zeros w.range.2 := by
  simp only [zeroizeWrites, List.forall_mem_append, List.forall_mem_flatMap, List.forall_mem_cons]
  simp [Write.data, Write.range, zeros]

theorem exists_mem_zeroizeWrites_range {a : Nat} (ha : (0x100 ≤ a ∧ a < 0x280) ∨ (0x400 ≤ a ∧ a < 0xB00)) :
    ∃ w ∈ zeroizeWrites, w.range.1 ≤ a ∧ a < w.range.1 + w.range.2 := by
  have hsk : ∀ i : Slot, .sk i (zeros 64) ∈ zeroizeWrites := by simp [zeroizeWrites]
  have hmn : ∀ k : Fin 24, .mn k (zeros 32) ∈ zeroizeWrites := by simp [zeroizeWrites]
  have hmsg : .msg (zeros 256) ∈ zeroizeWrites := by simp [zeroizeWrites]
  have hbita : .bita (zeros 64) ∈ zeroizeWrites := by simp [zeroizeWrites]
  have hbitb : .bitb (zeros 64) ∈ zeroizeWrites := by simp [zeroizeWrites]
  obtain h | h | h | h | h : (0x100 ≤ a ∧ a < 0x200) ∨ (0x200 ≤ a ∧ a < 0x240) ∨ (0x240 ≤ a ∧ a < 0x280) ∨
      (0x400 ≤ a ∧ a < 0x800) ∨ (0x800 ≤ a ∧ a < 0xB00) := by omega
  · exact ⟨_, hmsg, h⟩
  · exact ⟨_, hbita, h⟩
  · exact ⟨_, hbitb, h⟩
  · refine ⟨_, hsk ⟨(a - 0x400) / 64, by omega⟩, ?_⟩
    simp only [Write.range, skBase]
    omega
  · refine ⟨_, hmn ⟨(a - 0x800) / 32, by omega⟩, ?_⟩
    simp only [Write.range, mnBase]
    omega

/-- The register half of ZEROIZE. -/
theorem filter_zeroizeWrites : zeroizeWrites.filter Write.isRegister =
    (List.finRange 16).map (fun i => Write.sklen i 0#7) ++ [Write.msglen 0#9, .bitalen 0#10, .bitblen 0#10]
      ++ (List.finRange 24).map (fun k => Write.idx k 0#16) ++ [Write.mnCount 0#5, .arg 0#32, .eqFlag false] := by
  simp only [zeroizeWrites, List.filter_append, List.filter_flatMap, List.map_eq_flatMap]
  rfl

theorem exists_applyWrites_zeroizeWrites_eq (s : State) : ∃ m, applyWrites s zeroizeWrites =
    { s with
      eqFlag := false, arg := 0#32, msglen := 0#9, bitalen := 0#10, bitblen := 0#10, mnCount := 0#5
      sklen := Vector.replicate 16 0#7, idx := Vector.replicate 24 0#16, mem := m } := by
  obtain ⟨m, hm⟩ := exists_applyWrites_eq_registers s s.mem zeroizeWrites
  refine ⟨m, hm.trans ?_⟩
  rw [filter_zeroizeWrites, applyWrites_append, applyWrites_append, applyWrites_append, applyWrites_sklen_all s,
    applyWrites_idx_all_const _ 0#16]
  simp only [applyWrites_cons, applyWrites_nil, applyWrite]

/-- Settles O55: the register writes name every register it clears, the buffer writes cover every byte it clears, and
no staged write reaches the LUT. -/
theorem zeroizeErases : Obligations.ZeroizeErases := by
  refine ⟨fun w => decode_eq_ok_iff_eq rfl, fun s => ⟨stage zeroizeWrites s, rfl, ?registers, fun a ha => ?cleared,
    fun a hlo hhi => byteAt_complete_lut _ (by simp [isLut, hlo, hhi])⟩⟩
  case registers =>
    obtain ⟨m, hm⟩ := exists_applyWrites_zeroizeWrites_eq s
    rw [complete_stage_eq_finish, hm]
    rfl
  case cleared =>
    rw [complete_stage_eq_finish, byteAt_finish]
    exact byteAt_applyWrites_zeros s data_of_mem_zeroizeWrites a (exists_mem_zeroizeWrites_range ha)

end Sys2Proof.Machine

namespace Sys2Proof.Machine
open Sys2Proof

/-! SUPPORT and PROOFS. Issue, execution and completion (R120 to R125): what a write to CMD does, what an execute step
leaves, what either completion leaves, and that no step stops. -/

/-! ### Execute steps (R123) -/

/-- What an execute step's next state is, whatever word is in flight: the state itself while a request is outstanding,
staged writes, a staged error, or a new request (R113). -/
theorem exec_next_cases {i : Instr} {s t : State} (h : exec i s = .next t) :
    t = s ∨ (∃ ws, t = stage ws s) ∨ (∃ e info, t = raise e info s) ∨
      t = { s with attempts := s.attempts + 1, rngPending := true } := by
  rcases exec_cases i s with (⟨ws, he⟩ | ⟨e, info, he⟩) | ⟨dst, -, ⟨-, he⟩ | ⟨-, -, he⟩⟩ <;> rw [he] at h <;> cases h
  · exact .inr (.inl ⟨ws, rfl⟩)
  · exact .inr (.inr (.inl ⟨e, info, rfl⟩))
  · exact .inl rfl
  · exact .inr (.inr (.inr rfl))

/-- With nothing staged before, an error record found staged is one the command raised, and nothing else changed. -/
theorem eq_raise_of_exec {i : Instr} {s t : State} {e : ErrorName} {info : Word} (hs : s.staged = none)
    (h : exec i s = .next t) (ht : t.staged = some (.error e info)) : t = raise e info s := by
  rcases exec_next_cases h with rfl | ⟨ws, rfl⟩ | ⟨e', info', rfl⟩ | rfl
  · simp [hs] at ht
  · simp at ht
  · cases ht; rfl
  · simp [hs] at ht

/-- Settles O23, by the four kinds of next state. -/
theorem executeStepOnlyStages : Obligations.ExecuteStepOnlyStages := by
  intro i s t h
  rcases exec_next_cases h with rfl | ⟨ws, rfl⟩ | ⟨e, info, rfl⟩ | rfl <;> rfl

/-! ### Completion (R120, R124, R125) -/

theorem complete_of_error {s : State} {e : ErrorName} {info : Word} (h : s.staged = some (.error e info)) :
    complete s = { finish s with err := true, errcode := e.code, errinfo := info } := by simp only [complete, h]

theorem complete_of_writes {s : State} {ws : List Write} (h : s.staged = some (.writes ws)) :
    complete s = finish (applyWrites s ws) := by simp only [complete, h]

/-- Settles O21: a raised error is a record staged in the state before the command. -/
theorem errorCompletionChangesNoData : Obligations.ErrorCompletionChangesNoData := by
  refine ⟨fun s e info hb hs => ?record, fun i s t e info hb hs h ht => ?raised⟩
  case record =>
    rw [engineStep_of_staged hb hs, complete_of_error hs]
    rfl
  case raised =>
    obtain rfl := eq_raise_of_exec hs h ht
    rw [engineStep_of_staged (s := raise e info s) hb ht, complete_raise]
    rfl

/-- Settles O22: no staged write names a control register, and none reaches the LUT. -/
theorem successfulCompletionAppliesTheWrites : Obligations.SuccessfulCompletionAppliesTheWrites := by
  intro s ws hb hs
  have hc := complete_of_writes hs
  refine ⟨complete s, engineStep_of_staged hb hs, hc, ?err, ?errcode, ?errinfo, ?irqen, ?cmd, ?cmdrej, ?wbusy,
    ?wlCount, fun a hlo hhi => ?lut⟩
  case lut => exact byteAt_complete_lut s (by simp [isLut, hlo, hhi])
  all_goals simp [hc]

/-- Settles O24: R120's table, row by row. -/
theorem errorCodesAsTabled : Obligations.ErrorCodesAsTabled := by
  simp only [Obligations.ErrorCodesAsTabled, List.map_cons, List.map_nil, ErrorName.code]

/-! ### Issue (R26, R122) -/

theorem selects_cmd : Selects 0x010#17 .cmd := ⟨rfl, rfl⟩

theorem writeCmd_of_idle {s : State} (hb : s.busy = false) (v : Word) : writeCmd v s = issue v s := by
  simp [writeCmd, hb]

theorem writeCmd_of_busy {s : State} (hb : s.busy = true) (v : Word) : writeCmd v s = { s with cmdrej := true } := by
  simp [writeCmd, hb]

/-- Settles O11: the offset selects CMD, whose write issues while idle and is rejected while busy. -/
theorem cmdWriteIssuesOrIsRejected : Obligations.CmdWriteIssuesOrIsRejected := by
  refine ⟨fun s v hr => ⟨fun hb => ?issued, fun hb => ?rejected, selects_cmd.memRead hr⟩, reset_cmd⟩
  case issued => rw [selects_cmd.memWrite hr, writeTarget, writeCmd_of_idle hb, issue]
  case rejected => rw [selects_cmd.memWrite hr, writeTarget, writeCmd_of_busy hb]

theorem decodeTableWord_eq_some_iff {nbits w : Nat} {i : Instr} :
    decodeTableWord nbits w = some i ↔ decode (BitVec.ofNat 32 (w % 2 ^ nbits)) = .ok i := by
  unfold decodeTableWord
  cases decode (BitVec.ofNat 32 (w % 2 ^ nbits)) with
  | ok j => simp
  | error e => simp

/-- Settles O7: the placed word is in flight with nothing staged, and the engine's turn is next: on its own where no
event is listed, else as the listed turn put before the events. -/
theorem placedWordRunsNext : Obligations.PlacedWordRunsNext := by
  intro s nbits w i hw
  have hdecode := decodeTableWord_eq_some_iff.1 hw
  refine ⟨fun henv => ?quiet, fun henv => ?turn⟩
  case quiet =>
    have hplaced : (s.withFetchWord nbits w).env = [] := by simp [State.withFetchWord, placeCommand, henv]
    exact (step_quiet hplaced rfl).trans (engineStep_of_decodes rfl rfl rfl hdecode)
  case turn =>
    obtain ⟨e, rest, hcons⟩ := List.exists_cons_of_ne_nil henv
    have hplaced : (s.withFetchWord nbits w).env = .engine :: s.env := by
      simp [State.withFetchWord, placeCommand, hcons]
    have hopen := engineTurn_of_open (s := { s.withFetchWord nbits w with env := s.env }) rfl rfl
      (turnWithheld_eq_false (.inl rfl))
    exact (step_cons hplaced).trans (hopen.trans (engineStep_of_decodes rfl rfl rfl hdecode))

/-! ### Every step has a next state (R121) -/

theorem exists_exec_next (i : Instr) (s : State) : ∃ t, exec i s = .next t := by
  rcases exec_cases i s with (⟨ws, he⟩ | ⟨e, info, he⟩) | ⟨dst, -, ⟨-, he⟩ | ⟨-, -, he⟩⟩ <;> exact ⟨_, he⟩

theorem exists_executeStep_next (s : State) : ∃ t, executeStep s = .next t := by
  rcases executeStep_cases s with ⟨-, he⟩ | ⟨w, e, -, -, he⟩ | ⟨w, i, -, -, he⟩
  · exact ⟨_, he⟩
  · exact ⟨_, he⟩
  · rw [he]; exact exists_exec_next i s

theorem exists_engineStep_next (s : State) : ∃ t, engineStep s = .next t := by
  rcases engineStep_cases s with ⟨-, he⟩ | ⟨-, -, he⟩ | ⟨-, -, he⟩
  · exact ⟨_, he⟩
  · exact ⟨_, he⟩
  · rw [he]; exact exists_executeStep_next s

theorem exists_engineTurn_next (s : State) : ∃ t, engineTurn s = .next t := by
  rcases engineTurn_cases s with ⟨-, he⟩ | ⟨-, -, -, he⟩ | ⟨-, -, -, he⟩
  · exact ⟨_, he⟩
  · exact ⟨_, he⟩
  · rw [he]; exact exists_engineStep_next _

theorem exists_quietStep_next (s : State) : ∃ t, quietStep s = .next t := by
  unfold quietStep
  split
  · exact ⟨_, rfl⟩
  · exact exists_engineStep_next s

theorem exists_eventStep_next (e : Event) (s : State) : ∃ t, eventStep e s = .next t := by
  cases e with
  | engine => exact exists_engineTurn_next s
  | host a => exact ⟨_, rfl⟩
  | rng a => exact ⟨_, rfl⟩
  | rngStale a => exact ⟨_, rfl⟩
  | rst level => exact ⟨_, rfl⟩
  | powerUp => exact ⟨_, rfl⟩

/-- Settles O8, by the head of the events: an event or the block's own move, each of which has a next state. -/
theorem everyStepHasANext : Obligations.EveryStepHasANext := by
  intro s
  cases henv : s.env with
  | nil => rw [step_nil henv]; exact exists_quietStep_next s
  | cons e rest => rw [step_cons henv]; exact exists_eventStep_next e _

end Sys2Proof.Machine

namespace Sys2Proof.Machine
open Sys2Proof

/-! SUPPORT and PROOFS. Reset and hazards (R136, R139(c), R142): the writes a busy block drops, what asserting `rst`,
releasing it and power-up leave, and the count of steps after which a busy block left alone is idle. -/

/-! ### Writes dropped while busy (R139(c)) -/

/-- The registers below 0x18 are the control registers; every other write waits for an idle engine. -/
theorem writeTarget_of_data {s : State} (hb : s.busy = true) {tg : Target} (hoff : 0x18 ≤ tg.offset) (v : Word) :
    writeTarget v s tg = { s with wbusy := true } := by
  cases tg with
  | id | ctrl | status | ack | cmd | errinfo => simp [Target.offset] at hoff
  | arg | wlCount | msglen | bitalen | bitblen | mnCount | sklen | idx | buffer => rw [writeTarget, whenIdle_busy hb]

/-- Settles O12: the offset selects a target that stands at it, past the control registers. -/
theorem dataWriteWhileBusyIsDropped : Obligations.DataWriteWhileBusyIsDropped := by
  intro s off v hr hb h4 ⟨hlo, hm⟩
  obtain ⟨tg, hsel⟩ := exists_selects h4 hm
  have hoff : off.toNat = tg.offset := offset_of_target h4 hsel.2
  rw [hsel.memWrite hr, writeTarget_of_data hb (hoff ▸ hlo)]

/-! ### Reset and power-up (R136) -/

theorem isLut_iff (a : Nat) : isLut a = true ↔ 0x10000 ≤ a ∧ a < 0x20000 := by simp [isLut]

theorem not_isLut_of_lt {a : Nat} (h : a < 0x10000) : ¬isLut a = true := by
  rw [isLut_iff]
  omega

/-- After power-up nothing is listed, so every byte is its unlisted value: the free one of this power-up in the LUT, 0
elsewhere (R45). -/
theorem byteAt_powerUp (s : State) (a : Nat) :
    byteAt (powerUp s) a = if isLut a then Config.lutPowerUp (s.powerUps + 1) a &&& byteMask a else 0#8 := by
  cases h : isLut a <;> simp [byteAt, Memory.load, Memory.lookup, background, h]

/-- Settles O29: the three events leave the block reset, the input released, and the block powered up; the bytes are
those of `byteAt_resetBlock` and `byteAt_powerUp`. -/
theorem resetAbandonsAndClears : Obligations.ResetAbandonsAndClears := by
  refine ⟨fun s rest henv => ⟨resetBlock { s with env := rest, rst := true }, step_cons henv, rfl,
      fun a hlo hhi => ?keptLut, fun a h => ?cleared⟩,
    fun s rest henv => step_cons henv,
    fun s rest henv => ⟨powerUp { s with env := rest }, step_cons henv, rfl, fun a hlo hhi => ?freeLut,
      fun a h => ?clearedAtPowerUp⟩⟩
  case keptLut =>
    rw [byteAt_resetBlock, if_pos ((isLut_iff a).2 ⟨hlo, hhi⟩)]
    exact byteAt_congr rfl rfl a
  case cleared => rw [byteAt_resetBlock, if_neg (not_isLut_of_lt h)]
  case freeLut => rw [byteAt_powerUp, if_pos ((isLut_iff a).2 ⟨hlo, hhi⟩)]
  case clearedAtPowerUp => rw [byteAt_powerUp, if_neg (not_isLut_of_lt h)]

/-! ### One step of a busy block left alone (R114, R123 to R125) -/

section Alone

variable {s : State}

/-- With something staged the next step ends the command (R124, R125). -/
theorem complete_ends {st : Staged} (hs : s.staged = some st) :
    (complete s).busy = false ∧ (complete s).done = true := by
  rcases complete_cases s with ⟨hnone, -⟩ | ⟨ws, -, hc⟩ | ⟨e, info, -, hc⟩
  · simp [hs] at hnone
  · rw [hc]; exact ⟨rfl, rfl⟩
  · rw [hc]; exact ⟨rfl, rfl⟩

/-- With no request outstanding, the word in flight stages its outcome or, before the third attempt, sends a request
(R113, R123). -/
theorem executeStep_of_inflight {w : Word} (hp : s.rngPending = false) (hw : s.inflight = some w) :
    (∃ st, executeStep s = .next { s with staged := some st }) ∨
      (s.attempts ≠ 3 ∧ executeStep s = .next s.requested) := by
  rcases executeStep_cases s with ⟨hnone, -⟩ | ⟨w, e, -, -, he⟩ | ⟨w, i, -, -, he⟩
  · simp [hw] at hnone
  · exact .inl ⟨_, he⟩
  · rw [he]
    rcases exec_cases i s with (⟨ws, hx⟩ | ⟨e, info, hx⟩) | ⟨dst, -, ⟨hy, -⟩ | ⟨-, hlast, hx⟩⟩
    · exact .inl ⟨_, hx⟩
    · exact .inl ⟨_, hx⟩
    · simp [hp] at hy
    · exact .inr ⟨hlast, hx⟩

/-- The answer to GENENT's request stages its outcome unless it failed before the third attempt (R113). -/
theorem rngAnswered_of_pending (r : RngAnswer) {dst : Slot} (hp : s.rngPending = true)
    (hslot : genentSlot s = some dst) :
    (∃ st, rngAnswered r s = { s with rngPending := false, staged := some st }) ∨
      (s.attempts ≠ 3 ∧ rngAnswered r s = { s with rngPending := false }) := by
  by_cases hok : ∃ b, r = .ok b
  · obtain ⟨b, rfl⟩ := hok
    exact .inl ⟨_, rngAnswered_ok hp hslot b⟩
  · rw [rngAnswered_fail hp hslot (not_exists.1 hok)]
    by_cases h3 : s.attempts = 3
    · exact .inl ⟨_, if_pos h3⟩
    · exact .inr ⟨h3, if_neg h3⟩

end Alone

/-! ### The steps left to a busy block (R142) -/

/-- How many steps a busy block left alone needs at most: one to complete what is staged; before that one for the
outcome to be staged, and for each attempt GENENT may still make its request and its answer (R113). -/
def stepsLeft (s : State) : Nat :=
  match s.staged with
  | some _ => 1
  | none => if s.rngPending then 2 + 2 * (3 - s.attempts.val) else max 2 (1 + 2 * (3 - s.attempts.val))

section StepsLeft

variable {s : State}

theorem stepsLeft_of_staged {st : Staged} (h : s.staged = some st) : stepsLeft s = 1 := by simp only [stepsLeft, h]

theorem stepsLeft_of_pending (h : s.staged = none) (hp : s.rngPending = true) :
    stepsLeft s = 2 + 2 * (3 - s.attempts.val) := by simp only [stepsLeft, h, hp, if_true]

theorem stepsLeft_of_ready (h : s.staged = none) (hp : s.rngPending = false) :
    stepsLeft s = max 2 (1 + 2 * (3 - s.attempts.val)) := by simp [stepsLeft, h, hp]

theorem stepsLeft_pos (s : State) : 0 < stepsLeft s := by
  unfold stepsLeft
  split
  · omega
  · split <;> omega

/-- An outstanding request is never that of a zeroth attempt, so the longest wait is the one before the first. -/
theorem stepsLeft_le_seven (h : BlockInvariant s) : stepsLeft s ≤ 7 := by
  cases hs : s.staged with
  | some st => rw [stepsLeft_of_staged hs]; omega
  | none =>
    cases hp : s.rngPending with
    | false => rw [stepsLeft_of_ready hs hp]; omega
    | true =>
      obtain ⟨-, hfirst, -⟩ := h.pending hp
      rw [stepsLeft_of_pending hs hp]
      omega

/-- The answer an outstanding request gets leaves fewer steps. -/
theorem rngAnswered_descends (r : RngAnswer) {dst : Slot} (hs : s.staged = none) (hp : s.rngPending = true)
    (hslot : genentSlot s = some dst) :
    (rngAnswered r s).busy = s.busy ∧ (rngAnswered r s).env = s.env ∧ stepsLeft (rngAnswered r s) < stepsLeft s := by
  have hready : stepsLeft { s with rngPending := false } = max 2 (1 + 2 * (3 - s.attempts.val)) :=
    stepsLeft_of_ready hs rfl
  rw [stepsLeft_of_pending hs hp]
  rcases rngAnswered_of_pending r hp hslot with ⟨st, he⟩ | ⟨hlast, he⟩ <;> rw [he] <;> refine ⟨rfl, rfl, ?_⟩
  · rw [stepsLeft_of_staged rfl]; omega
  · omega

/-- The execute step of a word in flight with no request outstanding leaves fewer steps. -/
theorem executeStep_descends {w : Word} (hs : s.staged = none) (hp : s.rngPending = false)
    (hw : s.inflight = some w) :
    ∃ t, executeStep s = .next t ∧ t.busy = s.busy ∧ t.env = s.env ∧ stepsLeft t < stepsLeft s := by
  have hrequested : stepsLeft s.requested = 2 + 2 * (3 - (s.attempts + 1).val) := stepsLeft_of_pending hs rfl
  have val_succ : ∀ n : Fin 4, n ≠ 3 → (n + 1).val = n.val + 1 := by decide
  rw [stepsLeft_of_ready hs hp]
  rcases executeStep_of_inflight hp hw with ⟨st, he⟩ | ⟨hlast, he⟩ <;> refine ⟨_, he, rfl, rfl, ?_⟩
  · rw [stepsLeft_of_staged rfl]; omega
  · rw [hrequested, val_succ _ hlast]
    omega

/-- Left alone, a busy block's step ends the command or leaves fewer steps to its end. -/
theorem step_ends_or_descends (h : BlockInvariant s) (hb : s.busy = true) (henv : s.env = []) :
    ∃ t, step s = .next t ∧
      ((t.busy = false ∧ t.done = true) ∨ (t.busy = true ∧ t.env = [] ∧ stepsLeft t < stepsLeft s)) := by
  cases hp : s.rngPending with
  | true =>
    obtain ⟨hs, -, dst, w, hw, hd⟩ := h.pending hp
    obtain ⟨hbusy, hempty, hless⟩ := rngAnswered_descends (s := { s with draws := s.draws + 1 })
      (Config.rngAnswer s.draws) hs hp (genentSlot_eq_some hw hd)
    exact ⟨_, step_quiet_of_pending hp henv, .inr ⟨hbusy.trans hb, hempty.trans henv, hless⟩⟩
  | false =>
    rw [step_quiet henv hp]
    cases hs : s.staged with
    | some st => exact ⟨_, engineStep_of_staged hb hs, .inl (complete_ends hs)⟩
    | none =>
      obtain ⟨w, hw⟩ := Option.isSome_iff_exists.1 (h.busy_inflight.symm.trans hb)
      obtain ⟨t, he, hbusy, hempty, hless⟩ := executeStep_descends hs hp hw
      have hstep : engineStep s = executeStep s := by simp only [engineStep, hb, hs, if_true]
      exact ⟨t, hstep.trans he, .inr ⟨hbusy.trans hb, hempty.trans henv, hless⟩⟩

end StepsLeft

theorem runSteps_succ {s t : State} (h : step s = .next t) (k : Nat) : runSteps (k + 1) s = runSteps k t := by
  simp only [runSteps, h]

/-- By induction on a bound of the steps left, along the steps that `step_ends_or_descends` gives. -/
theorem exists_runSteps_idle (n : Nat) {s : State} (h : BlockInvariant s) (hb : s.busy = true) (henv : s.env = [])
    (hn : stepsLeft s ≤ n) : ∃ k t, k ≤ n ∧ runSteps k s = some t ∧ t.busy = false ∧ t.done = true := by
  induction n generalizing s with
  | zero => exact absurd hn (Nat.not_le_of_lt (stepsLeft_pos s))
  | succ n ih =>
    obtain ⟨t, hstep, hend | ⟨hbusy, hempty, hless⟩⟩ := step_ends_or_descends h hb henv
    · exact ⟨1, t, by omega, runSteps_succ hstep 0, hend⟩
    · obtain ⟨k, u, hk, hrun, hend⟩ := ih (stepKeepsInvariant s t h hstep) hbusy hempty (by omega)
      exact ⟨k + 1, u, by omega, (runSteps_succ hstep k).trans hrun, hend⟩

/-- Settles O30: the steps left are at most seven. -/
theorem everyCommandEnds : Obligations.EveryCommandEnds :=
  fun _ h hb henv => exists_runSteps_idle 7 h hb henv (stepsLeft_le_seven h)

end Sys2Proof.Machine
